-- ==== Sys2Proof/Word.lean ====
section
/-! DEFINITION. The word types of the block and its fixed-size byte buffers (spec/00_scope.md R10 to R12, spec/10_state.md R21). -/

namespace Sys2Proof

/-- `u8` of R12: bit 7 is the most significant bit (R11). -/
abbrev Byte := BitVec 8

/-- `u16` of R12: the CRC register and the repetition counter's width (R10, R160). -/
abbrev Half := BitVec 16

/-- A chip register address: 7 bits, since the address byte's top bit is the read/write select (R43, R96). -/
abbrev ChipAddr := BitVec 7

/-- The 24-bit device address operand of SEND_PKT and ASSEMBLE (R67, R100). -/
abbrev DevAddr := BitVec 24

/-- A buffer of exactly `n` bytes, indexed from 0 (R21, R43 c). -/
structure Buf (n : Nat) where
  /-- The bytes, index 0 first. -/
  bytes : List Byte
  /-- The capacity the spec gives the buffer. -/
  size : bytes.length = n
  deriving DecidableEq, Repr

/-- A buffer of zero bytes. -/
def Buf.zero (n : Nat) : Buf n := ⟨List.replicate n 0, List.length_replicate⟩

end Sys2Proof
end

