-- ==== Sys2Proof/Syntax.lean ====
section
/-! DEFINITION. The operations of the block: one constructor of `Instr` for each row of spec/opcode_table.json
(spec/30_encoding.md R96, R99, R100), with the enumerations their operands use. -/

namespace Sys2Proof

/-- The chip modes the block can command (R37, R125). -/
inductive Mode where
  | standby
  | receive
  | transmit
  deriving DecidableEq, Repr

/-- The four chip flags FLAG_RD can read (R126). -/
inductive ChipFlag where
  | modeReady
  | payloadReady
  | fifoLevel
  | packetSent
  deriving DecidableEq, Repr

/-- The two packet types that have a length and a CRC seed (R163, R241, R243). -/
inductive PktType where
  | windowSensor
  | remoteControl
  deriving DecidableEq, Repr

/-- DeviceType: "enumeration {RemoteControl, WindowSensor, Unknown}" (R241). As SEND_PKT's operand,
`unknown` stands for every unrecognised type (R100, R102). -/
inductive DeviceType where
  | windowSensor
  | remoteControl
  | unknown
  deriving DecidableEq, Repr

/-- An operation of the block. Host commands, unit operations, chip I/O primitives, the asynchronous event
(R99), and the two bus address bytes (R96). -/
inductive Instr where
  /-- INIT (op 0x00, R129). -/
  | init
  /-- RX_POLL (op 0x01, R181). -/
  | rxPoll
  /-- RX_GET (op 0x02, R195). -/
  | rxGet
  /-- SEND (op 0x03, R211): `payload[0..L)`, the number `v` of valid bits in its last byte. -/
  | send (payload : List Byte) (v : Nat)
  /-- SEND_PKT (op 0x04, R246). -/
  | sendPkt (deviceType : DeviceType) (address : DevAddr) (command : Byte) (extra : List Byte)
  /-- LAST_GET (op 0x05, R250). -/
  | lastGet
  /-- DESTUFF (op 0x08, R142). -/
  | destuff (input : List Byte)
  /-- STUFF (op 0x09, R147). -/
  | stuff (input : List Byte)
  /-- CRC_STEP (op 0x0A, R161). -/
  | crcStep (crc : Half) (c : Byte)
  /-- PKT_CRC (op 0x0B, R163): the operand `n` is the length of `data`. -/
  | pktCrc (data : List Byte) (type : PktType)
  /-- REV8 (op 0x0C, R176). -/
  | rev8 (b : Byte)
  /-- REVBUF (op 0x0D, R178). -/
  | revBuf (bytes : List Byte)
  /-- CLASSIFY (op 0x0E, R241). -/
  | classify (code : Byte)
  /-- ASSEMBLE (op 0x0F, R243). -/
  | assemble (type : PktType) (ctr : Byte) (address : DevAddr) (command : Byte) (extra : List Byte)
  /-- TX_PASS (op 0x10, R215). -/
  | txPass
  /-- REG_WR (op 0x18, R121). -/
  | regWr (addr : ChipAddr) (val : Byte)
  /-- REG_RD (op 0x19, R122). -/
  | regRd (addr : ChipAddr)
  /-- FIFO_WR (op 0x1A, R123). -/
  | fifoWr (bytes : List Byte)
  /-- FIFO_RD (op 0x1B, R124). -/
  | fifoRd (n : Nat)
  /-- SET_MODE (op 0x1C, R125). -/
  | setMode (m : Mode)
  /-- FLAG_RD (op 0x1D, R126). -/
  | flagRd (f : ChipFlag)
  /-- IRQ_EDGE (op 0x1F, R268): the edge of the receive signal. -/
  | irqEdge
  /-- BUS_WRITE (R96): the address byte that opens a write transaction. -/
  | busWrite (addr : ChipAddr)
  /-- BUS_READ (R96): the address byte that opens a read transaction. -/
  | busRead (addr : ChipAddr)
  deriving DecidableEq, Repr

end Sys2Proof
end

