-- ==== Sys2Proof/Config.lean ====
section
/-! DEFINITION. The constants the spec fixes (R8), the parameters it names without a value (R9), and the free
values of the model: what the chip answers once the recorded answers of a state run out (R66). -/

namespace Sys2Proof.Config

/-- SYNC (R8). -/
def sync : Byte := 0x7E

/-- CRC_MASK (R8, R160). -/
def crcMask : Half := 0x8408

/-- SEED_WS (R8, R39). -/
def seedWs : Half := 0xBDB7

/-- SEED_RC (R8, R39). -/
def seedRc : Half := 0xC11F

/-- MAX_FRAME: bytes in one chip receive window (R8). -/
def maxFrame : Nat := 10

/-- MAX_LEN: greatest accepted payload length (R8, R187). -/
def maxLen : Nat := 9

/-- LEN_WS (R8). -/
def lenWs : Nat := 8

/-- LEN_RC (R8). -/
def lenRc : Nat := 9

/-- REPEAT (R8). -/
def repeatCount : Nat := 330

/-- STUFF_RUN (R8). -/
def stuffRun : Nat := 5

/-- DT_WS (R8, R91). -/
def dtWs : Byte := 0x20

/-- RW_WRITE, decided 1 by the spec (R96, decision D3). -/
def rwWrite : Bool := true

/-- LEN_DEFAULT, decided MAX_FRAME by the spec (decision D20). -/
def lenDefault : Byte := 10

/-- Where a chip flag is read (R126). -/
structure FlagLoc where
  /-- FLAG_ADDR[F]. -/
  addr : ChipAddr
  /-- FLAG_MASK[F]. -/
  mask : Byte
  deriving DecidableEq, Repr, Inhabited

/-- The parameters of R9, set before reset is released and never changed (R39, R297). -/
structure Params where
  /-- DT_RC. -/
  dtRc : Byte
  /-- PREAMBLE[0]. -/
  preamble0 : Byte
  /-- PREAMBLE[1]. -/
  preamble1 : Byte
  /-- RADIO_CONFIG, applied in list order. -/
  radioConfig : List (ChipAddr × Byte)
  /-- A_FIFO. -/
  aFifo : ChipAddr
  /-- A_LEN. -/
  aLen : ChipAddr
  /-- LEN_DEFAULT. -/
  lenDefault : Byte
  /-- LEN_UNBOUNDED. -/
  lenUnbounded : Byte
  /-- A_PROBE. -/
  aProbe : ChipAddr
  /-- PROBE_VALS. -/
  probeVals : List Byte
  /-- FLAG_ADDR and FLAG_MASK of ModeReady. -/
  modeReady : FlagLoc
  /-- FLAG_ADDR and FLAG_MASK of PayloadReady. -/
  payloadReady : FlagLoc
  /-- FLAG_ADDR and FLAG_MASK of FifoLevel. -/
  fifoLevel : FlagLoc
  /-- FLAG_ADDR and FLAG_MASK of PacketSent. -/
  packetSent : FlagLoc
  /-- A_RSSI. -/
  aRssi : ChipAddr
  /-- A_MODE. -/
  aMode : ChipAddr
  /-- MODE_VALUE[Standby]. -/
  modeStandby : Byte
  /-- MODE_VALUE[Receive]. -/
  modeReceive : Byte
  /-- MODE_VALUE[Transmit]. -/
  modeTransmit : Byte
  /-- MODE_READY_TIMEOUT, in polls. -/
  modeReadyTimeout : Nat
  /-- CCA_LIMIT, in polls; 0 disables the wait. -/
  ccaLimit : Nat
  /-- FIFO_SIZE: enters premises only (R303). -/
  fifoSize : Nat
  /-- FIFO_THRESH: enters premises only (R303). -/
  fifoThresh : Nat
  /-- RW_WRITE. -/
  rwWrite : Bool
  deriving DecidableEq, Repr

/-- The constraints of R9's table. -/
structure Params.Ok (p : Params) : Prop where
  /-- DT_RC "differs from DT_WS". -/
  dtRc : p.dtRc ≠ dtWs
  /-- "mask is not 0". -/
  modeReady : p.modeReady.mask ≠ 0
  /-- "mask is not 0". -/
  payloadReady : p.payloadReady.mask ≠ 0
  /-- "mask is not 0". -/
  fifoLevel : p.fifoLevel.mask ≠ 0
  /-- "mask is not 0". -/
  packetSent : p.packetSent.mask ≠ 0
  /-- "the three bytes differ". -/
  standbyReceive : p.modeStandby ≠ p.modeReceive
  /-- "the three bytes differ". -/
  standbyTransmit : p.modeStandby ≠ p.modeTransmit
  /-- "the three bytes differ". -/
  receiveTransmit : p.modeReceive ≠ p.modeTransmit
  /-- MODE_READY_TIMEOUT is "greater than 0". -/
  timeout : 0 < p.modeReadyTimeout

/-! The open parameters, as constants with no body: nothing in Lean can evaluate them (DESIGN CHOICE, log entry 2;
safe). A parameter R9 constrains is drawn from exactly the values R9 allows. -/

/-- Picks DT_RC among the 255 bytes other than DT_WS. -/
opaque dtRcPick : Fin 255
/-- PREAMBLE[0] and PREAMBLE[1]. -/
opaque preamble : Byte × Byte
/-- RADIO_CONFIG. -/
opaque radioConfig : List (ChipAddr × Byte)
/-- A_FIFO. -/
opaque aFifo : ChipAddr
/-- A_LEN. -/
opaque aLen : ChipAddr
/-- LEN_UNBOUNDED. -/
opaque lenUnbounded : Byte
/-- A_PROBE. -/
opaque aProbe : ChipAddr
/-- PROBE_VALS. -/
opaque probeVals : List Byte
/-- FLAG_ADDR[F], and FLAG_MASK[F] less one, of ModeReady. -/
opaque modeReadyLoc : ChipAddr × Fin 255
/-- FLAG_ADDR[F], and FLAG_MASK[F] less one, of PayloadReady. -/
opaque payloadReadyLoc : ChipAddr × Fin 255
/-- FLAG_ADDR[F], and FLAG_MASK[F] less one, of FifoLevel. -/
opaque fifoLevelLoc : ChipAddr × Fin 255
/-- FLAG_ADDR[F], and FLAG_MASK[F] less one, of PacketSent. -/
opaque packetSentLoc : ChipAddr × Fin 255
/-- A_RSSI. -/
opaque aRssi : ChipAddr
/-- A_MODE. -/
opaque aMode : ChipAddr
/-- MODE_VALUE[Standby]. -/
opaque modeStandby : Byte
/-- Picks MODE_VALUE[Receive] among the 255 bytes other than MODE_VALUE[Standby]. -/
opaque modeReceivePick : Fin 255
/-- Picks MODE_VALUE[Transmit] among the 254 bytes other than the other two. -/
opaque modeTransmitPick : Fin 254
/-- MODE_READY_TIMEOUT less one. -/
opaque modeReadyTimeoutPred : Nat
/-- CCA_LIMIT. -/
opaque ccaLimit : Nat
/-- FIFO_SIZE. -/
opaque fifoSize : Nat
/-- FIFO_THRESH. -/
opaque fifoThresh : Nat

/-- The value at position `k` of the naturals from 0 up, with `hole` left out. -/
def skip (hole k : Nat) : Nat := if k < hole then k else k + 1

/-- A flag's place from its open constant: the mask is one more than the number drawn, so it is not 0. -/
def flagLoc (loc : ChipAddr × Fin 255) : FlagLoc := ⟨loc.1, BitVec.ofNat 8 (loc.2.val + 1)⟩

/-- The configuration of this machine: the parameters at "their configured values" (R45). -/
def params : Params where
  dtRc := BitVec.ofNat 8 (skip dtWs.toNat dtRcPick.val)
  preamble0 := preamble.1
  preamble1 := preamble.2
  radioConfig := radioConfig
  aFifo := aFifo
  aLen := aLen
  lenDefault := lenDefault
  lenUnbounded := lenUnbounded
  aProbe := aProbe
  probeVals := probeVals
  modeReady := flagLoc modeReadyLoc
  payloadReady := flagLoc payloadReadyLoc
  fifoLevel := flagLoc fifoLevelLoc
  packetSent := flagLoc packetSentLoc
  aRssi := aRssi
  aMode := aMode
  modeStandby := modeStandby
  modeReceive := modeStandby + BitVec.ofNat 8 (modeReceivePick.val + 1)
  modeTransmit := modeStandby + BitVec.ofNat 8 (skip modeReceivePick.val modeTransmitPick.val + 1)
  modeReadyTimeout := modeReadyTimeoutPred + 1
  ccaLimit := ccaLimit
  fifoSize := fifoSize
  fifoThresh := fifoThresh
  rwWrite := rwWrite

/-- What the chip gives one byte-wide bus read (R66): the byte, and whether the receive signal had an edge since
the draw before it (R75: the handler may run between any two mainline steps). -/
structure ChipAnswer where
  /-- The receive signal had an edge before this read. -/
  edge : Bool
  /-- The byte read. -/
  byte : Byte
  deriving DecidableEq, Repr, Inhabited

/-- What one test of ChannelClear gives (R213): the draw, and whether the receive signal had an edge before it. -/
structure ClearAnswer where
  /-- The receive signal had an edge before this test. -/
  edge : Bool
  /-- The channel is clear. -/
  clear : Bool
  deriving DecidableEq, Repr, Inhabited

/-- FREE VALUE (R66, U13): the chip's answer to draw number `n`, where the state records none. -/
opaque chipAnswer : Nat → ChipAnswer

/-- FREE VALUE (R213, U13): the ChannelClear draw number `n`, where the state records none. -/
opaque clearAnswer : Nat → ClearAnswer

end Sys2Proof.Config
end

