-- ==== Sys2Proof/WellFormed.lean ====
section
/-! DEFINITION. Which operations are well formed: the operand ranges the spec gives (R100, R102, R123, R124, R142,
R147), and the lengths the model's operand encoding can carry (DESIGN CHOICE, log entry 4). -/

namespace Sys2Proof

/-- SEND's operands: `L` in 1..10 and `v` in 0..8 (R100, R211). -/
def sendInRange (payload : List Byte) (v : Nat) : Bool :=
  1 ≤ payload.length && payload.length ≤ 10 && v ≤ 8

/-- DESTUFF's operand: 1 to 11 bytes (R142). -/
def destuffInRange (input : List Byte) : Bool := 1 ≤ input.length && input.length ≤ 11

/-- STUFF's operand: 1 to 10 bytes (R147). -/
def stuffInRange (input : List Byte) : Bool := 1 ≤ input.length && input.length ≤ 10

/-- The greatest length a plain count byte carries (log entry 4). -/
def countMax : Nat := 255

/-- The operation's operands are in the spec's ranges and fit the operand encoding. -/
def Instr.wf : Instr → Bool
  | .send payload v => sendInRange payload v
  | .sendPkt _ _ _ extra => extra.length ≤ countMax
  | .destuff input => destuffInRange input
  | .stuff input => stuffInRange input
  | .pktCrc data _ => data.length ≤ countMax
  | .revBuf bytes => bytes.length ≤ countMax
  | .assemble _ _ _ _ extra => extra.length ≤ countMax
  | .fifoWr bytes => 1 ≤ bytes.length && bytes.length ≤ countMax + 1
  | .fifoRd n => 1 ≤ n && n ≤ countMax + 1
  | .init | .rxPoll | .rxGet | .lastGet | .crcStep _ _ | .rev8 _ | .classify _ | .txPass | .regWr _ _ | .regRd _
  | .setMode _ | .flagRd _ | .irqEdge | .busWrite _ | .busRead _ => true

end Sys2Proof
end

