-- ==== Sys2Proof/Decode.lean ====
section
/-! DEFINITION. The decoder and the encoder of the block's operations (spec/30_encoding.md R96, R99, R102).

An operation is one byte that holds the 5-bit code `op[4:0]` of R99 (its bits 7 to 5 are 0), then its operand bytes.
The spec gives the codes; the layout of the operand bytes is the model's (DESIGN CHOICE, log entry 4). A bus address
byte is the one byte of R96. The two are separate encodings (R99's introduction), so a decoder is told which one it
reads. -/

namespace Sys2Proof

/-- The two encodings of the opcode table: operation codes (R99) and bus address bytes (R96). -/
inductive Format where
  | operation
  | busByte
  deriving DecidableEq, Repr

/-- Why bytes are not an operation. -/
inductive DecodeError where
  /-- There is no byte to decode. -/
  | empty
  /-- The operand bytes of this operation code end too early. -/
  | truncated (op : Byte)
  /-- The byte is no assigned operation code (R102). -/
  | unassigned (op : Byte)
  /-- An operand byte of this operation code stands for no operand (log entry 4). -/
  | reservedOperand (op : Byte)
  deriving DecidableEq, Repr

/-- The bus address byte of R96: bit 7 is RW_WRITE for a write and its complement for a read, bits 6 to 0 the address. -/
def busAddrByte (rwWrite write : Bool) (a : ChipAddr) : Byte :=
  BitVec.cons (if write then rwWrite else !rwWrite) a

/-! ### Operand fields -/

/-- `n` bytes from the front. -/
def takeBytes (n : Nat) (bs : List Byte) : Option (List Byte × List Byte) :=
  if n ≤ bs.length then some (bs.take n, bs.drop n) else none

/-- A count byte `n`, then `n` bytes. -/
def counted : List Byte → Option (List Byte × List Byte)
  | [] => none
  | n :: bs => takeBytes n.toNat bs

/-- A count byte `n`, then `n + 1` bytes: for an operand that has at least one byte. -/
def countedFromOne : List Byte → Option (List Byte × List Byte)
  | [] => none
  | n :: bs => takeBytes (n.toNat + 1) bs

/-- A 24-bit address, high byte first. -/
def devAddrOf (hi mid lo : Byte) : DevAddr := hi ++ mid ++ lo

/-- Bits 23 to 16 of an address (R98). -/
def addrHi (a : DevAddr) : Byte := a.extractLsb' 16 8
/-- Bits 15 to 8 of an address (R98). -/
def addrMid (a : DevAddr) : Byte := a.extractLsb' 8 8
/-- Bits 7 to 0 of an address (R98). -/
def addrLo (a : DevAddr) : Byte := a.extractLsb' 0 8

/-- The high byte of a 16-bit value. -/
def hiByte (c : Half) : Byte := c.extractLsb' 8 8
/-- The low byte of a 16-bit value. -/
def loByte (c : Half) : Byte := c.extractLsb' 0 8

/-- A 7-bit chip address in a byte whose top bit is 0. -/
def chipAddrOf (b : Byte) : Option ChipAddr := if b.msb then none else some (b.extractLsb' 0 7)

/-- A chip address as an operand byte. -/
def chipAddrByte (a : ChipAddr) : Byte := BitVec.cons false a

/-- A packet type from its operand byte. -/
def pktTypeOf (b : Byte) : Option PktType :=
  if b = 0 then some .windowSensor else if b = 1 then some .remoteControl else none

/-- The operand byte of a packet type. -/
def pktTypeByte : PktType → Byte
  | .windowSensor => 0
  | .remoteControl => 1

/-- SEND_PKT's device type from its operand byte: every byte but two is "unrecognized" (R100). -/
def deviceTypeOf (b : Byte) : DeviceType :=
  if b = 0 then .windowSensor else if b = 1 then .remoteControl else .unknown

/-- The operand byte of a device type. -/
def deviceTypeByte : DeviceType → Byte
  | .windowSensor => 0
  | .remoteControl => 1
  | .unknown => 2

/-- A chip mode from its operand byte. -/
def modeOf (b : Byte) : Option Mode :=
  if b = 0 then some .standby else if b = 1 then some .receive else if b = 2 then some .transmit else none

/-- The operand byte of a chip mode. -/
def modeByte : Mode → Byte
  | .standby => 0
  | .receive => 1
  | .transmit => 2

/-- A chip flag from its operand byte. -/
def chipFlagOf (b : Byte) : Option ChipFlag :=
  if b = 0 then some .modeReady else if b = 1 then some .payloadReady
  else if b = 2 then some .fifoLevel else if b = 3 then some .packetSent else none

/-- The operand byte of a chip flag. -/
def chipFlagByte : ChipFlag → Byte
  | .modeReady => 0
  | .payloadReady => 1
  | .fifoLevel => 2
  | .packetSent => 3

/-! ### The operand forms: from the bytes after the code to the operation and the bytes left -/

/-- What a decoder answers: the operation and the bytes after it, or why there is none. -/
abbrev Decoded := Except DecodeError (Instr × List Byte)

/-- Payload counted from one, then the byte `v` (SEND). -/
def decodeSend (op : Byte) (bs : List Byte) : Decoded :=
  match countedFromOne bs with
  | some (payload, v :: rest) => .ok (.send payload v.toNat, rest)
  | _ => .error (.truncated op)

/-- Type byte, three address bytes, command, counted extra bytes (SEND_PKT). -/
def decodeSendPkt (op : Byte) : List Byte → Decoded
  | t :: hi :: mid :: lo :: command :: bs =>
    match counted bs with
    | some (extra, rest) => .ok (.sendPkt (deviceTypeOf t) (devAddrOf hi mid lo) command extra, rest)
    | none => .error (.truncated op)
  | _ => .error (.truncated op)

/-- Type byte, counter, three address bytes, command, counted extra bytes (ASSEMBLE). -/
def decodeAssemble (op : Byte) : List Byte → Decoded
  | t :: ctr :: hi :: mid :: lo :: command :: bs =>
    match counted bs, pktTypeOf t with
    | some (extra, rest), some type => .ok (.assemble type ctr (devAddrOf hi mid lo) command extra, rest)
    | none, _ => .error (.truncated op)
    | some _, none => .error (.reservedOperand op)
  | _ => .error (.truncated op)

/-- Type byte, counted data (PKT_CRC). -/
def decodePktCrc (op : Byte) : List Byte → Decoded
  | t :: bs =>
    match counted bs, pktTypeOf t with
    | some (data, rest), some type => .ok (.pktCrc data type, rest)
    | none, _ => .error (.truncated op)
    | some _, none => .error (.reservedOperand op)
  | _ => .error (.truncated op)

/-- The high and low bytes of the register, then the byte folded in (CRC_STEP). -/
def decodeCrcStep (op : Byte) : List Byte → Decoded
  | hi :: lo :: c :: rest => .ok (.crcStep (hi ++ lo) c, rest)
  | _ => .error (.truncated op)

/-- One list of bytes in the form `take` reads. -/
def decodeBytes (op : Byte) (take : Option (List Byte × List Byte)) (make : List Byte → Instr) : Decoded :=
  match take with
  | some (bytes, rest) => .ok (make bytes, rest)
  | none => .error (.truncated op)

/-- One operand byte, read by `read`. -/
def decodeByte (op : Byte) (bs : List Byte) (read : Byte → Option Instr) : Decoded :=
  match bs with
  | b :: rest =>
    match read b with
    | some i => .ok (i, rest)
    | none => .error (.reservedOperand op)
  | [] => .error (.truncated op)

/-- Address byte, then value (REG_WR). -/
def decodeRegWr (op : Byte) : List Byte → Decoded
  | a :: val :: rest =>
    match chipAddrOf a with
    | some addr => .ok (.regWr addr val, rest)
    | none => .error (.reservedOperand op)
  | _ => .error (.truncated op)

/-- The operation codes of R99; a code R102 leaves unassigned, and a byte above 0x1F, is refused. -/
def decodeOperation : List Byte → Decoded
  | [] => .error .empty
  | op :: bs =>
    if op = 0x00 then .ok (.init, bs)
    else if op = 0x01 then .ok (.rxPoll, bs)
    else if op = 0x02 then .ok (.rxGet, bs)
    else if op = 0x03 then decodeSend op bs
    else if op = 0x04 then decodeSendPkt op bs
    else if op = 0x05 then .ok (.lastGet, bs)
    else if op = 0x08 then decodeBytes op (countedFromOne bs) .destuff
    else if op = 0x09 then decodeBytes op (countedFromOne bs) .stuff
    else if op = 0x0A then decodeCrcStep op bs
    else if op = 0x0B then decodePktCrc op bs
    else if op = 0x0C then decodeByte op bs fun b => some (.rev8 b)
    else if op = 0x0D then decodeBytes op (counted bs) .revBuf
    else if op = 0x0E then decodeByte op bs fun b => some (.classify b)
    else if op = 0x0F then decodeAssemble op bs
    else if op = 0x10 then .ok (.txPass, bs)
    else if op = 0x18 then decodeRegWr op bs
    else if op = 0x19 then decodeByte op bs fun b => (chipAddrOf b).map .regRd
    else if op = 0x1A then decodeBytes op (countedFromOne bs) .fifoWr
    else if op = 0x1B then decodeByte op bs fun b => some (.fifoRd (b.toNat + 1))
    else if op = 0x1C then decodeByte op bs fun b => (modeOf b).map .setMode
    else if op = 0x1D then decodeByte op bs fun b => (chipFlagOf b).map .flagRd
    else if op = 0x1F then .ok (.irqEdge, bs)
    else .error (.unassigned op)

/-- The bus address byte of R96: every byte is one. -/
def decodeBusByte (rwWrite : Bool) : List Byte → Decoded
  | [] => .error .empty
  | b :: bs =>
    .ok (if b.msb = rwWrite then .busWrite (b.extractLsb' 0 7) else .busRead (b.extractLsb' 0 7), bs)

/-- Bytes to an operation, in the encoding named. -/
def decode (format : Format) (rwWrite : Bool) (bs : List Byte) : Decoded :=
  match format with
  | .operation => decodeOperation bs
  | .busByte => decodeBusByte rwWrite bs

/-! ### The encoder -/

/-- The encoding an operation belongs to. -/
def Instr.format : Instr → Format
  | .busWrite _ | .busRead _ => .busByte
  | .init | .rxPoll | .rxGet | .send _ _ | .sendPkt _ _ _ _ | .lastGet | .destuff _ | .stuff _ | .crcStep _ _
  | .pktCrc _ _ | .rev8 _ | .revBuf _ | .classify _ | .assemble _ _ _ _ _ | .txPass | .regWr _ _ | .regRd _
  | .fifoWr _ | .fifoRd _ | .setMode _ | .flagRd _ | .irqEdge => .operation

/-- A count byte, then the bytes. -/
def encodeCounted (bytes : List Byte) : List Byte := BitVec.ofNat 8 bytes.length :: bytes

/-- A count byte one less than the length, then the bytes. -/
def encodeCountedFromOne (bytes : List Byte) : List Byte := BitVec.ofNat 8 (bytes.length - 1) :: bytes

/-- The bytes of a well-formed operation. -/
def encode (rwWrite : Bool) : Instr → List Byte
  | .init => [0x00]
  | .rxPoll => [0x01]
  | .rxGet => [0x02]
  | .send payload v => 0x03 :: (encodeCountedFromOne payload ++ [BitVec.ofNat 8 v])
  | .sendPkt t a command extra =>
    0x04 :: deviceTypeByte t :: addrHi a :: addrMid a :: addrLo a :: command :: encodeCounted extra
  | .lastGet => [0x05]
  | .destuff input => 0x08 :: encodeCountedFromOne input
  | .stuff input => 0x09 :: encodeCountedFromOne input
  | .crcStep crc c => [0x0A, hiByte crc, loByte crc, c]
  | .pktCrc data t => 0x0B :: pktTypeByte t :: encodeCounted data
  | .rev8 b => [0x0C, b]
  | .revBuf bytes => 0x0D :: encodeCounted bytes
  | .classify code => [0x0E, code]
  | .assemble t ctr a command extra =>
    0x0F :: pktTypeByte t :: ctr :: addrHi a :: addrMid a :: addrLo a :: command :: encodeCounted extra
  | .txPass => [0x10]
  | .regWr a val => [0x18, chipAddrByte a, val]
  | .regRd a => [0x19, chipAddrByte a]
  | .fifoWr bytes => 0x1A :: encodeCountedFromOne bytes
  | .fifoRd n => [0x1B, BitVec.ofNat 8 (n - 1)]
  | .setMode m => [0x1C, modeByte m]
  | .flagRd f => [0x1D, chipFlagByte f]
  | .irqEdge => [0x1F]
  | .busWrite a => [busAddrByte rwWrite true a]
  | .busRead a => [busAddrByte rwWrite false a]

/-! ### The opcode table's words -/

/-- How many bytes the longest encoding has: SEND_PKT's seven bytes and 255 extra ones are the most (ASSEMBLE has one
more). -/
def longestEncoding : Nat := 263

/-- The bytes of a table word: byte `k` is bits `8k + 7` to `8k`; above `nbits` every operand byte is 0. -/
def wordBytes (nbits w : Nat) : List Byte :=
  (List.range ((nbits + 7) / 8)).map (fun k => BitVec.ofNat 8 (w / 2 ^ (8 * k))) ++ List.replicate longestEncoding 0

/-- Which encoding a table word is read in: an operation if bits 7 to 5 of its first byte are 0, else a bus address
byte. BUS_READ of an address below 0x20 has the same byte as an operation code, and is read as the operation
(DESIGN CHOICE, log entry 5). -/
def wordFormat (w : Nat) : Format := if w % 256 < 32 then .operation else .busByte

/-- The instruction the decoder reads from a table word. -/
def decodeTableWord (nbits w : Nat) : Option Instr :=
  match decode (wordFormat w) Config.rwWrite (wordBytes nbits w) with
  | .ok (i, _) => some i
  | .error _ => none

end Sys2Proof
end

