-- ==== Sys2Proof/Machine/State.lean ====
section
/-! DEFINITION. The state of the block as plain data (spec/10_state.md), the reasons a step can stop, and the state
after reset (R45).

The fields fall in two groups. The spec's own state (R21, R32 to R37) comes first. The fields after it are the
MODEL's own (log entries 3, 6, 7, 8, 9): what the block reads from outside, what it has sent, which operations are
asked of it, the result it last gave, and the configuration it was built with. -/

namespace Sys2Proof.Machine

/-- `rx_state` (R32). -/
inductive RxState where
  | idle
  | receiving
  | accepted
  | rejected
  deriving DecidableEq, Repr

/-- `tx_phase` (R33). -/
inductive TxPhase where
  | off
  | cca
  | setup
  | fill
  | waitSent
  | restore
  deriving DecidableEq, Repr

/-- The conditions a host command can end with (R260). -/
inductive Condition where
  /-- Code 1, raised by INIT (R261). -/
  | initFailure
  /-- Code 2, raised by RX_POLL at step 5 or 6 (R262). -/
  | decodeRejected
  /-- Code 3, raised by SEND_PKT (R263). -/
  | callerInputError
  deriving DecidableEq, Repr

/-- One byte on the serial bus (R60). -/
inductive Wire where
  /-- A byte sent by the block: an address byte, or a data byte of a write. -/
  | out (b : Byte)
  /-- A byte returned by the chip in a read. -/
  | inp (b : Byte)
  deriving DecidableEq, Repr

/-- A byte store by address (`Host.Cell`), its addresses strictly rising. -/
abbrev Memory := List Host.Cell

/-- Who asks for an operation (R20, R99). -/
inductive Port where
  /-- The host, through the host command interface. -/
  | host
  /-- The chip's receive signal. -/
  | signal
  /-- The block itself: a unit operation or a chip I/O primitive invoked on its own. -/
  | internal
  /-- The serial bus: a bare address byte (R96). -/
  | bus
  deriving DecidableEq, Repr

/-- Operations asked at one port, as bytes in the order they are asked. -/
structure Move where
  /-- Who asks. -/
  port : Port
  /-- The operations' bytes. -/
  bytes : List Byte
  deriving DecidableEq, Repr

/-- What an operation returns (R38, R99, R100: a result "is a result, not state"). -/
inductive Ret where
  /-- No result, or none yet. -/
  | none
  /-- INIT, RX_POLL, SEND, SEND_PKT, SET_MODE: a boolean. -/
  | bool (b : Bool)
  /-- RX_GET: bytes, length, type, signal strength (R195). -/
  | packet (bytes : List Byte) (len : Nat) (type : DeviceType) (rssi : Byte)
  /-- LAST_GET: bytes and length (R250). -/
  | snapshot (bytes : List Byte) (len : Nat)
  /-- DESTUFF and STUFF: bytes, and the bits dropped or inserted (R142, R147). -/
  | stuffed (bytes : List Byte) (count : Nat)
  /-- CRC_STEP and PKT_CRC. -/
  | half (c : Half)
  /-- REV8 and REG_RD. -/
  | byte (b : Byte)
  /-- REVBUF, ASSEMBLE, TX_PASS, FIFO_RD. -/
  | bytes (bs : List Byte)
  /-- CLASSIFY (R241). -/
  | kind (type : DeviceType) (len : Nat)
  /-- FLAG_RD (R126). -/
  | bit (b : Bool)
  deriving DecidableEq, Repr

/-- The SEND in progress: its operands, "read once when the command starts" (R46), and what its caller needs. -/
structure SendJob where
  /-- `payload[0..L)`. -/
  payload : List Byte
  /-- `v`. -/
  v : Nat
  /-- How many more iterations the clear-channel wait may make (R213). -/
  ccaLeft : Nat
  /-- SEND_PKT issued this SEND, so the counter moves when it returns (R246). -/
  fromPkt : Bool
  deriving DecidableEq, Repr

/-- The whole state. -/
structure State where
  /-- `raw` (R21). -/
  raw : Buf 10
  /-- `ds` (R21). -/
  ds : Buf 9
  /-- `dec` (R21, R22). -/
  dec : Buf 9
  /-- `dec_len`: 0, 8 or 9 (R21). -/
  decLen : Nat
  /-- `dec_type` (R21). -/
  decType : DeviceType
  /-- `rssi` (R21, R127). -/
  rssi : Byte
  /-- `pl` (R21). -/
  pl : Buf 9
  /-- `st` (R21). -/
  st : Buf 10
  /-- `frame` (R21, R25). -/
  frame : Buf 11
  /-- `total` (R21, R10); it may be below R21's 16 (log entry 24). -/
  total : Byte
  /-- `acc` (R21, R44). -/
  acc : Byte
  /-- `acc_n`: 0 to 7 (R21). -/
  accN : Nat
  /-- `last_sent` (R21, R24). -/
  lastSent : Buf 11
  /-- `last_sent_len`: 0 to 11 (R21). -/
  lastSentLen : Nat
  /-- `counter`: 1 to 255 (R21, R23). -/
  counter : Byte
  /-- `rx_state` (R32). -/
  rxState : RxState
  /-- `tx_phase` (R33). -/
  txPhase : TxPhase
  /-- `rep` (R33, R10). -/
  rep : Half
  /-- `tx_active` (R33). -/
  txActive : Bool
  /-- `rx_flag` (R34). -/
  rxFlag : Bool
  /-- `irq_armed` (R35). -/
  irqArmed : Bool
  /-- `initialized` (R36). -/
  initialized : Bool
  /-- `chip_mode` (R37). -/
  chipMode : Mode
  /-- MODEL: the constants and parameters of R9, which nothing writes (R39, R297; log entry 2). -/
  cfg : Config.Params
  /-- MODEL: the chip's next answers (R66; log entry 3). -/
  chipIn : List Config.ChipAnswer
  /-- MODEL: the next ChannelClear draws (R213; log entry 3). -/
  clearIn : List Config.ClearAnswer
  /-- MODEL: how many draws were made; numbers the free values (log entry 3). -/
  drawn : Nat
  /-- MODEL: the bytes that crossed the bus, oldest first (R60, R74; log entry 6). -/
  bus : List Wire
  /-- MODEL: the chip's registers as the block last wrote them (R41, R121; log entry 7). -/
  chipRegs : Memory
  /-- MODEL: the bytes appended to the chip's transmit FIFO, oldest first (R97, R123; log entry 7). -/
  fifoOut : List Byte
  /-- MODEL: the operations asked of the block, the next one first (R20, R312; log entry 8). -/
  moves : List Move
  /-- MODEL: the last result (R38; log entry 9). -/
  ret : Ret
  /-- MODEL: the condition the last operation ended with (R260; log entry 9). -/
  cond : Option Condition
  /-- MODEL: the operands of the SEND in progress; means something only while `tx_phase` is not TxOff (log entry 9). -/
  job : SendJob
  deriving DecidableEq, Repr

/-- Why the machine stops with a fault. It never does: every condition of R260 is "handled where it arises, by
returning a boolean" (R278), no access can be misaligned (R68), and every 7-bit chip address exists (R103). -/
inductive Fault where
  deriving DecidableEq, Repr

/-- Why an operation has no behaviour (R265). -/
inductive Refusal where
  /-- Raised by `exec`'s arm of an operation the model has not reached; no arm raises it. Safe. -/
  | notModelled (mnemonic : String)
  /-- Raised by RX_POLL, SEND and SEND_PKT while `initialized = 0` (R298, U2). Safe. -/
  | beforeInit
  /-- Raised by STUFF, and by SEND_PKT with it, when a ninth insertion is due (R149, U1). Safe. -/
  | stuffOverflow
  /-- Raised by SEND, DESTUFF, STUFF, FIFO_WR and FIFO_RD when an operand is out of the spec's range (R265, U4). Safe. -/
  | operandRange
  /-- Raised by the step when a port asks for an operation it cannot issue (R99, R120, U6). Safe. -/
  | notIssuable
  /-- Raised by the step when the bytes asked for are no operation (R102, U3). Safe. -/
  | undecodable (e : DecodeError)
  deriving DecidableEq, Repr

/-- No SEND in progress. -/
def SendJob.idle : SendJob := ⟨[], 0, 0, false⟩

/-- The machine right after reset (R45, R290 to R293). The unspecified buffers, `rssi`, `total`, `acc` and `acc_n` are 0
(DESIGN CHOICE, log entry 1; unsafe). -/
def State.reset : State where
  raw := Buf.zero 10
  ds := Buf.zero 9
  dec := Buf.zero 9
  decLen := 0
  decType := .unknown
  rssi := 0
  pl := Buf.zero 9
  st := Buf.zero 10
  frame := Buf.zero 11
  total := 0
  acc := 0
  accN := 0
  lastSent := Buf.zero 11
  lastSentLen := 0
  counter := 1
  rxState := .idle
  txPhase := .off
  rep := 0
  txActive := false
  rxFlag := false
  irqArmed := false
  initialized := false
  chipMode := .standby
  cfg := Config.params
  chipIn := []
  clearIn := []
  drawn := 0
  bus := []
  chipRegs := []
  fifoOut := []
  moves := []
  ret := .none
  cond := none
  job := SendJob.idle

end Sys2Proof.Machine
end

