-- ==== Sys2Proof/Machine/Bits.lean ====
section
/-! DEFINITION. Byte sequences as bit streams, and fixed-size buffers (spec/00_scope.md R11, spec/41_bitstuff.md R141,
spec/10_state.md R21). -/

namespace Sys2Proof.Machine

/-- The 8 bits of a byte, bit 7 first (R11). -/
def byteBits (b : Byte) : List Bool :=
  [b.getLsbD 7, b.getLsbD 6, b.getLsbD 5, b.getLsbD 4, b.getLsbD 3, b.getLsbD 2, b.getLsbD 1, b.getLsbD 0]

/-- The bit stream of a byte sequence: stream bit `k` is bit `7 - k mod 8` of byte `k div 8` (R11, R141). -/
def bits (bytes : List Byte) : List Bool := bytes.flatMap byteBits

/-- Shift left by one place, the bit given entering at bit 0 (R215). -/
def shiftIn (acc : Byte) (b : Bool) : Byte := (acc <<< 1) ||| (if b then 1 else 0)

/-- The byte whose bits, bit 7 first, are the ones given. -/
def byteOfBits (bs : List Bool) : Byte := bs.foldl shiftIn 0

/-- A bit stream cut into bytes, first bit in bit 7 (R97, R141); bits after the last full byte are left out. -/
def packBits : List Bool → List Byte
  | b7 :: b6 :: b5 :: b4 :: b3 :: b2 :: b1 :: b0 :: rest => byteOfBits [b7, b6, b5, b4, b3, b2, b1, b0] :: packBits rest
  | _ => []

/-- A bit stream with 0 bits after it, up to `n` bits. -/
def padBits (n : Nat) (bs : List Bool) : List Bool := bs ++ List.replicate (n - bs.length) false

/-- `buf[0..k) <- bytes[0..k)`, `k` being the number of bytes given: the rest of the buffer keeps its contents. -/
def overlay (buf : Buf n) (bytes : List Byte) : Buf n :=
  ⟨(bytes ++ buf.bytes.drop bytes.length).take n, by have := buf.size; simp; omega⟩

/-- `buf[i]`; 0 past the buffer's end, where no rule reads. -/
def byteAt (bytes : List Byte) (i : Nat) : Byte := bytes.getD i 0

end Sys2Proof.Machine
end

