-- ==== Sys2Proof/Machine/Ops.lean ====
section
/-! DEFINITION. The named operations over the block's inputs, the bus, the chip's registers and the results
(spec/20_memory.md, spec/40_chip_io.md R121 to R124, spec/60_exceptions.md R260, R268). -/

namespace Sys2Proof.Machine

/-! ### Memory: the chip's registers as the block last wrote them -/

/-- The byte last written at an address; none where nothing was written (log entry 7). -/
def Memory.read : Memory → Nat → Option Byte
  | [], _ => none
  | (k, v) :: m, a => if a = k then some v else Memory.read m a

/-- Write one byte, keeping the addresses strictly rising. -/
def Memory.write : Memory → Nat → Byte → Memory
  | [], a, b => [(a, b)]
  | (k, v) :: m, a, b =>
    if a < k then (a, b) :: (k, v) :: m
    else if a = k then (a, b) :: m
    else (k, v) :: Memory.write m a b

/-- The canonical form: addresses strictly rising from `lo` on, all of them chip addresses (R43 a). -/
def Memory.wfFrom : Nat → Memory → Bool
  | _, [] => true
  | lo, (k, _) :: m => lo ≤ k && k < 128 && Memory.wfFrom (k + 1) m

/-- The canonical form of a memory. -/
def Memory.wf (m : Memory) : Bool := Memory.wfFrom 0 m

/-! ### The receive interrupt (R266 to R269)

Taking the interrupt is one write and saves nothing; it "has no return operation to specify" (R269). -/

/-- The handler (R268), run if an edge came: it sets `rx_flag` if the signal is armed. -/
def takeEdgeIf (edge : Bool) (s : State) : State := { s with rxFlag := s.rxFlag || (edge && s.irqArmed) }

/-- The receive signal has an edge. -/
def takeEdge (s : State) : State := takeEdgeIf true s

/-! ### Draws (R66): a recorded answer if the state holds one, else the free value of this draw's number -/

/-- What the chip answers the next bus read. -/
def nextAnswer (s : State) : Config.ChipAnswer := s.chipIn.headD (Config.chipAnswer s.drawn)

/-- The next ChannelClear draw. -/
def nextClear (s : State) : Config.ClearAnswer := s.clearIn.headD (Config.clearAnswer s.drawn)

/-- One chip answer used up. -/
def popAnswer (s : State) : State := { s with chipIn := s.chipIn.tail, drawn := s.drawn + 1 }

/-- One ChannelClear draw used up. -/
def popClear (s : State) : State := { s with clearIn := s.clearIn.tail, drawn := s.drawn + 1 }

/-- One byte drawn from the chip; an edge that came before it runs the handler first (R75). -/
def drawByte (s : State) : Byte × State := ((nextAnswer s).byte, takeEdgeIf (nextAnswer s).edge (popAnswer s))

/-- One ChannelClear drawn (R213). -/
def drawClear (s : State) : Bool × State := ((nextClear s).clear, takeEdgeIf (nextClear s).edge (popClear s))

/-! ### The bus (R60, R61) -/

/-- Bytes cross the bus. -/
def onBus (ws : List Wire) (s : State) : State := { s with bus := s.bus ++ ws }

/-- Bytes join the chip's transmit FIFO. -/
def queueFifo (bytes : List Byte) (s : State) : State := { s with fifoOut := s.fifoOut ++ bytes }

/-- The address byte that opens a transaction (R96). -/
def busAddr (write : Bool) (addr : ChipAddr) (s : State) : State :=
  onBus [.out (busAddrByte s.cfg.rwWrite write addr)] s

/-- The chip's side of a byte written at an address: at A_FIFO it joins the FIFO, else the register takes it (R43, R121). -/
def chipTakes (addr : ChipAddr) (val : Byte) (s : State) : State :=
  { s with
    chipRegs := if addr = s.cfg.aFifo then s.chipRegs else s.chipRegs.write addr.toNat val
    fifoOut := if addr = s.cfg.aFifo then s.fifoOut ++ [val] else s.fifoOut }

/-- REG_WR (R121). -/
def regWr (addr : ChipAddr) (val : Byte) (s : State) : State :=
  chipTakes addr val (onBus [.out val] (busAddr true addr s))

/-- A data byte of a read: drawn, and clocked in over the bus. -/
def clockIn (s : State) : Byte × State := ((drawByte s).1, onBus [.inp (drawByte s).1] (drawByte s).2)

/-- REG_RD (R122). -/
def regRd (addr : ChipAddr) (s : State) : Byte × State := clockIn (busAddr false addr s)

/-- FIFO_WR (R123). -/
def fifoWr (bytes : List Byte) (s : State) : State :=
  queueFifo bytes (onBus (bytes.map .out) (busAddr true s.cfg.aFifo s))

/-- `n` data bytes of a read, the first one first. -/
def clockInMany : Nat → State → List Byte × State
  | 0, s => ([], s)
  | n + 1, s => ((clockIn s).1 :: (clockInMany n (clockIn s).2).1, (clockInMany n (clockIn s).2).2)

/-- FIFO_RD (R124). -/
def fifoRd (n : Nat) (s : State) : List Byte × State := clockInMany n (busAddr false s.cfg.aFifo s)

/-! ### Results (R38) and conditions (R260) -/

/-- The operation ends with this result and no condition. -/
def respond (r : Ret) (s : State) : State := { s with ret := r, cond := none }

/-- `raise` (R13): the host command ends with this condition and returns false; "no state is saved, no control
transfer exists". -/
def raise (c : Condition) (s : State) : State := { s with ret := .bool false, cond := some c }

end Sys2Proof.Machine
end

