-- ==== Sys2Proof/Machine/Operands.lean ====
section
/-! DEFINITION. How operands are put together (spec/30_encoding.md R91, R95, R98, spec/46_assembly.md R241, R242): the
one table of packet types, read in both directions, and the lengths of the stuffed payload. -/

namespace Sys2Proof.Machine

/-- The on-air code of a packet type (R91, R242). -/
def typeCode (cfg : Config.Params) : PktType → Byte
  | .windowSensor => Config.dtWs
  | .remoteControl => cfg.dtRc

/-- The payload length of a packet type, CRC bytes included (R91). -/
def typeLen : PktType → Nat
  | .windowSensor => Config.lenWs
  | .remoteControl => Config.lenRc

/-- The CRC seed of a packet type: "exactly two entries" (R39, R163). -/
def typeSeed : PktType → Half
  | .windowSensor => Config.seedWs
  | .remoteControl => Config.seedRc

/-- A packet type as a DeviceType. -/
def deviceOf : PktType → DeviceType
  | .windowSensor => .windowSensor
  | .remoteControl => .remoteControl

/-- The packet type of a DeviceType; Unknown has none (R241, R242). -/
def pktTypeOfDevice : DeviceType → Option PktType
  | .windowSensor => some .windowSensor
  | .remoteControl => some .remoteControl
  | .unknown => none

/-- The pair (L, v) from STUFF's result on `n` bytes (R95, R148 a). -/
def stuffedSize (n ins : Nat) : Nat × Nat := if ins = 0 then (n, 0) else (n + 1, ins)

/-- `total` from (L, v): "8 + 8×full payload bytes + carry bits if the last byte is partial" (R95, R212); 9 to 15 for
L = 1 with v from 1 to 7, below R21's 16: DESIGN CHOICE (log entry 24). -/
def totalBits (len v : Nat) : Nat := if v = 0 ∨ v = 8 then 8 + 8 * len else 8 + 8 * (len - 1) + v

/-- A 16-bit value from its bytes, high byte first (R98). -/
def halfOf (hi lo : Byte) : Half := hi ++ lo

end Sys2Proof.Machine
end

