-- ==== Sys2Proof/Machine/BitRev.lean ====
section
/-! DEFINITION. The byte-reversal unit (spec/43_bitrev.md). -/

namespace Sys2Proof.Machine

/-- REV8 (R176): bit `i` of the result is bit `7 - i` of the operand. -/
def rev8 (b : Byte) : Byte := byteOfBits (byteBits b).reverse

/-- REVBUF (R178): every byte reversed, their order kept. -/
def revBuf (bytes : List Byte) : List Byte := bytes.map rev8

/-- REV8 (R176). -/
def execRev8 (b : Byte) (s : State) : Host.Outcome State Fault Refusal := .next (respond (.byte (rev8 b)) s)

/-- REVBUF (R178). -/
def execRevBuf (bytes : List Byte) (s : State) : Host.Outcome State Fault Refusal :=
  .next (respond (.bytes (revBuf bytes)) s)

end Sys2Proof.Machine
end

