-- ==== Sys2Proof/Machine/BitStuff.lean ====
section
/-! DEFINITION. The bit destuffer and stuffer (spec/41_bitstuff.md). -/

namespace Sys2Proof.Machine

/-- The destuffer's scan (R142): `cap` output bits are still free, `run` one-bits were just copied. A run of five
makes the bit at hand the one that is dropped, whatever its value (R143). Answers the bits kept and how many were
dropped. -/
def destuffBits : Nat → Nat → List Bool → List Bool × Nat
  | _, _, [] => ([], 0)
  | cap, run, b :: bs =>
    if cap = 0 then ([], 0)
    else if run = Config.stuffRun then ((destuffBits cap 0 bs).1, (destuffBits cap 0 bs).2 + 1)
    else
      (b :: (destuffBits (cap - 1) (if b then run + 1 else 0) bs).1,
        (destuffBits (cap - 1) (if b then run + 1 else 0) bs).2)

/-- DESTUFF (R142): N bytes in, N - 1 bytes out, the tail the input does not fill being 0 (R144 d). -/
def destuff (input : List Byte) : List Byte × Nat :=
  (packBits (padBits (8 * (input.length - 1)) (destuffBits (8 * (input.length - 1)) 0 (bits input)).1),
    (destuffBits (8 * (input.length - 1)) 0 (bits input)).2)

/-- The stuffer's scan (R147): `run` one-bits were just emitted; a 0 goes out after the fifth. Answers the bits out and
how many were inserted. -/
def stuffBits : Nat → List Bool → List Bool × Nat
  | _, [] => ([], 0)
  | run, true :: bs =>
    if run + 1 = Config.stuffRun then (true :: false :: (stuffBits 0 bs).1, (stuffBits 0 bs).2 + 1)
    else (true :: (stuffBits (run + 1) bs).1, (stuffBits (run + 1) bs).2)
  | _, false :: bs => (false :: (stuffBits 0 bs).1, (stuffBits 0 bs).2)

/-- STUFF (R147): N bytes in, N + 1 bytes out, left-aligned; none where a ninth insertion is due (R149). -/
def stuff (input : List Byte) : Option (List Byte × Nat) :=
  if (stuffBits 0 (bits input)).2 ≤ 8 then
    some (packBits (padBits (8 * (input.length + 1)) (stuffBits 0 (bits input)).1), (stuffBits 0 (bits input)).2)
  else none

/-- DESTUFF (R142). -/
def execDestuff (input : List Byte) (s : State) : Host.Outcome State Fault Refusal :=
  if destuffInRange input then .next (respond (.stuffed (destuff input).1 (destuff input).2) s)
  else .refused .operandRange

/-- STUFF (R147). -/
def execStuff (input : List Byte) (s : State) : Host.Outcome State Fault Refusal :=
  if stuffInRange input then
    match stuff input with
    | some r => .next (respond (.stuffed r.1 r.2) s)
    | none => .refused .stuffOverflow
  else .refused .operandRange

end Sys2Proof.Machine
end

