-- ==== Sys2Proof/Machine/Flags.lean ====
section
/-! DEFINITION. The chip's flags as the block reads them (spec/40_chip_io.md R126). The block "has no arithmetic
condition codes" (spec/10_state.md R38). -/

namespace Sys2Proof.Machine

/-- Where a flag is: FLAG_ADDR[F] and FLAG_MASK[F] (R9). -/
def flagLoc (cfg : Config.Params) : ChipFlag → Config.FlagLoc
  | .modeReady => cfg.modeReady
  | .payloadReady => cfg.payloadReady
  | .fifoLevel => cfg.fifoLevel
  | .packetSent => cfg.packetSent

/-- The flag in the byte read: 1 if any bit under the mask is (R126). -/
def flagBit (loc : Config.FlagLoc) (v : Byte) : Bool := v &&& loc.mask != 0

/-- FLAG_RD (R126). -/
def flagRd (f : ChipFlag) (s : State) : Bool × State :=
  (flagBit (flagLoc s.cfg f) (regRd (flagLoc s.cfg f).addr s).1, (regRd (flagLoc s.cfg f).addr s).2)

end Sys2Proof.Machine
end

