-- ==== Sys2Proof/Machine/ChipIo.lean ====
section
/-! DEFINITION. The chip I/O primitives and INIT (spec/40_chip_io.md). -/

namespace Sys2Proof.Machine

/-- MODE_VALUE[m] (R9). -/
def modeValue (cfg : Config.Params) : Mode → Byte
  | .standby => cfg.modeStandby
  | .receive => cfg.modeReceive
  | .transmit => cfg.modeTransmit

/-- The mode-ready wait with `polls` polls left after this one: true as soon as ModeReady reads 1 (R76, R125). -/
def modeWait : Nat → State → Bool × State
  | 0, s => flagRd .modeReady s
  | polls + 1, s =>
    if (flagRd .modeReady s).1 then (true, (flagRd .modeReady s).2) else modeWait polls (flagRd .modeReady s).2

/-- The mode command, and the block's record of it (R125). -/
def commandMode (m : Mode) (s : State) : State :=
  { regWr s.cfg.aMode (modeValue s.cfg m) s with chipMode := m }

/-- SET_MODE (R125): command the mode, then wait for ModeReady. The first poll is always made. -/
def setMode (m : Mode) (s : State) : Bool × State := modeWait (s.cfg.modeReadyTimeout - 1) (commandMode m s)

/-- RSSI_RD (R127). -/
def rssiRd (s : State) : Byte × State := regRd s.cfg.aRssi s

/-- INIT's round-trip check (R129 step 1): false at the first value that does not read back. -/
def probe : List Byte → State → Bool × State
  | [], s => (true, s)
  | p :: ps, s =>
    if (regRd s.cfg.aProbe (regWr s.cfg.aProbe p s)).1 = p
    then probe ps (regRd s.cfg.aProbe (regWr s.cfg.aProbe p s)).2
    else (false, (regRd s.cfg.aProbe (regWr s.cfg.aProbe p s)).2)

/-- Register writes in list order (R129 step 3). -/
def regWrAll : List (ChipAddr × Byte) → State → State
  | [], s => s
  | (a, val) :: rest, s => regWrAll rest (regWr a val s)

/-- Program the chip (R129 step 3): RADIO_CONFIG, then the framing register's default. -/
def programChip (s : State) : State :=
  regWr s.cfg.aLen s.cfg.lenDefault (regWrAll s.cfg.radioConfig s)

/-- Arm the receive signal (R129 step 4). -/
def armReceive (s : State) : State :=
  { s with rxFlag := false, irqArmed := true, rxState := .idle, initialized := true }

/-- INIT (R129): it returns a boolean in every case, InitFailure being false (R261). -/
def runInit (s : State) : State :=
  if (probe s.cfg.probeVals s).1 then
    if (setMode .standby (probe s.cfg.probeVals s).2).1 then
      respond (.bool true) (armReceive (programChip (setMode .standby (probe s.cfg.probeVals s).2).2))
    else raise .initFailure (setMode .standby (probe s.cfg.probeVals s).2).2
  else raise .initFailure (probe s.cfg.probeVals s).2

/-- INIT (R129). -/
def execInit (s : State) : Host.Outcome State Fault Refusal := .next (runInit s)

/-- REG_WR (R121). -/
def execRegWr (addr : ChipAddr) (val : Byte) (s : State) : Host.Outcome State Fault Refusal :=
  .next (respond .none (regWr addr val s))

/-- REG_RD (R122). -/
def execRegRd (addr : ChipAddr) (s : State) : Host.Outcome State Fault Refusal :=
  .next (respond (.byte (regRd addr s).1) (regRd addr s).2)

/-- FIFO_WR (R123): its operand has at least one byte. -/
def execFifoWr (bytes : List Byte) (s : State) : Host.Outcome State Fault Refusal :=
  if bytes = [] then .refused .operandRange else .next (respond .none (fifoWr bytes s))

/-- FIFO_RD (R124): `n` is at least 1. -/
def execFifoRd (n : Nat) (s : State) : Host.Outcome State Fault Refusal :=
  if n = 0 then .refused .operandRange else .next (respond (.bytes (fifoRd n s).1) (fifoRd n s).2)

/-- SET_MODE (R125). -/
def execSetMode (m : Mode) (s : State) : Host.Outcome State Fault Refusal :=
  .next (respond (.bool (setMode m s).1) (setMode m s).2)

/-- FLAG_RD (R126). -/
def execFlagRd (f : ChipFlag) (s : State) : Host.Outcome State Fault Refusal :=
  .next (respond (.bit (flagRd f s).1) (flagRd f s).2)

/-- BUS_WRITE (R96): the address byte that opens a write transaction goes out. -/
def execBusWrite (addr : ChipAddr) (s : State) : Host.Outcome State Fault Refusal :=
  .next (respond .none (busAddr true addr s))

/-- BUS_READ (R96): the address byte that opens a read transaction goes out. -/
def execBusRead (addr : ChipAddr) (s : State) : Host.Outcome State Fault Refusal :=
  .next (respond .none (busAddr false addr s))

end Sys2Proof.Machine
end

