-- ==== Sys2Proof/Machine/Crc.lean ====
section
/-! DEFINITION. The CRC engine (spec/42_crc.md). -/

namespace Sys2Proof.Machine

/-- One iteration on the register (R161): it tests bit 0 of `crc XOR c`. -/
def crcIter (crc : Half) (c : Byte) : Half :=
  if (crc ^^^ c.zeroExtend 16) &&& 1 = 1 then (crc >>> 1) ^^^ Config.crcMask else crc >>> 1

/-- The given number of iterations, `c` moving right by one bit in each. -/
def crcIters : Nat → Half → Byte → Half
  | 0, crc, _ => crc
  | n + 1, crc, c => crcIters n (crcIter crc c) (c >>> 1)

/-- CRC_STEP (R161). -/
def crcStep (crc : Half) (c : Byte) : Half := crcIters 8 crc c

/-- The two result bytes swapped (R164). -/
def swapBytes (crc : Half) : Half := ((crc &&& 0x00FF) <<< 8) ||| (crc >>> 8)

/-- PKT_CRC (R163): the seed, the sync byte, the data, the swap. -/
def pktCrc (data : List Byte) (type : PktType) : Half :=
  swapBytes (data.foldl crcStep (crcStep (typeSeed type) Config.sync))

/-- CRC_STEP (R161). -/
def execCrcStep (crc : Half) (c : Byte) (s : State) : Host.Outcome State Fault Refusal :=
  .next (respond (.half (crcStep crc c)) s)

/-- PKT_CRC (R163). -/
def execPktCrc (data : List Byte) (type : PktType) (s : State) : Host.Outcome State Fault Refusal :=
  .next (respond (.half (pktCrc data type)) s)

end Sys2Proof.Machine
end

