-- ==== Sys2Proof/Machine/Packet.lean ====
section
/-! DEFINITION. CLASSIFY and ASSEMBLE (spec/46_assembly.md R241 to R243). -/

namespace Sys2Proof.Machine

/-- CLASSIFY (R241). -/
def classify (cfg : Config.Params) (code : Byte) : DeviceType × Nat :=
  if code = typeCode cfg .windowSensor then (.windowSensor, typeLen .windowSensor)
  else if code = typeCode cfg .remoteControl then (.remoteControl, typeLen .remoteControl)
  else (.unknown, 0)

/-- The command bytes of a packet: RemoteControl carries one extra byte, 0 if none is given (R90, R243). -/
def commandBytes (type : PktType) (command : Byte) (extra : List Byte) : List Byte :=
  match type with
  | .windowSensor => [command]
  | .remoteControl => [command, extra.headD 0]

/-- The fields of a packet: its payload without the CRC bytes (R15, R90). -/
def fields (cfg : Config.Params) (type : PktType) (ctr : Byte) (address : DevAddr) (command : Byte)
    (extra : List Byte) : List Byte :=
  [ctr, typeCode cfg type, addrHi address, addrMid address, addrLo address] ++ commandBytes type command extra

/-- ASSEMBLE (R243): the fields, then their CRC high byte first. -/
def assemble (cfg : Config.Params) (type : PktType) (ctr : Byte) (address : DevAddr) (command : Byte)
    (extra : List Byte) : List Byte :=
  let fs := fields cfg type ctr address command extra
  fs ++ [hiByte (pktCrc fs type), loByte (pktCrc fs type)]

/-- CLASSIFY (R241). -/
def execClassify (code : Byte) (s : State) : Host.Outcome State Fault Refusal :=
  .next (respond (.kind (classify s.cfg code).1 (classify s.cfg code).2) s)

/-- ASSEMBLE leaves its result in `pl` (R243). -/
def storePl (bytes : List Byte) (s : State) : State := { s with pl := overlay s.pl bytes }

/-- ASSEMBLE (R243). -/
def execAssemble (type : PktType) (ctr : Byte) (address : DevAddr) (command : Byte) (extra : List Byte) (s : State) :
    Host.Outcome State Fault Refusal :=
  .next (respond (.bytes (assemble s.cfg type ctr address command extra))
    (storePl (assemble s.cfg type ctr address command extra) s))

end Sys2Proof.Machine
end

