-- ==== Sys2Proof/Machine/Receive.lean ====
section
/-! DEFINITION. The receive pipeline: RX_POLL and RX_GET (spec/44_receive.md), and the receive interrupt
(spec/60_exceptions.md R268). -/

namespace Sys2Proof.Machine

/-- Steps 4 to 6 on the destuffed, reversed bytes (R183, R192): the type and length of an accepted frame, none for a
rejected one. The length is tested before the CRC, which an Unknown type never reaches (R186). -/
def judge (cfg : Config.Params) (ds : List Byte) : Option (PktType × Nat) :=
  let tl := classify cfg (byteAt ds 1)
  if tl.2 = 0 ∨ tl.2 > Config.maxLen then none
  else
    match pktTypeOfDevice tl.1 with
    | none => none
    | some type =>
      if pktCrc (ds.take (tl.2 - 2)) type = halfOf (byteAt ds (tl.2 - 2)) (byteAt ds (tl.2 - 1)) then some (type, tl.2)
      else none

/-- Steps 2 and 3 (R183): the window goes to `raw`; destuffed, every byte reversed, it goes to `ds`. -/
def storeWindow (window : List Byte) (s : State) : State :=
  { s with
    raw := overlay s.raw window
    ds := overlay s.ds (revBuf (destuff (overlay s.raw window).bytes).1) }

/-- The chip frozen in Standby (R183 step 1, R185). -/
def freeze (s : State) : State := (setMode .standby s).2

/-- Steps 1 to 3 (R183, R185): freeze the chip, read the window, destuff it, reverse every byte. -/
def readWindow (s : State) : State :=
  storeWindow (fifoRd Config.maxFrame (freeze s)).1 (fifoRd Config.maxFrame (freeze s)).2

/-- RSSI_RD into `rssi` (R127, R183 steps 7 and 8). -/
def recordRssi (s : State) : State := { (rssiRd s).2 with rssi := (rssiRd s).1 }

/-- Step 7 of an accepted frame (R183): publish it. -/
def publish (type : PktType) (len : Nat) (s : State) : State :=
  recordRssi
    { s with rxState := .accepted, dec := overlay s.dec (s.ds.bytes.take len), decLen := len, decType := deviceOf type }

/-- The end of handling (R183): reception restarts, the signal strength is refreshed (step 8), the state is Idle. -/
def endHandling (s : State) : State := { recordRssi (setMode .receive s).2 with rxState := .idle }

/-- How one poll ends. -/
inductive PollEnd where
  /-- No frame was handled (R193). -/
  | nothing
  /-- A frame was accepted. -/
  | accepted
  /-- A frame was rejected: DecodeRejected (R262). -/
  | rejected
  deriving DecidableEq, Repr

/-- Handling (R183), from the state that R184 leaves. -/
def handle (s : State) : PollEnd × State :=
  match judge s.cfg (readWindow s).ds.bytes with
  | some (type, len) => (.accepted, endHandling (publish type len (readWindow s)))
  | none => (.rejected, endHandling { readWindow s with rxState := .rejected })

/-- What R184 writes when it starts to handle a frame. -/
def startHandling (s : State) : State := { s with rxFlag := false, rxState := .receiving }

/-- Observation (R184), the chip being in Receive. -/
def observe (s : State) : PollEnd × State :=
  if s.rxFlag then
    if (flagRd .payloadReady s).1 then handle (startHandling (flagRd .payloadReady s).2)
    else (.nothing, (flagRd .payloadReady s).2)
  else (.nothing, s)

/-- RX_POLL's own sequence (R181): re-arm (R182), else observe. -/
def poll (s : State) : PollEnd × State :=
  if s.chipMode = .receive then observe s else (.nothing, (setMode .receive s).2)

/-- The boolean of a poll (R181), with DecodeRejected recorded (R262). -/
def respondPoll : PollEnd → State → State
  | .nothing, s => respond (.bool false) s
  | .accepted, s => respond (.bool true) s
  | .rejected, s => raise .decodeRejected s

/-- RX_POLL (R181); refused before INIT (R298). -/
def execRxPoll (s : State) : Host.Outcome State Fault Refusal :=
  if s.initialized then .next (respondPoll (poll s).1 (poll s).2) else .refused .beforeInit

/-- RX_GET (R195). -/
def execRxGet (s : State) : Host.Outcome State Fault Refusal :=
  .next (respond (.packet (s.dec.bytes.take s.decLen) s.decLen s.decType s.rssi) s)

/-- IRQ_EDGE (R268): it writes `rx_flag` and nothing else. -/
def execIrqEdge (s : State) : Host.Outcome State Fault Refusal := .next (takeEdge s)

end Sys2Proof.Machine
end

