-- ==== Sys2Proof/Machine/Transmit.lean ====
section
/-! DEFINITION. The transmit pipeline (spec/45_transmit.md) and the host commands that use it, SEND, SEND_PKT and
LAST_GET (spec/46_assembly.md R246 to R250).

SEND's waits for FIFO headroom and for PacketSent have no bound (R219, R305). So SEND is a machine of its own over
`tx_phase`: `txTick` is one iteration of the loop it is in, and a SEND that the chip does not let end stays in
progress from one step to the next, for ever if need be (R305). -/

namespace Sys2Proof.Machine

/-! ### TX_PASS -/

/-- The packer's loop (R215): the bits of one repetition enter the accumulator one by one. Answers the completed
bytes, the accumulator and how many bits it holds. -/
def packFrom : Byte → Nat → List Bool → List Byte × Byte × Nat
  | acc, n, [] => ([], acc, n)
  | acc, n, b :: bs =>
    if n + 1 = 8 then (shiftIn acc b :: (packFrom 0 0 bs).1, (packFrom 0 0 bs).2)
    else packFrom (shiftIn acc b) (n + 1) bs

/-- The first `total` bits of the frame, the bits of one repetition (R97, R215). -/
def frameBits (s : State) : List Bool := (bits s.frame.bytes).take s.total.toNat

/-- FIFO_WR of one byte after another (R215). -/
def fifoWrEach : List Byte → State → State
  | [], s => s
  | b :: bs, s => fifoWrEach bs (fifoWr [b] s)

/-- The bytes one pass completes. -/
def passBytes (s : State) : List Byte := (packFrom s.acc s.accN (frameBits s)).1

/-- TX_PASS (R215). -/
def txPass (s : State) : State :=
  { fifoWrEach (passBytes s) s with
    acc := (packFrom s.acc s.accN (frameBits s)).2.1
    accN := (packFrom s.acc s.accN (frameBits s)).2.2 }

/-- TX_PASS (R215). Its result is the one its row of spec/opcode_table.json gives: "bytes written to the FIFO". -/
def execTxPass (s : State) : Host.Outcome State Fault Refusal :=
  .next (respond (.bytes (passBytes s)) (txPass s))

/-! ### SEND, phase by phase (R212) -/

/-- One iteration of the clear-channel wait (R213): at the limit, or on a clear channel, SEND goes on; else a poll is
made, its boolean discarded. -/
def ccaTick (s : State) : State :=
  if s.job.ccaLeft = 0 then { s with txPhase := .setup }
  else if (drawClear s).1 then { (drawClear s).2 with txPhase := .setup }
  else { (poll (drawClear s).2).2 with job := { s.job with ccaLeft := s.job.ccaLeft - 1 } }

/-- The frame, its bit count and the cleared packer (R212, TxSetup). The bit count is R212's formula also for L = 1 with
v from 1 to 7, where it is 9 to 15 and below the 16 of R21's table: DESIGN CHOICE (log entry 24). -/
def loadFrame (s : State) : State :=
  { s with
    frame := overlay s.frame (Config.sync :: s.job.payload)
    total := BitVec.ofNat 8 (totalBits s.job.payload.length s.job.v)
    acc := 0
    accN := 0
    rep := 0
    txActive := false }

/-- TxSetup (R212): Standby, the framing register unbounded, the frame built, the preamble pushed. -/
def setupTick (s : State) : State :=
  let standby := (setMode .standby s).2
  let loaded := loadFrame (regWr standby.cfg.aLen standby.cfg.lenUnbounded standby)
  { fifoWr [loaded.cfg.preamble0, loaded.cfg.preamble1] loaded with txPhase := .fill }

/-- The switch to Transmit, made at most once per SEND (R214). -/
def activate (s : State) : State :=
  if s.txActive then s else { (setMode .transmit s).2 with txActive := true }

/-- One iteration of the fill loop (R212, R214): FifoLevel is read once; set, nothing is written; clear, one pass. -/
def fillTick (s : State) : State :=
  if s.rep.toNat < Config.repeatCount then
    if (flagRd .fifoLevel s).1 then activate (flagRd .fifoLevel s).2
    else { txPass (flagRd .fifoLevel s).2 with rep := s.rep + 1 }
  else { s with txPhase := .waitSent }

/-- One test of the completion wait (R212, R221): "unbounded wait — no timeout". With `tx_active` 0 the chip was never
switched to Transmit, and the wait can never end (R219, R305 c, D23, U20). That PacketSent is still read there, and that
a draw of 1 changes nothing, is DEDUCED (log entry 23). -/
def waitTick (s : State) : State :=
  if (flagRd .packetSent s).1 && s.txActive then { (flagRd .packetSent s).2 with txPhase := .restore }
  else (flagRd .packetSent s).2

/-- The counter after a successful SEND_PKT: 255 wraps to 1 (R247). -/
def nextCounter (c : Byte) : Byte := if c = 255 then 1 else c + 1

/-- SEND returns true; a SEND_PKT that issued it moves the counter (R246, R247). -/
def finishSend (s : State) : State :=
  respond (.bool true) { s with txPhase := .off, counter := if s.job.fromPkt then nextCounter s.counter else s.counter }

/-- The snapshot of a completed SEND (R221, R250). -/
def snapshot (s : State) : State :=
  { s with
    lastSent := overlay s.lastSent (s.frame.bytes.take (1 + s.job.payload.length))
    lastSentLen := 1 + s.job.payload.length }

/-- TxRestore (R212): Standby, the framing register's default, the snapshot, the result. -/
def restoreTick (s : State) : State :=
  let standby := (setMode .standby s).2
  finishSend (snapshot (regWr standby.cfg.aLen standby.cfg.lenDefault standby))

/-- One iteration of the loop SEND is in. -/
def txTick (s : State) : State :=
  match s.txPhase with
  | .off => s
  | .cca => ccaTick s
  | .setup => setupTick s
  | .fill => fillTick s
  | .waitSent => waitTick s
  | .restore => restoreTick s

/-- SEND goes on: at least one iteration, and more while it is in progress and the state records chip answers, at most
`fuel` more (log entry 10). -/
def txRun : Nat → State → State
  | 0, s => txTick s
  | fuel + 1, s =>
    if (txTick s).txPhase = .off ∨ (txTick s).chipIn = [] then txTick s else txRun fuel (txTick s)

/-- SEND goes on for as long as the recorded answers last: every iteration but those of the clear-channel wait and two
more uses one up. -/
def resume (s : State) : State := txRun (s.chipIn.length + s.job.ccaLeft + 3) s

/-- SEND starts: its operands are read once (R46) and phase TxCca begins (R212). -/
def startSend (payload : List Byte) (v : Nat) (fromPkt : Bool) (s : State) : State :=
  respond .none { s with txPhase := .cca, job := ⟨payload, v, s.cfg.ccaLimit, fromPkt⟩ }

/-- SEND (R211): refused before INIT (R298) and for operands out of range (R102, U4). -/
def execSend (payload : List Byte) (v : Nat) (s : State) : Host.Outcome State Fault Refusal :=
  if s.initialized then
    if sendInRange payload v then .next (resume (startSend payload v false s)) else .refused .operandRange
  else .refused .beforeInit

/-! ### SEND_PKT and LAST_GET -/

/-- STUFF's output goes to `st` (R246). -/
def storeSt (bytes : List Byte) (s : State) : State := { s with st := overlay s.st bytes }

/-- The payload SEND_PKT assembles (R246): it carries the counter's value when the command starts (R247). -/
def packetPayload (type : PktType) (address : DevAddr) (command : Byte) (extra : List Byte) (s : State) : List Byte :=
  assemble s.cfg type s.counter address command extra

/-- SEND_PKT's last stages (R244, R246): STUFF's result in `st`, the pair (L, v), SEND. -/
def sendStuffed (payload : List Byte) (out : List Byte) (ins : Nat) (s : State) : State :=
  resume (startSend (out.take (stuffedSize payload.length ins).1) (stuffedSize payload.length ins).2 true
    (storeSt out (storePl payload s)))

/-- SEND_PKT of a recognised type (R246): assemble, reverse, stuff, send. -/
def sendPacket (type : PktType) (address : DevAddr) (command : Byte) (extra : List Byte) (s : State) :
    Host.Outcome State Fault Refusal :=
  match stuff (revBuf (packetPayload type address command extra s)) with
  | some r => .next (sendStuffed (packetPayload type address command extra s) r.1 r.2 s)
  | none => .refused .stuffOverflow

/-- SEND_PKT (R246): the type check comes first and needs no initialised chip (R263, R271). -/
def execSendPkt (deviceType : DeviceType) (address : DevAddr) (command : Byte) (extra : List Byte) (s : State) :
    Host.Outcome State Fault Refusal :=
  match pktTypeOfDevice deviceType with
  | none => .next (raise .callerInputError s)
  | some type => if s.initialized then sendPacket type address command extra s else .refused .beforeInit

/-- LAST_GET (R250). -/
def execLastGet (s : State) : Host.Outcome State Fault Refusal :=
  .next (respond (.snapshot (s.lastSent.bytes.take s.lastSentLen) s.lastSentLen) s)

end Sys2Proof.Machine
end

