-- ==== Sys2Proof/Machine/Dispatch.lean ====
section
/-! DEFINITION. What each operation does: one arm per constructor, each one call of its meaning. -/

namespace Sys2Proof.Machine

def exec (i : Instr) (s : State) : Host.Outcome State Fault Refusal :=
  match i with
  | .init => Sys2Proof.Machine.execInit s
  | .rxPoll => Sys2Proof.Machine.execRxPoll s
  | .rxGet => Sys2Proof.Machine.execRxGet s
  | .send payload v => Sys2Proof.Machine.execSend payload v s
  | .sendPkt deviceType address command extra => Sys2Proof.Machine.execSendPkt deviceType address command extra s
  | .lastGet => Sys2Proof.Machine.execLastGet s
  | .destuff input => Sys2Proof.Machine.execDestuff input s
  | .stuff input => Sys2Proof.Machine.execStuff input s
  | .crcStep crc c => Sys2Proof.Machine.execCrcStep crc c s
  | .pktCrc data type => Sys2Proof.Machine.execPktCrc data type s
  | .rev8 b => Sys2Proof.Machine.execRev8 b s
  | .revBuf bytes => Sys2Proof.Machine.execRevBuf bytes s
  | .classify code => Sys2Proof.Machine.execClassify code s
  | .assemble type ctr address command extra => Sys2Proof.Machine.execAssemble type ctr address command extra s
  | .txPass => Sys2Proof.Machine.execTxPass s
  | .regWr addr val => Sys2Proof.Machine.execRegWr addr val s
  | .regRd addr => Sys2Proof.Machine.execRegRd addr s
  | .fifoWr bytes => Sys2Proof.Machine.execFifoWr bytes s
  | .fifoRd n => Sys2Proof.Machine.execFifoRd n s
  | .setMode m => Sys2Proof.Machine.execSetMode m s
  | .flagRd f => Sys2Proof.Machine.execFlagRd f s
  | .irqEdge => Sys2Proof.Machine.execIrqEdge s
  | .busWrite addr => Sys2Proof.Machine.execBusWrite addr s
  | .busRead addr => Sys2Proof.Machine.execBusRead addr s

end Sys2Proof.Machine
end

