-- ==== Sys2Proof/Machine/Fetch.lean ====
section
/-! DEFINITION. Which operation is asked of the block next (spec/10_state.md R20, R31, spec/30_encoding.md R99,
spec/70_reset_and_hazards.md R299, R312). The block "has no program counter, no instruction memory and no fetch"
(R31); `moves` is the record of what its agents ask, in order (log entry 8). -/

namespace Sys2Proof.Machine

/-- The encoding a port's bytes are in. -/
def portFormat : Port → Format
  | .host | .signal | .internal => .operation
  | .bus => .busByte

/-- Only the six host commands can be issued from outside (R99). -/
def isHostCommand : Instr → Bool
  | .init | .rxPoll | .rxGet | .send _ _ | .sendPkt _ _ _ _ | .lastGet => true
  | .destuff _ | .stuff _ | .crcStep _ _ | .pktCrc _ _ | .rev8 _ | .revBuf _ | .classify _ | .assemble _ _ _ _ _
  | .txPass | .regWr _ _ | .regRd _ | .fifoWr _ | .fifoRd _ | .setMode _ | .flagRd _ | .irqEdge | .busWrite _
  | .busRead _ => false

/-- What a port may ask for (R99, R120): the host its commands, the receive signal its edge, the block itself every
operation but the edge, the bus its address bytes. -/
def portAdmits : Port → Instr → Bool
  | .host, i => isHostCommand i
  | .signal, i => i == .irqEdge
  | .internal, i => i.format == .operation && i != .irqEdge
  | .bus, i => i.format == .busByte

/-- What there is to do. -/
inductive Fetched where
  /-- Nobody asks for anything. -/
  | idle
  /-- What is asked has no meaning. -/
  | refused (r : Refusal)
  /-- An operation to run, and the moves after it. -/
  | run (i : Instr) (rest : List Move)
  deriving DecidableEq, Repr

/-- The moves left when the bytes `rest` of a port's move are still to do. -/
def restMoves (port : Port) (rest : List Byte) (ms : List Move) : List Move :=
  if rest = [] then ms else ⟨port, rest⟩ :: ms

/-- The next operation. -/
def fetch (s : State) : Fetched :=
  match s.moves with
  | [] => .idle
  | m :: ms =>
    match decode (portFormat m.port) s.cfg.rwWrite m.bytes with
    | .error e => .refused (.undecodable e)
    | .ok (i, rest) => if portAdmits m.port i then .run i (restMoves m.port rest ms) else .refused .notIssuable

/-- The operation asked next is taken from the moves. -/
def withMoves (rest : List Move) (s : State) : State := { s with moves := rest }

/-- The port that can ask for a table word: the host for its commands, the signal for its edge, the bus for an address
byte, else the block itself. -/
def wordPort (w : Nat) : Port :=
  match wordFormat w with
  | .busByte => .bus
  | .operation => if w % 256 < 6 then .host else if w % 256 = 0x1F then .signal else .internal

end Sys2Proof.Machine
end

