-- ==== Sys2Proof/Machine/Step.lean ====
section
/-! DEFINITION. One step of the machine. -/

namespace Sys2Proof.Machine

/-- One step. A SEND in progress goes on, and no other operation starts (R20, R299), but the handler may run between
any two mainline steps (R75). With the mainline at rest the operation asked next runs; if none is asked nothing
changes (R292, R312). -/
def step (s : State) : Host.Outcome State Fault Refusal :=
  match s.txPhase, fetch s with
  | .off, .idle => .next s
  | .off, .refused r => .refused r
  | .off, .run i rest => exec i (withMoves rest s)
  | _, .run .irqEdge rest => exec .irqEdge (withMoves rest s)
  | _, _ => .next (resume s)

/-- `s` with the table word `w`, and operand bytes of 0 after it, asked next at the port that can ask for it, the
mainline being at rest (log entry 8). -/
def State.withFetchWord (s : State) (nbits w : Nat) : State :=
  { s with txPhase := .off, moves := ⟨wordPort w, wordBytes nbits w⟩ :: s.moves }

end Sys2Proof.Machine
end

