-- ==== Sys2Proof/Safety.lean ====
section
/-! DEFINITION. What counts as a good state and a good run, in the terms the statements use: the mainline at rest, the
invariant that every step keeps, which fields chip traffic may move, the clear-channel wait as a run of RX_POLLs, the
chip answers under which a SEND completes and the bus bytes that go with them, and the pseudocode of the destuffer and of
the stuffer. -/

namespace Sys2Proof.Machine

/-- The mainline is at rest (R31). -/
def AtRest (s : State) : Prop := s.rxState = .idle ∧ s.txPhase = .off

/-- The widths and ranges the spec gives the fields (R21, R33), and what holds between fields at every step's end. -/
structure Inv (s : State) : Prop where
  /-- The parameters meet the constraints of R9. -/
  params : s.cfg.Ok
  /-- The chip's registers are in canonical form. -/
  chipRegs : s.chipRegs.wf = true
  /-- `counter` is 1 to 255 (R21, R23). -/
  counter : s.counter ≠ 0
  /-- `acc_n` is 0 to 7 (R21). -/
  accN : s.accN ≤ 7
  /-- `total` is at most 88 (R10, R21). R21's lower bound, 16, is left out: R212's formula goes below it (log entry 24). -/
  total : s.total.toNat ≤ 88
  /-- `dec_type` and `dec_len` belong together (R22, R91). -/
  packet : (s.decType = .unknown ∧ s.decLen = 0) ∨ ∃ type, s.decType = deviceOf type ∧ s.decLen = typeLen type
  /-- `last_sent_len` is at most 11 (R21). -/
  lastSent : s.lastSentLen ≤ 11
  /-- `rep` is at most REPEAT (R33). -/
  rep : s.rep.toNat ≤ Config.repeatCount
  /-- "the host can observe only Idle" (R32). -/
  rxState : s.rxState = .idle
  /-- INIT sets both at once, and neither is ever cleared (R35, R36, R129). -/
  armed : s.initialized = s.irqArmed
  /-- Only an armed signal sets `rx_flag` (R34, R268). -/
  rxFlag : s.rxFlag = true → s.irqArmed = true
  /-- A SEND in progress was issued after INIT (R298), with operands in range (R211). -/
  busy : s.txPhase ≠ .off → s.initialized = true ∧ sendInRange s.job.payload s.job.v = true

/-- From `s` to `t` only chip traffic happened: draws were made, bytes crossed the bus, the chip's registers and FIFO
took writes, the handler may have run; nothing else of the block moved. -/
structure ChipTraffic (s t : State) : Prop where
  /-- Every other field is as it was. -/
  frame : t = { s with
    chipIn := t.chipIn, drawn := t.drawn, bus := t.bus, chipRegs := t.chipRegs, fifoOut := t.fifoOut,
    rxFlag := t.rxFlag }
  /-- The handler only sets `rx_flag` (R34). -/
  flagKept : s.rxFlag = true → t.rxFlag = true
  /-- It sets it only if the signal is armed (R268). -/
  flagSet : t.rxFlag = true → s.rxFlag = true ∨ s.irqArmed = true
  /-- The chip's registers keep their canonical form. -/
  regsKept : s.chipRegs.wf = true → t.chipRegs.wf = true

/-- From `s` to `t` the chip registers other than the ones listed kept what was last written to them. -/
def RegsKeptOutside (addrs : List ChipAddr) (s t : State) : Prop :=
  ∀ b : Nat, (∀ a ∈ addrs, b ≠ a.toNat) → t.chipRegs.read b = s.chipRegs.read b

/-- The chip answer has this flag set (R126). -/
def flagSet (cfg : Config.Params) (f : ChipFlag) (a : Config.ChipAnswer) : Bool := flagBit (flagLoc cfg f) a.byte

/-- The `n` chip answers drawn next: the recorded ones in order, then the free value of each draw's number (R66; log entry
3). -/
def answersFrom (s : State) (n : Nat) : List Config.ChipAnswer :=
  (List.range n).map (fun k => s.chipIn.getD k (Config.chipAnswer (s.drawn + k)))

/-- From `s` to `t` exactly these chip answers were drawn, the first one first. -/
structure Drew (answers : List Config.ChipAnswer) (s t : State) : Prop where
  /-- They are the next ones. -/
  next : answers = answersFrom s answers.length
  /-- The recorded ones among them are used up. -/
  chipIn : t.chipIn = s.chipIn.drop answers.length
  /-- Each is counted. -/
  drawn : t.drawn = s.drawn + answers.length

/-- Some answer came with an edge of the receive signal (R266). -/
def anyEdge (answers : List Config.ChipAnswer) : Bool := answers.any (fun a => a.edge)

/-- The bits of one repetition of the frame of `SEND(payload, L, v)`: SYNC, then the payload's valid bits (R94, R95). -/
def repetitionBits (payload : List Byte) (v : Nat) : List Bool :=
  (bits (Config.sync :: payload)).take (totalBits payload.length v)

/-- The bits a partly filled accumulator holds, the oldest first: its lowest `n` bits (R215). -/
def heldBits (acc : Byte) (n : Nat) : List Bool := (byteBits acc).drop (8 - n)

/-- The bus bytes of FIFO_WR (R123): the address byte that selects the FIFO for writing, then the bytes. -/
def fifoWireBytes (cfg : Config.Params) (bytes : List Byte) : List Wire :=
  .out (busAddrByte cfg.rwWrite true cfg.aFifo) :: bytes.map .out

/-- The bus bytes of REG_WR (R121). -/
def regWrWire (cfg : Config.Params) (addr : ChipAddr) (val : Byte) : List Wire :=
  [.out (busAddrByte cfg.rwWrite true addr), .out val]

/-- The bus bytes of REG_RD (R122), the chip answering `val`. -/
def regRdWire (cfg : Config.Params) (addr : ChipAddr) (val : Byte) : List Wire :=
  [.out (busAddrByte cfg.rwWrite false addr), .inp val]

/-! ### A mode change on the bus (R125) -/

/-- The polls of ModeReady that one SET_MODE makes, and its result: every poll but the last reads 0, the last one reads
the result, and only MODE_READY_TIMEOUT polls that read 0 make it false. The first poll is always made. -/
structure ModePolls (cfg : Config.Params) (polls : List Byte) (ready : Bool) : Prop where
  /-- At least one poll. -/
  some : polls ≠ []
  /-- ModeReady is not seen before the last poll. -/
  notYet : ∀ b ∈ polls.dropLast, flagBit cfg.modeReady b = false
  /-- The last poll decides. -/
  last : ∀ b, polls.getLast? = .some b → flagBit cfg.modeReady b = ready
  /-- The bound. -/
  bound : polls.length ≤ max 1 cfg.modeReadyTimeout
  /-- A wait that gives up has used its bound up. -/
  timeout : ready = false → polls.length = max 1 cfg.modeReadyTimeout

/-- The bus bytes of SET_MODE: the byte `value` written at A_MODE, then the polls of ModeReady. -/
def setModeWire (cfg : Config.Params) (value : Byte) (polls : List Byte) : List Wire :=
  regWrWire cfg cfg.aMode value ++ polls.flatMap (regRdWire cfg cfg.modeReady.addr)

/-! ### The clear-channel wait (R213) -/

/-- A ChannelClear draw made: the draw is used up, and an edge that came before it ran the handler. -/
def afterClearDraw (s : State) : State :=
  { s with clearIn := s.clearIn.tail, drawn := s.drawn + 1, rxFlag := s.rxFlag || ((nextClear s).edge && s.irqArmed) }

/-- `n` iterations of the wait on a channel that is not clear: each is a draw that says so and a whole RX_POLL. -/
inductive ChannelPolls : Nat → State → State → Prop
  /-- No iteration. -/
  | none (s : State) : ChannelPolls 0 s s
  /-- One iteration, and the ones after it. -/
  | busy {n : Nat} {s v w : State} : (nextClear s).clear = false → exec .rxPoll (afterClearDraw s) = .next v →
      ChannelPolls n v w → ChannelPolls (n + 1) s w

/-- The whole wait from `s`, of at most `limit` iterations, ends in the second state: at the limit, or at the first draw
that says the channel is clear. -/
inductive ChannelWait (limit : Nat) (s : State) : State → Prop
  /-- The limit is reached: no draw is made any more. -/
  | limit {w : State} : ChannelPolls limit s w → ChannelWait limit s w
  /-- The channel is clear before that. -/
  | clear {n : Nat} {w : State} : n < limit → ChannelPolls n s w → (nextClear w).clear = true →
      ChannelWait limit s (afterClearDraw w)

/-- The decoded packet of `t` was published by an RX_POLL that returned true, inside the clear-channel wait that `s`
begins with at most `limit` iterations. -/
def PublishedInWait (limit : Nat) (s t : State) : Prop :=
  ∃ (n : Nat) (w v : State), n < limit ∧ ChannelPolls n s w ∧ (nextClear w).clear = false ∧
    exec .rxPoll (afterClearDraw w) = .next v ∧ v.ret = .bool true ∧
    t.dec = v.dec ∧ t.decLen = v.decLen ∧ t.decType = v.decType

/-! ### A SEND that completes (R212) -/

/-- What the chip answers one SEND after the clear-channel wait, in the order the answers are drawn. -/
structure SendCourse where
  /-- The polls of ModeReady as Standby is commanded. -/
  standby : List Config.ChipAnswer
  /-- The checks of FifoLevel before it is first seen set. -/
  early : List Config.ChipAnswer
  /-- The check that first sees FifoLevel set. -/
  full : Config.ChipAnswer
  /-- The polls of ModeReady as Transmit is commanded. -/
  transmit : List Config.ChipAnswer
  /-- The checks of FifoLevel after the switch. -/
  late : List Config.ChipAnswer
  /-- The tests of PacketSent that read 0. -/
  unsent : List Config.ChipAnswer
  /-- The test that reads 1. -/
  sent : Config.ChipAnswer
  /-- The polls of ModeReady as Standby is commanded again. -/
  restored : List Config.ChipAnswer
  deriving DecidableEq, Repr

/-- All answers, the first drawn first. -/
def SendCourse.answers (c : SendCourse) : List Config.ChipAnswer :=
  c.standby ++ (c.early ++ (c.full :: c.transmit ++ (c.late ++ (c.unsent ++ c.sent :: c.restored))))

/-- The bytes of some answers. -/
def answerBytes (answers : List Config.ChipAnswer) : List Byte := answers.map (fun a => a.byte)

/-- How many of some checks let a pass through: FifoLevel clear (R214). -/
def passCount (cfg : Config.Params) (checks : List Config.ChipAnswer) : Nat :=
  (checks.filter (fun a => !flagSet cfg .fifoLevel a)).length

/-- The answers are those of a SEND that completes: FifoLevel is seen set while a pass is still to be made (R305 c, D23).
Mode waits may take any number of polls and may time out. -/
structure SendCourse.Ok (cfg : Config.Params) (c : SendCourse) : Prop where
  /-- Standby's wait ends. -/
  standby : ∃ ready, ModePolls cfg (answerBytes c.standby) ready
  /-- FifoLevel is clear at first. -/
  early : ∀ a ∈ c.early, flagSet cfg .fifoLevel a = false
  /-- At the switch FifoLevel is set. -/
  full : flagSet cfg .fifoLevel c.full = true
  /-- Transmit's wait ends. -/
  transmit : ∃ ready, ModePolls cfg (answerBytes c.transmit) ready
  /-- A pass is still to be made. -/
  late : c.late ≠ []
  /-- REPEAT passes are made. -/
  passes : c.early.length + passCount cfg c.late = Config.repeatCount
  /-- The last check lets the last pass through. -/
  lastPass : ∀ a, c.late.getLast? = some a → flagSet cfg .fifoLevel a = false
  /-- PacketSent is not seen yet. -/
  unsent : ∀ a ∈ c.unsent, flagSet cfg .packetSent a = false
  /-- PacketSent is seen. -/
  sent : flagSet cfg .packetSent c.sent = true
  /-- Standby's wait ends. -/
  restored : ∃ ready, ModePolls cfg (answerBytes c.restored) ready

/-- The FIFO stream of `SEND(payload, L, v)` after the preamble: REPEAT repetitions end to end, cut into bytes (R97). -/
def sendStream (payload : List Byte) (v : Nat) : List Byte :=
  packBits (List.replicate Config.repeatCount (repetitionBits payload v)).flatten

/-- The bytes of the stream that pass number `r` completes, the passes numbered from 0 and `total` bits long (R216). -/
def passChunk (stream : List Byte) (total r : Nat) : List Byte :=
  (stream.take ((r + 1) * total / 8)).drop (r * total / 8)

/-- The bus bytes of the checks of FifoLevel and of the passes they let through, pass number `r` the first of them: one
FIFO_WR for each byte (log entry 6). -/
def fillWire (cfg : Config.Params) (chunk : Nat → List Byte) : Nat → List Config.ChipAnswer → List Wire
  | _, [] => []
  | r, a :: checks =>
    regRdWire cfg cfg.fifoLevel.addr a.byte ++
      if flagSet cfg .fifoLevel a then fillWire cfg chunk r checks
      else (chunk r).flatMap (fun b => fifoWireBytes cfg [b]) ++ fillWire cfg chunk (r + 1) checks

/-- The bus bytes of the switch to Transmit, at the first check that sees FifoLevel set (R214). -/
def switchWire (cfg : Config.Params) (c : SendCourse) : List Wire :=
  regRdWire cfg cfg.fifoLevel.addr c.full.byte ++ setModeWire cfg cfg.modeTransmit (answerBytes c.transmit)

/-- The bus bytes of TxSetup (R212). -/
def setupWire (cfg : Config.Params) (standby : List Config.ChipAnswer) : List Wire :=
  setModeWire cfg cfg.modeStandby (answerBytes standby) ++ regWrWire cfg cfg.aLen cfg.lenUnbounded ++
    fifoWireBytes cfg [cfg.preamble0, cfg.preamble1]

/-- The bus bytes of some checks of FifoLevel that let no pass through. -/
def headroomWire (cfg : Config.Params) (checks : List Config.ChipAnswer) : List Wire :=
  checks.flatMap (fun a => regRdWire cfg cfg.fifoLevel.addr a.byte)

/-- The bus bytes of some tests of PacketSent. -/
def sentWire (cfg : Config.Params) (tests : List Config.ChipAnswer) : List Wire :=
  tests.flatMap (fun a => regRdWire cfg cfg.packetSent.addr a.byte)

/-- The bus bytes of SEND after the clear-channel wait, in the order of R212. -/
def sendWire (cfg : Config.Params) (payload : List Byte) (v : Nat) (c : SendCourse) : List Wire :=
  let chunk := passChunk (sendStream payload v) (totalBits payload.length v)
  setupWire cfg c.standby ++
  fillWire cfg chunk 0 c.early ++ switchWire cfg c ++ fillWire cfg chunk c.early.length c.late ++
  sentWire cfg (c.unsent ++ [c.sent]) ++
  setModeWire cfg cfg.modeStandby (answerBytes c.restored) ++
  regWrWire cfg cfg.aLen cfg.lenDefault

/-! ### The destuffer as R142 writes it -/

/-- What R142's loop holds: the bits written, `run`, `drop` and `skip`. -/
structure DestuffLoop where
  /-- The bits written to `out` so far, `k` of them. -/
  out : List Bool
  /-- `run`. -/
  run : Nat
  /-- `drop`. -/
  drop : Nat
  /-- `skip`. -/
  skip : Bool
  deriving DecidableEq, Repr

/-- One iteration of R142's loop on the input bit `b`, `cap` being the output's capacity in bits. -/
def DestuffLoop.next (cap : Nat) (p : DestuffLoop) (b : Bool) : DestuffLoop :=
  if p.out.length = cap then p
  else if p.skip then { p with run := 0, drop := p.drop + 1, skip := false }
  else if b then { p with out := p.out ++ [b], run := p.run + 1, skip := p.run + 1 = 5 }
  else { p with out := p.out ++ [b], run := 0 }

/-- R142's loop over an input stream. -/
def destuffLoop (cap : Nat) (input : List Bool) : DestuffLoop := input.foldl (DestuffLoop.next cap) ⟨[], 0, 0, false⟩

/-! ### The stuffer as R147 writes it -/

/-- What R147's loop holds: the bits written, `run` and `ins`. -/
structure StuffLoop where
  /-- The bits written to `out` so far, `k` of them. -/
  out : List Bool
  /-- `run`. -/
  run : Nat
  /-- `ins`. -/
  ins : Nat
  deriving DecidableEq, Repr

/-- One iteration of R147's loop on the input bit `b`; none where it refuses StuffOverflow. -/
def StuffLoop.next (p : StuffLoop) (b : Bool) : Option StuffLoop :=
  if b then
    if p.run + 1 = 5 then
      if p.ins = 8 then none else some { out := p.out ++ [b, false], run := 0, ins := p.ins + 1 }
    else some { p with out := p.out ++ [b], run := p.run + 1 }
  else some { p with out := p.out ++ [b], run := 0 }

/-- R147's loop over an input stream. -/
def stuffLoop (input : List Bool) : Option StuffLoop := input.foldlM StuffLoop.next ⟨[], 0, 0⟩

end Sys2Proof.Machine
end

