-- ==== Sys2Proof/Certificates/Slice0/Obligations.lean ====
section
/-! DEFINITION. What the provers are asked to prove: statements about the block, from the numbered rules of spec/.

A statement that gives an operation's result is its completion statement too: its conclusion is an equation
`exec i s = .next …`, whose right side names every field that moves, so that the rest is unchanged. -/

open Sys2Proof Sys2Proof.Machine

/-! ### Encodings -/

/-- Decoding what the encoder writes gives the operation back and leaves the bytes after it, for every well-formed
operation and either polarity of RW_WRITE. The operand layout is the model's (log entry 4); the codes are R99's and
the address byte R96's. -/
def Obligations.DecodeInvertsEncode : Prop :=
  ∀ (rwWrite : Bool) (i : Instr) (rest : List Byte), i.wf = true →
    decode i.format rwWrite (encode rwWrite i ++ rest) = .ok (i, rest)

/-- A few words of the opcode table decode to the operations they stand for. The operation codes and the bus address bytes
are written out from R99 and R96. The operand bytes of 0x051C, 0x021C and 0x0A3818 are the model's own layout (log
entry 4), and reading 0x38 as a bus byte, a first byte below 0x20 as an operation, is the model's choice (log entry 5). -/
def Obligations.TableWordsDecode : Prop :=
  decodeTableWord 8 0x01 = some .rxPoll ∧ decodeTableWord 8 0x02 = some .rxGet ∧
  decodeTableWord 8 0x05 = some .lastGet ∧ decodeTableWord 8 0x10 = some .txPass ∧
  decodeTableWord 8 0x1F = some .irqEdge ∧ decodeTableWord 16 0x051C = none ∧
  decodeTableWord 16 0x021C = some (.setMode .transmit) ∧ decodeTableWord 24 0x0A3818 = some (.regWr 0x38 0x0A) ∧
  decodeTableWord 8 0xB8 = some (.busWrite 0x38) ∧ decodeTableWord 8 0x38 = some (.busRead 0x38)

/-- R102 and R263: an unrecognised device type makes SEND_PKT return false with no transmission and no other change;
SEND with `v > 8`, `L = 0` or `L > 10` is refused; a decoder refuses every unassigned operation code. The refusals and
the codes are the spec's own choice (its decisions D2 and D8). -/
def Obligations.IllegalHostEncodingsHaveNoEffect : Prop :=
  (∀ (a : DevAddr) (c : Byte) (extra : List Byte) (s : State),
    exec (.sendPkt .unknown a c extra) s = .next { s with ret := .bool false, cond := some .callerInputError }) ∧
  (∀ (p : List Byte) (v : Nat) (s : State), (v > 8 ∨ p.length = 0 ∨ p.length > 10) →
    ∃ r, exec (.send p v) s = .refused r) ∧
  (∀ op ∈ ([0x06, 0x07, 0x11, 0x12, 0x13, 0x14, 0x15, 0x16, 0x17, 0x1E] : List Byte), ∀ rest : List Byte,
    decodeOperation (op :: rest) = .error (.unassigned op))

/-- R96: the byte that opens a write has RW_WRITE in bit 7 and the address in bits 6 to 0; the byte that opens a read has the
complement in bit 7. That a bare address byte goes out on the bus and that nothing else moves is the model's deduction
(log entry 21): R96 gives the byte only. -/
def Obligations.BusAddressByteFields : Prop :=
  ∀ (a : ChipAddr) (s : State), ∃ w r : Byte,
    exec (.busWrite a) s = .next { s with bus := s.bus ++ [.out w], ret := .none, cond := none } ∧
    exec (.busRead a) s = .next { s with bus := s.bus ++ [.out r], ret := .none, cond := none } ∧
    w.getLsbD 7 = s.cfg.rwWrite ∧ r.getLsbD 7 = !s.cfg.rwWrite ∧
    ∀ i, i < 7 → w.getLsbD i = a.getLsbD i ∧ r.getLsbD i = a.getLsbD i

/-! ### Byte reversal -/

/-- R176: bit `i` of REV8's result is bit `7 - i` of its operand. -/
def Obligations.Rev8MirrorsBits : Prop :=
  ∀ (b : Byte) (s : State), ∃ r : Byte,
    exec (.rev8 b) s = .next { s with ret := .byte r, cond := none } ∧ ∀ i, i < 8 → r.getLsbD i = b.getLsbD (7 - i)

/-- R178 and R177: REVBUF reverses each byte and keeps the order of the bytes, and is its own inverse. -/
def Obligations.RevBufMirrorsEachByte : Prop :=
  ∀ (bytes : List Byte) (s : State), ∃ out : List Byte,
    exec (.revBuf bytes) s = .next { s with ret := .bytes out, cond := none } ∧
    exec (.revBuf out) s = .next { s with ret := .bytes bytes, cond := none } ∧ out.length = bytes.length ∧
    ∀ k, k < bytes.length → ∀ i, i < 8 → (byteAt out k).getLsbD i = (byteAt bytes k).getLsbD (7 - i)

/-! ### The CRC engine -/

/-- R161: CRC_STEP is eight iterations of the bit step, the byte moving right by one bit in each. -/
def Obligations.CrcStepIsEightBitSteps : Prop :=
  ∀ (crc : Half) (c : Byte) (s : State),
    exec (.crcStep crc c) s = .next { s with
      ret := .half ((fun p : Half × Byte =>
        (if (p.1 ^^^ p.2.zeroExtend 16) &&& 1 = 1 then (p.1 >>> 1) ^^^ 0x8408 else p.1 >>> 1, p.2 >>> 1))^[8]
          (crc, c)).1
      cond := none }

/-- R162: only `crc XOR c` in the low byte matters (the spec's inference from R161), and the corner values. -/
def Obligations.CrcStepCornerCases : Prop :=
  ∀ s : State,
    (∀ (crc : Half) (c : Byte), exec (.crcStep crc c) s = exec (.crcStep (crc ^^^ c.zeroExtend 16) 0) s) ∧
    exec (.crcStep 0x0000 0x00) s = .next { s with ret := .half 0x0000, cond := none } ∧
    exec (.crcStep 0x0000 0x01) s = .next { s with ret := .half 0x1189, cond := none } ∧
    exec (.crcStep 0x0001 0x00) s = .next { s with ret := .half 0x1189, cond := none } ∧
    exec (.crcStep 0x0000 0x80) s = .next { s with ret := .half 0x8408, cond := none } ∧
    exec (.crcStep 0xFFFF 0x00) s = .next { s with ret := .half 0x0F87, cond := none } ∧
    exec (.crcStep 0xFFFF 0xFF) s = .next { s with ret := .half 0x00FF, cond := none }

/-- R163 and R164: PKT_CRC folds SYNC and then the data into the type's seed, and returns the register with its two
bytes swapped. -/
def Obligations.PktCrcFoldsAndSwaps : Prop :=
  ∀ (data : List Byte) (type : PktType) (s : State), ∃ r : Half,
    exec (.pktCrc data type) s = .next { s with ret := .half r, cond := none } ∧
    hiByte r = loByte ((0x7E :: data).foldl crcStep (match type with | .windowSensor => 0xBDB7 | .remoteControl => 0xC11F)) ∧
    loByte r = hiByte ((0x7E :: data).foldl crcStep (match type with | .windowSensor => 0xBDB7 | .remoteControl => 0xC11F))

/-- R168: the CRC is a function of the data and the type alone; changing one byte of the data, in one bit or in
several, changes the result; and the rule's example. -/
def Obligations.CrcDetectsAnyByteChange : Prop :=
  (∀ (data : List Byte) (type : PktType), ∃ r : Half, ∀ s : State,
    exec (.pktCrc data type) s = .next { s with ret := .half r, cond := none }) ∧
  (∀ (before after : List Byte) (b b' : Byte) (type : PktType) (s : State), b ≠ b' →
    exec (.pktCrc (before ++ b :: after) type) s ≠ exec (.pktCrc (before ++ b' :: after) type) s) ∧
  (∀ s : State, exec (.pktCrc [0xA1, 0x20, 0x01, 0x4F, 0x5E, 0x41] .windowSensor) s =
    .next { s with ret := .half 0x9759, cond := none })

/-! ### The packet -/

/-- R241: CLASSIFY's table. The RemoteControl line needs the constraint of R9 that DT_RC differs from DT_WS. -/
def Obligations.ClassifyTable : Prop :=
  ∀ s : State,
    exec (.classify 0x20) s = .next { s with ret := .kind .windowSensor 8, cond := none } ∧
    (s.cfg.dtRc ≠ 0x20 →
      exec (.classify s.cfg.dtRc) s = .next { s with ret := .kind .remoteControl 9, cond := none }) ∧
    ∀ code : Byte, code ≠ 0x20 → code ≠ s.cfg.dtRc →
      exec (.classify code) s = .next { s with ret := .kind .unknown 0, cond := none }

/-- R243 and R90: the bytes ASSEMBLE lays out for each type, the CRC high byte first. A missing extra byte is 0 and surplus
bytes are ignored by the spec's decision D14; that `pl` keeps its bytes past the packet is the model's choice (log
entry 18). -/
def Obligations.AssembleLaysOutThePacket : Prop :=
  ∀ (type : PktType) (ctr : Byte) (a : DevAddr) (command : Byte) (extra : List Byte) (s : State),
    ∃ (front : List Byte) (c : Half) (pl : Buf 9),
      exec (.assemble type ctr a command extra) s =
        .next { s with pl := pl, ret := .bytes (front ++ [hiByte c, loByte c]), cond := none } ∧
      front = (match type with
        | .windowSensor => [ctr, 0x20, a.extractLsb 23 16, a.extractLsb 15 8, a.extractLsb 7 0, command]
        | .remoteControl =>
          [ctr, s.cfg.dtRc, a.extractLsb 23 16, a.extractLsb 15 8, a.extractLsb 7 0, command, extra.headD 0]) ∧
      c = pktCrc front type ∧
      pl.bytes = front ++ [hiByte c, loByte c] ++ s.pl.bytes.drop (front.length + 2)

/-- R95: the (L, v) assembly and the bit count of the frame agree with `8 + 8 x N + ic` for every `ic` from 0 to 8. -/
def Obligations.FrameBitCount : Prop :=
  ∀ n ins : Nat, ins ≤ 8 →
    totalBits (stuffedSize n ins).1 (stuffedSize n ins).2 = 8 + 8 * n + ins ∧
    stuffedSize n ins = if ins = 0 then (n, 0) else (n + 1, ins)

/-! ### Stuffing and destuffing -/

/-- R147 to R149: STUFF of 1 to 10 bytes completes where R147's loop does, giving one byte more: the bits the loop writes,
8 N + `ins` of them, and 0 bits after them; its insertion count is the loop's, at most 8. Where a ninth insertion is due it
is refused (the spec's decision D7). The example of R147 and those of R148 c, d and e. -/
def Obligations.StuffCompletesUpToEightInsertions : Prop :=
  (∀ (B : List Byte) (s : State) (p : StuffLoop), 1 ≤ B.length → B.length ≤ 10 → stuffLoop (bits B) = some p →
    p.ins ≤ 8 ∧ p.out.length = 8 * B.length + p.ins ∧ ∃ out : List Byte,
      exec (.stuff B) s = .next { s with ret := .stuffed out p.ins, cond := none } ∧ out.length = B.length + 1 ∧
      bits out = p.out ++ List.replicate (8 - p.ins) false) ∧
  (∀ (B : List Byte) (s : State), 1 ≤ B.length → B.length ≤ 10 → stuffLoop (bits B) = none →
    exec (.stuff B) s = .refused .stuffOverflow) ∧
  ∀ s : State,
    exec (.stuff [0xFF]) s = .next { s with ret := .stuffed [0xFB, 0x80] 1, cond := none } ∧
    exec (.stuff [0x1F]) s = .next { s with ret := .stuffed [0x1F, 0x00] 1, cond := none } ∧
    exec (.stuff [0x0F, 0x80]) s = .next { s with ret := .stuffed [0x0F, 0x80, 0x00] 1, cond := none } ∧
    exec (.stuff [0xFF, 0xFF]) s = .next { s with ret := .stuffed [0xFB, 0xEF, 0xA0] 3, cond := none }

/-- R149: an input of at most 5 bytes never needs a ninth insertion, so STUFF of it always completes. -/
def Obligations.ShortInputsAlwaysStuff : Prop :=
  ∀ (B : List Byte) (s : State), 1 ≤ B.length → B.length ≤ 5 →
    ∃ (out : List Byte) (ins : Nat), ins ≤ 8 ∧
      exec (.stuff B) s = .next { s with ret := .stuffed out ins, cond := none }

/-- R150: DESTUFF undoes STUFF, and how many bits it drops; with no insertion and the frame length taken as N, the last
byte is lost to the length rule. The last input bit triggers the last insertion exactly if the stream without it
needs fewer. The spec marks the rule as its inference from R142 and R147. -/
def Obligations.DestuffInvertsStuff : Prop :=
  ∀ (B S : List Byte) (ins : Nat) (s : State), 1 ≤ B.length → B.length ≤ 10 →
    exec (.stuff B) s = .next { s with ret := .stuffed S ins, cond := none } →
      (∃ p : StuffLoop, stuffLoop (bits B).dropLast = some p ∧ exec (.destuff S) s = .next { s with
        ret := .stuffed B (if p.ins < ins then ins - 1 else ins), cond := none }) ∧
      (ins = 0 → ∃ drop : Nat, exec (.destuff (S.take B.length)) s =
        .next { s with ret := .stuffed B.dropLast drop, cond := none })

/-- R151: STUFF's stream never has six ones in a row, the bits after it are 0, and no run crosses into the sync byte of
the next repetition (the spec's inference). -/
def Obligations.StuffedStreamHasNoSixOnes : Prop :=
  ∀ (B S : List Byte) (ins : Nat) (s : State),
    exec (.stuff B) s = .next { s with ret := .stuffed S ins, cond := none } →
      ¬ List.replicate 6 true <:+: (bits S).take (8 * B.length + ins) ∧
      (bits S).drop (8 * B.length + ins) = List.replicate (8 - ins) false ∧
      ¬ List.replicate 6 true <:+: (bits S).take (8 * B.length + ins) ++ (byteBits 0x7E).take 6

/-- R142 to R144: DESTUFF of 1 to 11 bytes completes. Its bits are those R142's loop writes, the tail that the input does
not fill being 0 (R144 d); its drop count is the loop's; it has one byte less than its input (R144 e). The examples of
R144 c, a drop that is pending at the end, and R144 d, thirteen drops. The zero tail and the pending drop are the spec's
decision D6. -/
def Obligations.DestuffShortensByOneByte : Prop :=
  (∀ (B : List Byte) (s : State), 1 ≤ B.length → B.length ≤ 11 →
    let p := destuffLoop (8 * (B.length - 1)) (bits B)
    ∃ out : List Byte,
      exec (.destuff B) s = .next { s with ret := .stuffed out p.drop, cond := none } ∧ out.length = B.length - 1 ∧
      p.out.length ≤ 8 * (B.length - 1) ∧
      bits out = p.out ++ List.replicate (8 * (B.length - 1) - p.out.length) false) ∧
  (∀ s : State, exec (.destuff [0x1F, 0x00]) s = .next { s with ret := .stuffed [0x1F] 0, cond := none }) ∧
  ∀ s : State, exec (.destuff [0xFB, 0xEF, 0xBE, 0xFB, 0xEF, 0xBE, 0xFB, 0xEF, 0xBE, 0xFB]) s =
    .next { s with ret := .stuffed (List.replicate 8 0xFF ++ [0xE0]) 13, cond := none }

/-- R145: inputs of one length that agree on their first `m` bits give outputs that agree on all the bits that R142's loop
has written once it has read those. -/
def Obligations.DestuffIsPrefixDetermined : Prop :=
  ∀ (B B' out out' : List Byte) (drop drop' m : Nat) (s : State), B.length = B'.length →
    (bits B).take m = (bits B').take m →
    exec (.destuff B) s = .next { s with ret := .stuffed out drop, cond := none } →
    exec (.destuff B') s = .next { s with ret := .stuffed out' drop', cond := none } →
      let copied := (destuffLoop (8 * (B.length - 1)) ((bits B).take m)).out
      (bits out).take copied.length = copied ∧ (bits out').take copied.length = copied

/-! ### Chip I/O -/

/-- R121 and R43: REG_WR sends the address byte and the value; the register takes the value and every other register
keeps its own, except that a byte written at A_FIFO joins the FIFO. -/
def Obligations.RegWrWritesOneRegister : Prop :=
  ∀ (a : ChipAddr) (v : Byte) (s : State), ∃ (regs : Memory) (fifo : List Byte),
    exec (.regWr a v) s = .next { s with
      bus := s.bus ++ regWrWire s.cfg a v, chipRegs := regs, fifoOut := fifo, ret := .none, cond := none } ∧
    (if a = s.cfg.aFifo then regs = s.chipRegs ∧ fifo = s.fifoOut ++ [v]
      else fifo = s.fifoOut ∧ regs.read a.toNat = some v ∧ ∀ b, b ≠ a.toNat → regs.read b = s.chipRegs.read b)

/-- R122 and R66: REG_RD returns the byte drawn from the chip, whatever it is; no register of the block moves, and an
edge that came with the draw runs the handler. -/
def Obligations.RegRdReturnsTheDraw : Prop :=
  ∀ (a : ChipAddr) (s : State),
    exec (.regRd a) s = .next { s with
      chipIn := s.chipIn.tail, drawn := s.drawn + 1, bus := s.bus ++ regRdWire s.cfg a (nextAnswer s).byte,
      rxFlag := s.rxFlag || ((nextAnswer s).edge && s.irqArmed), ret := .byte (nextAnswer s).byte, cond := none }

/-- R126: FLAG_RD is REG_RD of FLAG_ADDR[F], and its result is whether a bit under FLAG_MASK[F] is set. -/
def Obligations.FlagRdTestsTheMask : Prop :=
  ∀ (f : ChipFlag) (s : State),
    exec (.flagRd f) s = .next { s with
      chipIn := s.chipIn.tail, drawn := s.drawn + 1,
      bus := s.bus ++ regRdWire s.cfg (flagLoc s.cfg f).addr (nextAnswer s).byte,
      rxFlag := s.rxFlag || ((nextAnswer s).edge && s.irqArmed),
      ret := .bit (decide ((nextAnswer s).byte &&& (flagLoc s.cfg f).mask ≠ 0)), cond := none } ∧
    flagLoc s.cfg f = (match f with
      | .modeReady => s.cfg.modeReady
      | .payloadReady => s.cfg.payloadReady
      | .fifoLevel => s.cfg.fifoLevel
      | .packetSent => s.cfg.packetSent)

/-- R123: FIFO_WR of at least one byte sends them behind the FIFO's address byte, in order, and they join the chip's FIFO.
That FIFO_WR of no byte is refused, by the name operandRange, is the model's deduction from R123's `n >= 1` (log entry
13). -/
def Obligations.FifoWrQueuesItsBytes : Prop :=
  ∀ (bytes : List Byte) (s : State),
    (bytes ≠ [] → exec (.fifoWr bytes) s = .next { s with
      bus := s.bus ++ fifoWireBytes s.cfg bytes, fifoOut := s.fifoOut ++ bytes, ret := .none, cond := none }) ∧
    (bytes = [] → exec (.fifoWr bytes) s = .refused .operandRange)

/-- R124: FIFO_RD of n bytes returns the chip's next n answers, oldest first; where the state records fewer it still
completes with n bytes. That FIFO_RD of no byte is refused, by the name operandRange, is the model's deduction from
R124's `n >= 1` (log entry 13). -/
def Obligations.FifoRdReturnsTheNextBytes : Prop :=
  ∀ (n : Nat) (s : State),
    (1 ≤ n → n ≤ s.chipIn.length → exec (.fifoRd n) s = .next { s with
      chipIn := s.chipIn.drop n, drawn := s.drawn + n,
      bus := s.bus ++ .out (busAddrByte s.cfg.rwWrite false s.cfg.aFifo) :: (s.chipIn.take n).map (fun a => .inp a.byte),
      rxFlag := s.rxFlag || ((s.chipIn.take n).any (fun a => a.edge) && s.irqArmed),
      ret := .bytes ((s.chipIn.take n).map (fun a => a.byte)), cond := none }) ∧
    (1 ≤ n → ∃ (b : List Byte) (t : State), exec (.fifoRd n) s = .next t ∧ b.length = n ∧ t.ret = .bytes b ∧
      t.bus = s.bus ++ .out (busAddrByte s.cfg.rwWrite false s.cfg.aFifo) :: b.map .inp ∧
      ChipTraffic { s with ret := .bytes b, cond := none } t ∧ t.chipRegs = s.chipRegs ∧ t.fifoOut = s.fifoOut) ∧
    (n = 0 → exec (.fifoRd n) s = .refused .operandRange)

/-- R125 and R9: SET_MODE writes MODE_VALUE[m] at A_MODE and polls ModeReady: it returns true at the first poll that reads
1, if that is among the first MODE_READY_TIMEOUT, and false after that many polls that read 0 (one bound for every wait:
the spec's decision D19). `chip_mode` is m either way. -/
def Obligations.SetModePollsModeReady : Prop :=
  (∀ (m : Mode) (s : State) (polls rest : List Config.ChipAnswer) (ready : Bool),
    s.chipIn = polls ++ rest → 1 ≤ polls.length → polls.length ≤ s.cfg.modeReadyTimeout →
    (∀ a ∈ polls.dropLast, flagSet s.cfg .modeReady a = false) →
    (∀ a, polls.getLast? = some a → flagSet s.cfg .modeReady a = ready) →
    (ready = false → polls.length = s.cfg.modeReadyTimeout) →
      exec (.setMode m) s = .next { s with
        chipMode := m
        chipIn := rest
        drawn := s.drawn + polls.length
        bus := s.bus ++ regWrWire s.cfg s.cfg.aMode (modeValue s.cfg m) ++
          polls.flatMap (fun a => regRdWire s.cfg s.cfg.modeReady.addr a.byte)
        chipRegs := (chipTakes s.cfg.aMode (modeValue s.cfg m) s).chipRegs
        fifoOut := (chipTakes s.cfg.aMode (modeValue s.cfg m) s).fifoOut
        rxFlag := s.rxFlag || (polls.any (fun a => a.edge) && s.irqArmed)
        ret := .bool ready
        cond := none }) ∧
  ∀ (m : Mode) (cfg : Config.Params), modeValue cfg m = (match m with
    | .standby => cfg.modeStandby
    | .receive => cfg.modeReceive
    | .transmit => cfg.modeTransmit)

/-- R125 and R37: whatever the chip answers, SET_MODE completes with a boolean, `chip_mode` is the mode commanded, and
nothing else of the block moves; of the chip's registers the mode register takes MODE_VALUE[m]. -/
def Obligations.SetModeAlwaysCompletes : Prop :=
  ∀ (m : Mode) (s : State), ∃ (b : Bool) (t : State),
    exec (.setMode m) s = .next t ∧ ChipTraffic { s with chipMode := m, ret := .bool b, cond := none } t ∧
    RegsKeptOutside [s.cfg.aMode] s t ∧
    (s.cfg.aMode ≠ s.cfg.aFifo → t.fifoOut = s.fifoOut ∧
      t.chipRegs.read s.cfg.aMode.toNat = some (modeValue s.cfg m))

/-- R129: with a chip that reads back every probe value and reports ModeReady within the bound of R125, at the first poll or
at a later one, INIT returns true; what it writes in the block, and every byte on the bus, in order (the spec's decision
D17). That the trace ends with a write of LEN_DEFAULT of its own, whatever RADIO_CONFIG holds, is the model's choice where
R129 leaves it open (log entry 19). -/
def Obligations.InitSucceedsWithAResponsiveChip : Prop :=
  ∀ (s : State) (echo polls rest : List Config.ChipAnswer),
    s.chipIn = echo ++ (polls ++ rest) → echo.map (fun a => a.byte) = s.cfg.probeVals →
    ModePolls s.cfg (answerBytes polls) true →
      ∃ (regs : Memory) (fifo : List Byte),
        exec .init s = .next { s with
          chipMode := .standby, rxFlag := false, irqArmed := true, rxState := .idle, initialized := true
          chipIn := rest
          drawn := s.drawn + echo.length + polls.length
          bus := s.bus ++
            echo.flatMap (fun a => regWrWire s.cfg s.cfg.aProbe a.byte ++ regRdWire s.cfg s.cfg.aProbe a.byte) ++
            setModeWire s.cfg s.cfg.modeStandby (answerBytes polls) ++
            s.cfg.radioConfig.flatMap (fun e => regWrWire s.cfg e.1 e.2) ++
            regWrWire s.cfg s.cfg.aLen s.cfg.lenDefault
          chipRegs := regs
          fifoOut := fifo
          ret := .bool true
          cond := none } ∧
        (s.cfg.aLen ≠ s.cfg.aFifo → regs.read s.cfg.aLen.toNat = some s.cfg.lenDefault)

/-- R129 and R261: INIT always returns a boolean. True: the block is initialised, armed, in Standby. False: the condition
is InitFailure and `initialized`, `irq_armed` and `rx_state` are as they were. Either way nothing else of the block
moves, and of the chip's registers only those INIT writes. -/
def Obligations.InitAlwaysAnswers : Prop :=
  ∀ s : State, ∃ t : State, exec .init s = .next t ∧
    t = { s with
      chipMode := t.chipMode, rxFlag := t.rxFlag, irqArmed := t.irqArmed, rxState := t.rxState,
      initialized := t.initialized, chipIn := t.chipIn, drawn := t.drawn, bus := t.bus, chipRegs := t.chipRegs,
      fifoOut := t.fifoOut, ret := t.ret, cond := t.cond } ∧
    RegsKeptOutside (s.cfg.aProbe :: s.cfg.aMode :: s.cfg.aLen :: s.cfg.radioConfig.map (fun e => e.1)) s t ∧
    ((t.ret = .bool true ∧ t.cond = none ∧ t.initialized = true ∧ t.irqArmed = true ∧ t.rxFlag = false ∧
        t.rxState = .idle ∧ t.chipMode = .standby) ∨
      (t.ret = .bool false ∧ t.cond = some .initFailure ∧ t.initialized = s.initialized ∧ t.irqArmed = s.irqArmed ∧
        t.rxState = s.rxState))

/-- R261: the two causes. A probe value that does not read back ends INIT there, before any mode is commanded; a chip
that never reports ModeReady in MODE_READY_TIMEOUT polls ends it after the mode write. -/
def Obligations.InitFailsForTwoCauses : Prop :=
  (∀ (s : State) (echo rest : List Config.ChipAnswer) (bad : Config.ChipAnswer) (p : Byte) (ps : List Byte),
    s.chipIn = echo ++ bad :: rest → s.cfg.probeVals = echo.map (fun a => a.byte) ++ p :: ps → bad.byte ≠ p →
      ∃ t : State, exec .init s = .next t ∧ t.ret = .bool false ∧ t.cond = some .initFailure ∧ t.chipIn = rest ∧
        t.chipMode = s.chipMode ∧ t.bus = s.bus ++
          echo.flatMap (fun a => regWrWire s.cfg s.cfg.aProbe a.byte ++ regRdWire s.cfg s.cfg.aProbe a.byte) ++
          regWrWire s.cfg s.cfg.aProbe p ++ regRdWire s.cfg s.cfg.aProbe bad.byte) ∧
  (∀ (s : State) (echo polls rest : List Config.ChipAnswer),
    s.chipIn = echo ++ polls ++ rest → echo.map (fun a => a.byte) = s.cfg.probeVals →
    polls.length = s.cfg.modeReadyTimeout → 1 ≤ polls.length → (∀ a ∈ polls, flagSet s.cfg .modeReady a = false) →
      ∃ t : State, exec .init s = .next t ∧ t.ret = .bool false ∧ t.cond = some .initFailure ∧ t.chipIn = rest ∧
        t.chipMode = .standby)

/-- R298 (the spec's own choice, its decision D28): before INIT, RX_POLL, SEND, and SEND_PKT past its type check are refused;
INIT, RX_GET, LAST_GET and the SEND_PKT that fails its type check complete at any time. That a SEND whose operands are
out of range as well is refused by the name beforeInit is the model's order of two preconditions the spec does not
order (log entry 16). -/
def Obligations.CommandsBeforeInit : Prop :=
  (∀ s : State, s.initialized = false →
    exec .rxPoll s = .refused .beforeInit ∧
    (∀ (p : List Byte) (v : Nat), exec (.send p v) s = .refused .beforeInit) ∧
    ∀ (type : PktType) (a : DevAddr) (c : Byte) (extra : List Byte),
      exec (.sendPkt (deviceOf type) a c extra) s = .refused .beforeInit) ∧
  ∀ s : State,
    (∃ t, exec .init s = .next t) ∧ (∃ t, exec .rxGet s = .next t) ∧ (∃ t, exec .lastGet s = .next t) ∧
    ∀ (a : DevAddr) (c : Byte) (extra : List Byte), ∃ t, exec (.sendPkt .unknown a c extra) s = .next t

/-! ### Reception -/

/-- R182, R125 and R76: with the chip not in Receive, RX_POLL commands Receive and polls ModeReady until it reads 1 or the
bound is reached, which are all its bytes on the bus; it returns false whatever the wait's result (the spec's decision
D19), and nothing else of the block moves. `rx_flag` is left to the handler: an edge during the polls sets it, if the
signal is armed. How draws are recorded is the model's (log entry 3). -/
def Obligations.RxPollRearmsTheChip : Prop :=
  ∀ s : State, s.initialized = true → s.chipMode ≠ .receive →
    ∃ (t : State) (polls : List Config.ChipAnswer) (ready : Bool), exec .rxPoll s = .next t ∧
      ChipTraffic { s with chipMode := .receive, ret := .bool false, cond := none } t ∧
      ModePolls s.cfg (answerBytes polls) ready ∧ Drew polls s t ∧
      t.rxFlag = (s.rxFlag || (anyEdge polls && s.irqArmed)) ∧
      t.bus = s.bus ++ setModeWire s.cfg s.cfg.modeReceive (answerBytes polls) ∧
      RegsKeptOutside [s.cfg.aMode] s t ∧
      (s.cfg.aMode ≠ s.cfg.aFifo →
        t.fifoOut = s.fifoOut ∧ t.chipRegs.read s.cfg.aMode.toNat = some s.cfg.modeReceive)

/-- R184: with the chip in Receive and `rx_flag` 0, RX_POLL returns false with no bus traffic; with `rx_flag` 1 and
PayloadReady 0 it returns false after that one read, and `rx_flag` stays 1 (the spec's decision D5). -/
def Obligations.RxPollWithNothingReady : Prop :=
  ∀ s : State, s.initialized = true → s.chipMode = .receive →
    (s.rxFlag = false → exec .rxPoll s = .next { s with ret := .bool false, cond := none }) ∧
    (s.rxFlag = true → flagSet s.cfg .payloadReady (nextAnswer s) = false →
      exec .rxPoll s = .next { s with
        chipIn := s.chipIn.tail, drawn := s.drawn + 1,
        bus := s.bus ++ regRdWire s.cfg s.cfg.payloadReady.addr (nextAnswer s).byte,
        ret := .bool false, cond := none })

/-- R193: an RX_POLL that handles nothing writes none of `raw`, `ds`, `dec`, `dec_len`, `dec_type`, `rssi`, and returns
false. -/
def Obligations.RxPollHandlingNothingKeepsThePacket : Prop :=
  ∀ s : State, s.initialized = true →
    (s.chipMode ≠ .receive ∨ s.rxFlag = false ∨ flagSet s.cfg .payloadReady (nextAnswer s) = false) →
      ∃ t : State, exec .rxPoll s = .next t ∧ t.ret = .bool false ∧ t.raw = s.raw ∧ t.ds = s.ds ∧ t.dec = s.dec ∧
        t.decLen = s.decLen ∧ t.decType = s.decType ∧ t.rssi = s.rssi

/-- R183 to R190: RX_POLL that sees the flag and PayloadReady freezes the chip in Standby, reads a 10-byte window, destuffs
and reverses it, and accepts it exactly if its type is known and its CRC equals its last two bytes. Accepted: true, and
the packet is published, the bytes of `dec` past it unchanged (R188). Rejected: false, DecodeRejected, the packet
unchanged. Every byte on the bus, in order: the PayloadReady read, SET_MODE(Standby), the window, the signal strength of
step 7 if accepted, SET_MODE(Receive), the signal strength of step 8, which `rssi` keeps (the spec's decision D16).
All 9 destuffed bytes are reversed (its decision D25). What is drawn, in order: PayloadReady, the polls, the window, the
polls and signal strengths between and after. `rx_flag` is cleared as PayloadReady has been read, before the first poll
(its decision D5), so at the end it is 1 exactly if the signal is armed and had an edge after that read (R269, R271: "an
edge is never lost"), and nothing else of the block moves. How draws and edges are recorded is the model's (log entries 3
and 11). -/
def Obligations.RxPollHandlesAWindow : Prop :=
  ∀ s : State, s.initialized = true → s.chipMode = .receive → s.rxFlag = true →
    flagSet s.cfg .payloadReady (nextAnswer s) = true →
      ∃ (t : State) (standby window published receive : List Config.ChipAnswer) (last : Config.ChipAnswer)
          (inStandby inReceive : Bool),
        exec .rxPoll s = .next t ∧
        t = { s with
          raw := t.raw, ds := t.ds, dec := t.dec, decLen := t.decLen, decType := t.decType, rssi := t.rssi,
          rxState := .idle, chipMode := .receive, rxFlag := t.rxFlag, chipIn := t.chipIn, drawn := t.drawn,
          bus := t.bus, chipRegs := t.chipRegs, fifoOut := t.fifoOut, ret := t.ret, cond := t.cond } ∧
        ModePolls s.cfg (answerBytes standby) inStandby ∧ ModePolls s.cfg (answerBytes receive) inReceive ∧
        Drew (nextAnswer s :: (standby ++ window ++ published ++ receive ++ [last])) s t ∧
        t.rxFlag = (anyEdge (standby ++ window ++ published ++ receive ++ [last]) && s.irqArmed) ∧
        t.raw.bytes = answerBytes window ∧ t.rssi = last.byte ∧
        t.bus = s.bus ++ regRdWire s.cfg s.cfg.payloadReady.addr (nextAnswer s).byte ++
          setModeWire s.cfg s.cfg.modeStandby (answerBytes standby) ++
          (.out (busAddrByte s.cfg.rwWrite false s.cfg.aFifo) :: t.raw.bytes.map .inp) ++
          published.flatMap (fun a => regRdWire s.cfg s.cfg.aRssi a.byte) ++
          setModeWire s.cfg s.cfg.modeReceive (answerBytes receive) ++ regRdWire s.cfg s.cfg.aRssi t.rssi ∧
        RegsKeptOutside [s.cfg.aMode] s t ∧ (s.cfg.aMode ≠ s.cfg.aFifo → t.fifoOut = s.fifoOut) ∧
        t.ds.bytes = revBuf (destuff t.raw.bytes).1 ∧
        let accepts := fun type : PktType =>
          classify s.cfg (byteAt t.ds.bytes 1) = (deviceOf type, typeLen type) ∧
          pktCrc (t.ds.bytes.take (typeLen type - 2)) type =
            halfOf (byteAt t.ds.bytes (typeLen type - 2)) (byteAt t.ds.bytes (typeLen type - 1))
        (∀ type : PktType, accepts type →
          t.ret = .bool true ∧ t.cond = none ∧ t.decLen = typeLen type ∧ t.decType = deviceOf type ∧
          t.dec.bytes = t.ds.bytes.take (typeLen type) ++ s.dec.bytes.drop (typeLen type) ∧ published.length = 1) ∧
        ((∀ type : PktType, ¬ accepts type) →
          t.ret = .bool false ∧ t.cond = some .decodeRejected ∧ t.dec = s.dec ∧ t.decLen = s.decLen ∧
          t.decType = s.decType ∧ published = [])

/-- R248: the packet SEND_PKT assembles, reversed and stuffed, is accepted by an RX_POLL that draws a window whose bits
begin with the stuffed stream, whatever follows; what is published is the packet (the spec's inference). -/
def Obligations.SentPacketIsReceived : Prop :=
  ∀ (s t : State) (type : PktType) (ctr : Byte) (a : DevAddr) (command : Byte) (extra out : List Byte) (ins : Nat),
    s.cfg.dtRc ≠ 0x20 → s.initialized = true → s.chipMode = .receive → s.rxFlag = true →
    flagSet s.cfg .payloadReady (nextAnswer s) = true → exec .rxPoll s = .next t →
    stuff (revBuf (assemble s.cfg type ctr a command extra)) = some (out, ins) →
    (bits out).take (8 * typeLen type + ins) <+: bits t.raw.bytes →
      t.ret = .bool true ∧ t.dec.bytes.take (typeLen type) = assemble s.cfg type ctr a command extra ∧
      t.decLen = typeLen type ∧ t.decType = deviceOf type

/-- R195: RX_GET returns the decoded bytes, their length, the type and the signal strength, and writes nothing. -/
def Obligations.RxGetReturnsTheDecodedPacket : Prop :=
  ∀ s : State, exec .rxGet s =
    .next { s with ret := .packet (s.dec.bytes.take s.decLen) s.decLen s.decType s.rssi, cond := none }

/-- R268 and R269: an edge sets `rx_flag` if the signal is armed and does nothing else, a second one changes nothing, and
the host cannot issue it. -/
def Obligations.EdgeSetsOnlyTheFlag : Prop :=
  (∀ s : State, s.irqArmed = true → exec .irqEdge s = .next { s with rxFlag := true }) ∧
  (∀ s : State, s.irqArmed = false → exec .irqEdge s = .next s) ∧
  (∀ s t : State, exec .irqEdge s = .next t → exec .irqEdge t = .next t) ∧
  portAdmits .host .irqEdge = false

/-- R22 and R190: the decoded packet is written only by a poll that accepts a frame. Where an operation changes it, the
operation is an RX_POLL that returns true, or a SEND or SEND_PKT in whose clear-channel wait (R213, the spec's decision
D11) an RX_POLL returned true and published what stands there. Where a step goes on with a SEND that is in progress, it
is in that wait too. -/
def Obligations.OnlyAnAcceptedFrameChangesThePacket : Prop :=
  (∀ (i : Instr) (s t : State), exec i s = .next t →
    (t.dec ≠ s.dec ∨ t.decLen ≠ s.decLen ∨ t.decType ≠ s.decType) →
      (i = .rxPoll ∧ t.ret = .bool true) ∨
      (((∃ p v, i = .send p v) ∨ ∃ type a c extra, i = .sendPkt type a c extra) ∧
        PublishedInWait s.cfg.ccaLimit s t)) ∧
  ∀ s t : State, s.txPhase ≠ .off → s.initialized = true → step s = .next t →
    (t.dec ≠ s.dec ∨ t.decLen ≠ s.decLen ∨ t.decType ≠ s.decType) →
      s.txPhase = .cca ∧ PublishedInWait s.job.ccaLeft s t

/-! ### Transmission -/

/-- R215: one pass neither adds nor drops a bit. The bits held before it and the frame's first `total` bits are the bits of
the bytes it writes and the bits it holds after; how many of each. That each byte crosses the bus as a FIFO_WR of its
own, with an address byte of its own, is the model's choice where R61 leaves burst or single transfers open (log entry
6). -/
def Obligations.TxPassContinuesTheStream : Prop :=
  ∀ s : State, s.accN ≤ 7 → s.total.toNat ≤ 88 → ∃ (out : List Byte) (acc : Byte),
    exec .txPass s = .next { s with
      acc := acc, accN := (s.accN + s.total.toNat) % 8, fifoOut := s.fifoOut ++ out,
      bus := s.bus ++ out.flatMap (fun b => fifoWireBytes s.cfg [b]), ret := .bytes out, cond := none } ∧
    out.length = (s.accN + s.total.toNat) / 8 ∧
    heldBits s.acc s.accN ++ (bits s.frame.bytes).take s.total.toNat =
      bits out ++ heldBits acc ((s.accN + s.total.toNat) % 8)

/-- R212 to R214 and R221: after INIT, with operands in range, SEND completes: from `u`, where its clear-channel wait ends
(R213: clear, or at the limit), with a chip that answers as `SendCourse.Ok` says, mode waits slow or timed out included
(the spec's decision D19). It returns true; every byte on the bus, in the order of R212 (its decision D10): Standby, the
framing register unbounded, the preamble, the checks of FifoLevel with the passes between them, Transmit once and at the
first check that sees FifoLevel set, which comes before the last pass (its decision D23), PacketSent, Standby, the
framing register's default; the snapshot is taken (its decision D12). Of the block, only what SEND writes has moved since
`u`. Where A_FIFO is a register of its own, the FIFO holds the preamble and the stream. The model's choices: `frame`, `last_sent` past what is written, and what SEND leaves in
`frame`, `total`, `acc_n`, `rep` and `tx_active` (log entry 18), one FIFO_WR for each byte of the stream (log entry 6), and
`total` by R212's formula also where that is below R21's 16 (log entry 24). -/
def Obligations.SendCompletes : Prop :=
  ∀ (s u : State) (payload : List Byte) (v : Nat) (c : SendCourse) (rest : List Config.ChipAnswer),
    s.initialized = true → 1 ≤ payload.length → payload.length ≤ 10 → v ≤ 8 →
    ChannelWait s.cfg.ccaLimit s u → c.Ok s.cfg → u.chipIn = c.answers ++ rest →
      ∃ t : State, exec (.send payload v) s = .next t ∧
        t = { u with
          frame := t.frame, total := t.total, acc := t.acc, accN := 330 * totalBits payload.length v % 8,
          lastSent := t.lastSent, lastSentLen := 1 + payload.length, txPhase := .off, rep := 330,
          txActive := true, rxFlag := u.rxFlag || (c.answers.any (fun a => a.edge) && u.irqArmed),
          chipMode := .standby, chipIn := rest, drawn := u.drawn + c.answers.length,
          bus := u.bus ++ sendWire s.cfg payload v c, chipRegs := t.chipRegs, fifoOut := t.fifoOut,
          ret := .bool true, cond := none, job := t.job } ∧
        t.frame.bytes = 0x7E :: payload ++ s.frame.bytes.drop (1 + payload.length) ∧
        t.total.toNat = totalBits payload.length v ∧
        t.lastSent.bytes = 0x7E :: payload ++ s.lastSent.bytes.drop (1 + payload.length) ∧
        RegsKeptOutside [s.cfg.aLen, s.cfg.aMode] u t ∧
        (s.cfg.aFifo ≠ s.cfg.aLen → t.chipRegs.read s.cfg.aLen.toNat = some s.cfg.lenDefault) ∧
        (s.cfg.aFifo ≠ s.cfg.aLen → s.cfg.aFifo ≠ s.cfg.aMode →
          t.fifoOut = u.fifoOut ++ [s.cfg.preamble0, s.cfg.preamble1] ++ sendStream payload v)

/-- R97, R216 and R217: under the conditions of `SendCompletes`, A_FIFO being a register of its own, the bytes SEND queues
in the chip's FIFO are the two preamble bytes, then REPEAT copies of the frame's first `total` bits laid end to end and
cut into bytes, first bit in bit 7; the bits left over at the end are not written (the spec's decision D9). What the
chip then sends to the air is a premise of the spec (R131). `total` is R212's formula, also where that is
below R21's 16 (log entry 24). -/
def Obligations.SendStreamIsTheRepeatedFrame : Prop :=
  ∀ (s u t : State) (payload : List Byte) (v : Nat) (c : SendCourse) (rest : List Config.ChipAnswer),
    s.initialized = true → 1 ≤ payload.length → payload.length ≤ 10 → v ≤ 8 →
    ChannelWait s.cfg.ccaLimit s u → c.Ok s.cfg → u.chipIn = c.answers ++ rest →
    s.cfg.aFifo ≠ s.cfg.aLen → s.cfg.aFifo ≠ s.cfg.aMode → exec (.send payload v) s = .next t →
      ∃ stream : List Byte,
        t.fifoOut = u.fifoOut ++ [s.cfg.preamble0, s.cfg.preamble1] ++ stream ∧
        stream.length = 330 * totalBits payload.length v / 8 ∧
        ∀ q, q < 8 * stream.length →
          (bits stream)[q]? = (bits (0x7E :: payload))[q % totalBits payload.length v]?

/-- R246 and R247: after INIT, for a recognised type whose stuffed payload fits, with a clear-channel wait that ends in `u`
and a chip that answers as `SendCourse.Ok` says, SEND_PKT completes: it sends the packet that carries the counter's
value, reversed and stuffed, returns true, and the counter moves by one, from 255 to 1 (the packet carries the value
before the move: the spec's decision D13). The bus bytes are those of the SEND it issues. The model's choices: the bytes of
`pl`, `st` and `last_sent` past what is written, and what SEND leaves in `frame`, `total`, `acc_n`, `rep` and `tx_active` (log
entry 18), and one FIFO_WR for each byte of the stream (log entry 6). -/
def Obligations.SendPktCompletes : Prop :=
  ∀ (s u : State) (type : PktType) (a : DevAddr) (command : Byte) (extra out : List Byte) (ins : Nat) (c : SendCourse)
    (rest : List Config.ChipAnswer),
    s.initialized = true →
    stuff (revBuf (assemble s.cfg type s.counter a command extra)) = some (out, ins) →
    ChannelWait s.cfg.ccaLimit s u → c.Ok s.cfg → u.chipIn = c.answers ++ rest →
      let sent := out.take (stuffedSize (typeLen type) ins).1
      let v := (stuffedSize (typeLen type) ins).2
      ∃ t : State, exec (.sendPkt (deviceOf type) a command extra) s = .next t ∧
        t = { u with
          pl := t.pl, st := t.st, frame := t.frame, total := t.total, acc := t.acc,
          accN := 330 * totalBits sent.length v % 8, lastSent := t.lastSent, lastSentLen := 1 + sent.length,
          counter := if s.counter = 255 then 1 else s.counter + 1, txPhase := .off, rep := 330,
          txActive := true, rxFlag := u.rxFlag || (c.answers.any (fun a => a.edge) && u.irqArmed),
          chipMode := .standby, chipIn := rest, drawn := u.drawn + c.answers.length,
          bus := u.bus ++ sendWire s.cfg sent v c, chipRegs := t.chipRegs, fifoOut := t.fifoOut, ret := .bool true,
          cond := none, job := t.job } ∧
        t.pl.bytes = assemble s.cfg type s.counter a command extra ++ s.pl.bytes.drop (typeLen type) ∧
        t.st.bytes = out ++ s.st.bytes.drop (typeLen type + 1) ∧
        t.frame.bytes = 0x7E :: sent ++ s.frame.bytes.drop (1 + sent.length) ∧
        t.total.toNat = totalBits sent.length v ∧
        t.lastSent.bytes = 0x7E :: sent ++ s.lastSent.bytes.drop (1 + sent.length) ∧
        RegsKeptOutside [s.cfg.aLen, s.cfg.aMode] u t ∧
        (s.cfg.aFifo ≠ s.cfg.aLen → t.chipRegs.read s.cfg.aLen.toNat = some s.cfg.lenDefault) ∧
        (s.cfg.aFifo ≠ s.cfg.aLen → s.cfg.aFifo ≠ s.cfg.aMode →
          t.fifoOut = u.fifoOut ++ [s.cfg.preamble0, s.cfg.preamble1] ++ sendStream sent v)

/-- R149 and R246: after INIT, SEND_PKT of a recognised type whose payload needs a ninth insertion is refused, and the
packet the spec names is one (the spec's decision D7). -/
def Obligations.SendPktOverflowRefused : Prop :=
  (∀ (s : State) (type : PktType) (a : DevAddr) (command : Byte) (extra : List Byte), s.initialized = true →
    stuffLoop (bits (revBuf (assemble s.cfg type s.counter a command extra))) = none →
      exec (.sendPkt (deviceOf type) a command extra) s = .refused .stuffOverflow) ∧
  (∀ s : State, s.initialized = true → s.counter = 0x3E →
    exec (.sendPkt .windowSensor 0xFFFFFF 0xF9 []) s = .refused .stuffOverflow)

/-- R213 and R220 (the spec's decision D11): SEND and SEND_PKT with CCA_LIMIT 0 touch no receive state, whatever the chip
answers and however far they get; nor does a step that goes on with a SEND that is past its clear-channel wait, or that
has no iteration of it left. -/
def Obligations.NoClearChannelWaitNoReception : Prop :=
  (∀ (i : Instr) (s t : State), ((∃ p v, i = .send p v) ∨ ∃ type a c extra, i = .sendPkt type a c extra) →
    s.cfg.ccaLimit = 0 → exec i s = .next t →
      t.raw = s.raw ∧ t.ds = s.ds ∧ t.dec = s.dec ∧ t.decLen = s.decLen ∧ t.decType = s.decType ∧ t.rssi = s.rssi ∧
      t.rxState = s.rxState) ∧
  ∀ s t : State, s.txPhase ≠ .off → (s.txPhase ≠ .cca ∨ s.job.ccaLeft = 0) → step s = .next t →
    t.raw = s.raw ∧ t.ds = s.ds ∧ t.dec = s.dec ∧ t.decLen = s.decLen ∧ t.decType = s.decType ∧ t.rssi = s.rssi ∧
    t.rxState = s.rxState

/-- R213 (the spec's decision D11): one iteration of the clear-channel wait, as a step goes on with it. At the limit, and
at a draw that says the channel is clear, SEND goes on to its setup; at any other draw the iteration is a full RX_POLL
whose boolean is discarded, and one iteration less is left. While the state records chip answers the step goes on from
there as the next step would; once they are used up it ends there (log entry 10). -/
def Obligations.ClearChannelIterationIsAPoll : Prop :=
  ∀ s : State, s.txPhase = .cca → s.initialized = true → (∀ rest, fetch s ≠ .run .irqEdge rest) →
    let goesOn := fun t : State => if t.chipIn = [] then Host.Outcome.next t else step t
    (s.job.ccaLeft = 0 → step s = goesOn { s with txPhase := .setup }) ∧
    (0 < s.job.ccaLeft → (nextClear s).clear = true → step s = goesOn { afterClearDraw s with txPhase := .setup }) ∧
    ∀ (n : Nat) (v : State), s.job.ccaLeft = n + 1 → (nextClear s).clear = false →
      exec .rxPoll (afterClearDraw s) = .next v →
        step s = goesOn { v with ret := s.ret, cond := s.cond, job := { s.job with ccaLeft := n } }

/-- R305: the waits of SEND have no bound. (a) FifoLevel set at every check: nothing is written and SEND stays in the
fill loop; where the chip is not in Transmit yet, the first check switches it once, and then only checks follow (R214). (b)
PacketSent clear at every check: SEND stays in the completion wait. In both the bytes on the bus are these reads. (c) FifoLevel clear at all 330
checks: every repetition is packed with the chip never switched to Transmit, and SEND stays in the completion wait,
whatever PacketSent reads there. Each for as many answers as the state records; (c) is the spec's decision D23, and that
PacketSent is still read in it is the model's deduction (log entry 23). -/
def Obligations.UnboundedWaitsStayWaits : Prop :=
  (∀ s : State, s.moves = [] → s.txPhase = .fill → s.rep.toNat < 330 → s.txActive = true → s.chipIn ≠ [] →
    (∀ a ∈ s.chipIn, flagSet s.cfg .fifoLevel a = true) →
      ∃ t : State, step s = .next t ∧ ChipTraffic s t ∧ t.chipIn = [] ∧ t.fifoOut = s.fifoOut ∧
        t.chipRegs = s.chipRegs ∧ t.bus = s.bus ++ headroomWire s.cfg s.chipIn) ∧
  (∀ (s : State) (full : Config.ChipAnswer) (polls later : List Config.ChipAnswer) (ready : Bool), s.moves = [] →
    s.txPhase = .fill → s.rep.toNat < 330 → s.txActive = false → s.chipIn = full :: (polls ++ later) →
    flagSet s.cfg .fifoLevel full = true → ModePolls s.cfg (answerBytes polls) ready →
    (∀ a ∈ later, flagSet s.cfg .fifoLevel a = true) →
      ∃ t : State, step s = .next t ∧ ChipTraffic { s with txActive := true, chipMode := .transmit } t ∧ t.chipIn = [] ∧
        RegsKeptOutside [s.cfg.aMode] s t ∧ (s.cfg.aMode ≠ s.cfg.aFifo → t.fifoOut = s.fifoOut) ∧
        t.bus = s.bus ++ headroomWire s.cfg [full] ++ setModeWire s.cfg s.cfg.modeTransmit (answerBytes polls) ++
          headroomWire s.cfg later) ∧
  (∀ s : State, s.moves = [] → s.txPhase = .waitSent → s.chipIn ≠ [] →
    (∀ a ∈ s.chipIn, flagSet s.cfg .packetSent a = false) →
      ∃ t : State, step s = .next t ∧ ChipTraffic s t ∧ t.chipIn = [] ∧ t.fifoOut = s.fifoOut ∧
        t.chipRegs = s.chipRegs ∧ t.bus = s.bus ++ sentWire s.cfg s.chipIn) ∧
  (∀ (s : State) (checks later : List Config.ChipAnswer), s.moves = [] → s.txPhase = .fill → s.rep = 0 →
    s.txActive = false → s.chipIn = checks ++ later → checks.length = 330 → later ≠ [] →
    (∀ a ∈ checks, flagSet s.cfg .fifoLevel a = false) →
      ∃ t : State, step s = .next t ∧ t.txPhase = .waitSent ∧ t.rep = 330 ∧ t.txActive = false ∧
        t.chipMode = s.chipMode ∧ t.chipIn = [])

/-- R250: LAST_GET returns the snapshot's bytes and length, and writes nothing. -/
def Obligations.LastGetReturnsTheSnapshot : Prop :=
  ∀ s : State, exec .lastGet s =
    .next { s with ret := .snapshot (s.lastSent.bytes.take s.lastSentLen) s.lastSentLen, cond := none }

/-- R23 and R247: in any step the counter either stays or, as a SEND_PKT returns true, moves by one, from 255 to 1. -/
def Obligations.CounterMovesOnlyOnASuccessfulSendPkt : Prop :=
  ∀ s t : State, step s = .next t → t.counter ≠ s.counter →
    t.counter = (if s.counter = 255 then 1 else s.counter + 1) ∧ t.ret = .bool true ∧ t.txPhase = .off ∧
    t.job.fromPkt = true

/-! ### The step -/

/-- With the mainline at rest, a step decodes the bytes asked next and runs the operation they decode to, the bytes
after it staying to be done. How a program comes to be asked is the model's (log entry 8). -/
def Obligations.StepRunsTheDecodedOperation : Prop :=
  ∀ (s : State) (port : Port) (bytes rest : List Byte) (ms : List Move) (i : Instr),
    s.txPhase = .off → s.moves = ⟨port, bytes⟩ :: ms → decode (portFormat port) s.cfg.rwWrite bytes = .ok (i, rest) →
    portAdmits port i = true →
      step s = exec i { s with moves := if rest = [] then ms else ⟨port, rest⟩ :: ms }

/-- With the mainline at rest and no operation asked at any port, a step changes nothing, and so it is from reset; after reset
the signal is not armed, and while it is not armed an edge changes nothing (R292). What is asked stands in `moves`, which
is the model's (log entry 8), and the model's internal port may ask for an operation without a host command (log entry
22), so this is weaker than R292's own words. -/
def Obligations.NothingRunsUnasked : Prop :=
  (∀ s : State, s.txPhase = .off → s.moves = [] → step s = .next s) ∧ step State.reset = .next State.reset ∧
  State.reset.irqArmed = false ∧ ∀ s : State, s.irqArmed = false → exec .irqEdge s = .next s

/-- R99 and R120: what the host asks for that is no host command is refused. -/
def Obligations.HostIssuesOnlyHostCommands : Prop :=
  ∀ (s : State) (bytes rest : List Byte) (ms : List Move) (i : Instr), s.txPhase = .off →
    s.moves = ⟨.host, bytes⟩ :: ms → decodeOperation bytes = .ok (i, rest) →
    (∀ p v type a c extra, i ≠ .init ∧ i ≠ .rxPoll ∧ i ≠ .rxGet ∧ i ≠ .send p v ∧ i ≠ .sendPkt type a c extra ∧
      i ≠ .lastGet) →
      step s = .refused .notIssuable

/-- R20 and R299 (the spec's decision D22): while a SEND is in progress no operation starts: unless the receive signal
is next, a step takes nothing from what is asked, and the block stays initialised, armed and configured as it was. -/
def Obligations.NothingStartsDuringASend : Prop :=
  ∀ s : State, s.txPhase ≠ .off → (∀ rest, fetch s ≠ .run .irqEdge rest) →
    ∃ t : State, step s = .next t ∧ t.moves = s.moves ∧ t.initialized = s.initialized ∧ t.irqArmed = s.irqArmed ∧
      t.cfg = s.cfg ∧ t.pl = s.pl ∧ t.st = s.st

/-- R75, R220 and R269: an edge during a SEND runs the handler at once and leaves the SEND where it is. -/
def Obligations.EdgeDuringASendOnlySetsTheFlag : Prop :=
  ∀ (s : State) (ms : List Move), s.txPhase ≠ .off → s.moves = ⟨.signal, [0x1F]⟩ :: ms →
    step s = .next { s with rxFlag := s.rxFlag || s.irqArmed, moves := ms }

/-! ### Reset and what every step keeps -/

/-- R45: the reset values the spec gives (all but the counter's are its decisions D18, D24, D27 and D28), and no bus
transaction made (R291). -/
def Obligations.ResetValues : Prop :=
  State.reset.counter = 1 ∧ State.reset.rxFlag = false ∧ State.reset.irqArmed = false ∧
  State.reset.initialized = false ∧ State.reset.chipMode = .standby ∧ State.reset.rxState = .idle ∧
  State.reset.txPhase = .off ∧ State.reset.rep = 0 ∧ State.reset.txActive = false ∧ State.reset.decLen = 0 ∧
  State.reset.decType = .unknown ∧ State.reset.lastSentLen = 0 ∧ State.reset.cfg = Config.params ∧
  State.reset.bus = []

/-- The invariant holds after reset; that the parameters meet the constraints of R9 is part of it. `total` and `acc_n`
meet it by the model's choice of their reset values (log entry 1); of R21's range for `total` it keeps the upper bound
(log entry 24). -/
def Obligations.InvariantAtReset : Prop := Inv State.reset

/-- The invariant is kept by every step, from every state that meets it: the widths and ranges of R21 and R33, the packet
type and length together (R22), `rx_state` Idle between steps (R32), `initialized` with `irq_armed` (R35, R36), a
flag only if armed (R34), and the canonical form of the chip's registers. Of R21's range for `total`, 16 to 88, it keeps
the upper bound: R212's formula gives 9 to 15 for one byte with 1 to 7 valid bits (the model's choice, log entry 24). -/
def Obligations.StepKeepsTheInvariant : Prop :=
  ∀ s t : State, Inv s → step s = .next t → Inv t

/-- R39 and R297: no step writes a constant or a parameter. -/
def Obligations.StepKeepsTheConfiguration : Prop :=
  ∀ s t : State, step s = .next t → t.cfg = s.cfg

/-! ### The hang of a SEND that is never switched to Transmit -/

/-- R219 and R305 c (the spec's decision D23): a SEND or SEND_PKT that finds FifoLevel clear at all 330 checks packs every
repetition with the chip in Standby and never returns: it has no result, takes no snapshot and does not move the counter,
whatever PacketSent reads; and from any state of that wait a step only reads, or takes an edge, and stays in it. That
PacketSent is still read there, and that a 1 read changes nothing, is the model's deduction (log entry 23); one FIFO_WR
for each byte is its choice (log entry 6), and so is `total` below R21's 16 (log entry 24). -/
def Obligations.SendNeverSwitchedNeverEnds : Prop :=
  (∀ (s u : State) (payload : List Byte) (v : Nat) (standby checks later : List Config.ChipAnswer) (ready : Bool),
    s.initialized = true → 1 ≤ payload.length → payload.length ≤ 10 → v ≤ 8 →
    ChannelWait s.cfg.ccaLimit s u → ModePolls s.cfg (answerBytes standby) ready → checks.length = 330 →
    (∀ a ∈ checks, flagSet s.cfg .fifoLevel a = false) → u.chipIn = standby ++ (checks ++ later) → later ≠ [] →
      ∃ t : State, exec (.send payload v) s = .next t ∧ t.txPhase = .waitSent ∧ t.rep = 330 ∧ t.txActive = false ∧
        t.chipMode = .standby ∧ t.ret = .none ∧ t.lastSent = s.lastSent ∧ t.counter = s.counter ∧ t.chipIn = [] ∧
        t.bus = u.bus ++ setupWire s.cfg standby ++
          fillWire s.cfg (passChunk (sendStream payload v) (totalBits payload.length v)) 0 checks ++
          sentWire s.cfg later) ∧
  (∀ (s u : State) (type : PktType) (a : DevAddr) (command : Byte) (extra out : List Byte) (ins : Nat)
    (standby checks later : List Config.ChipAnswer) (ready : Bool), s.initialized = true →
    stuff (revBuf (assemble s.cfg type s.counter a command extra)) = some (out, ins) →
    ChannelWait s.cfg.ccaLimit s u → ModePolls s.cfg (answerBytes standby) ready → checks.length = 330 →
    (∀ a ∈ checks, flagSet s.cfg .fifoLevel a = false) → u.chipIn = standby ++ (checks ++ later) → later ≠ [] →
      ∃ t : State, exec (.sendPkt (deviceOf type) a command extra) s = .next t ∧ t.txPhase = .waitSent ∧ t.rep = 330 ∧
        t.txActive = false ∧ t.chipMode = .standby ∧ t.ret = .none ∧ t.lastSent = s.lastSent ∧ t.counter = s.counter ∧
        t.chipIn = []) ∧
  ∀ s : State, s.txPhase = .waitSent → s.txActive = false →
    ∃ t : State, step s = .next t ∧ ChipTraffic { s with moves := t.moves } t ∧ t.chipRegs = s.chipRegs ∧
      t.fifoOut = s.fifoOut
end

