-- ==== Sys2Proof/Laws/Bits.lean ====
section
/-! SUPPORT. Bit streams and buffers: lengths, cutting into bytes, and partial writes. -/

namespace Sys2Proof.Machine

theorem length_byteBits (b : Byte) : (byteBits b).length = 8 := rfl

theorem length_bits (bytes : List Byte) : (bits bytes).length = 8 * bytes.length := by
  induction bytes with
  | nil => rfl
  | cons b bytes ih => simp only [bits, List.flatMap_cons, List.length_append, length_byteBits, List.length_cons] at ih ⊢; omega

theorem bits_cons (b : Byte) (bytes : List Byte) : bits (b :: bytes) = byteBits b ++ bits bytes := rfl

theorem bits_append (l m : List Byte) : bits (l ++ m) = bits l ++ bits m := List.flatMap_append

theorem byteBits_byteOfBits : ∀ b7 b6 b5 b4 b3 b2 b1 b0 : Bool,
    byteBits (byteOfBits [b7, b6, b5, b4, b3, b2, b1, b0]) = [b7, b6, b5, b4, b3, b2, b1, b0] := by
  decide

theorem byteOfBits_byteBits (b : Byte) : byteOfBits (byteBits b) = b := by
  revert b
  decide

theorem byteBits_injective {a b : Byte} (h : byteBits a = byteBits b) : a = b := by
  rw [← byteOfBits_byteBits a, h, byteOfBits_byteBits]

theorem packBits_byteBits_append (b : Byte) (bs : List Bool) : packBits (byteBits b ++ bs) = b :: packBits bs := by
  conv => rhs; rw [← byteOfBits_byteBits b]
  rfl

theorem packBits_bits_append (bytes : List Byte) (bs : List Bool) :
    packBits (bits bytes ++ bs) = bytes ++ packBits bs := by
  induction bytes with
  | nil => rfl
  | cons b bytes ih => rw [bits_cons, List.append_assoc, packBits_byteBits_append, ih, List.cons_append]

theorem packBits_bits (bytes : List Byte) : packBits (bits bytes) = bytes := by
  have h := packBits_bits_append bytes []
  rwa [List.append_nil, show packBits [] = [] from rfl, List.append_nil] at h

theorem bits_injective {l m : List Byte} (h : bits l = bits m) : l = m := by
  rw [← packBits_bits l, h, packBits_bits]

/-- A stream shorter than a byte holds no full byte. -/
theorem packBits_short : ∀ bs : List Bool, bs.length < 8 → packBits bs = []
  | [], _ | [_], _ | [_, _], _ | [_, _, _], _ | [_, _, _, _], _ | [_, _, _, _, _], _ | [_, _, _, _, _, _], _
  | [_, _, _, _, _, _, _], _ => rfl
  | _ :: _ :: _ :: _ :: _ :: _ :: _ :: _ :: bs, h => absurd h (by simp only [List.length_cons]; omega)

/-- Every stream is some full bytes and fewer than eight bits after them. -/
theorem exists_bits_append (bs : List Bool) : ∃ bytes tail, bs = bits bytes ++ tail ∧ tail.length < 8 ∧ packBits bs = bytes := by
  induction bs using packBits.induct with
  | case1 b7 b6 b5 b4 b3 b2 b1 b0 rest ih =>
    obtain ⟨bytes, tail, rfl, ht, hp⟩ := ih
    refine ⟨byteOfBits [b7, b6, b5, b4, b3, b2, b1, b0] :: bytes, tail, ?_, ht, ?_⟩
    · rw [bits_cons, byteBits_byteOfBits, List.append_assoc]
      rfl
    · rw [show packBits (b7 :: b6 :: b5 :: b4 :: b3 :: b2 :: b1 :: b0 :: (bits bytes ++ tail)) =
        byteOfBits [b7, b6, b5, b4, b3, b2, b1, b0] :: packBits (bits bytes ++ tail) from rfl, hp]
  | case2 bs hbs =>
    have hlen : bs.length < 8 := by
      by_contra hge
      match bs, hbs, hge with
      | b7 :: b6 :: b5 :: b4 :: b3 :: b2 :: b1 :: b0 :: rest, hbs, _ => exact hbs b7 b6 b5 b4 b3 b2 b1 b0 rest rfl
      | [], _, hge | [_], _, hge | [_, _], _, hge | [_, _, _], _, hge | [_, _, _, _], _, hge
      | [_, _, _, _, _], _, hge | [_, _, _, _, _, _], _, hge | [_, _, _, _, _, _, _], _, hge => exact hge (by simp)
    exact ⟨[], bs, rfl, hlen, packBits_short bs hlen⟩

theorem length_packBits (bs : List Bool) : (packBits bs).length = bs.length / 8 := by
  obtain ⟨bytes, tail, rfl, ht, hp⟩ := exists_bits_append bs
  rw [hp, List.length_append, length_bits]
  omega

theorem bits_packBits (bs : List Bool) : bits (packBits bs) = bs.take (8 * (bs.length / 8)) := by
  obtain ⟨bytes, tail, rfl, ht, hp⟩ := exists_bits_append bs
  have h8 : 8 * ((bits bytes ++ tail).length / 8) = (bits bytes).length := by
    rw [List.length_append, length_bits]
    omega
  rw [hp, h8, List.take_left]

theorem bits_packBits_of_dvd (bs : List Bool) (n : Nat) (h : bs.length = 8 * n) : bits (packBits bs) = bs := by
  rw [bits_packBits, List.take_of_length_le (by omega)]

theorem length_padBits (n : Nat) (bs : List Bool) (h : bs.length ≤ n) : (padBits n bs).length = n := by
  simp only [padBits, List.length_append, List.length_replicate]
  omega

/-- Writing at most the buffer's size at its start keeps the bytes past what is written. -/
theorem overlay_bytes {n : Nat} (buf : Buf n) (bytes : List Byte) (h : bytes.length ≤ n) :
    (overlay buf bytes).bytes = bytes ++ buf.bytes.drop bytes.length := by
  have hs := buf.size
  simp only [overlay]
  exact List.take_of_length_le (by simp only [List.length_append, List.length_drop]; omega)

/-- Writing a whole buffer replaces it. -/
theorem overlay_bytes_full {n : Nat} (buf : Buf n) (bytes : List Byte) (h : bytes.length = n) :
    (overlay buf bytes).bytes = bytes := by
  rw [overlay_bytes buf bytes (by omega), List.drop_of_length_le (by rw [buf.size]; omega), List.append_nil]

end Sys2Proof.Machine
end

