-- ==== Sys2Proof/Laws/State.lean ====
section
/-! SUPPORT. The fields of the state after each named update: one lemma for each field, all true by `rfl`. -/

namespace Sys2Proof.Machine

variable (s : State)

/-! ### `takeEdgeIf` -/

@[simp] theorem takeEdgeIf_raw (e : Bool) : (takeEdgeIf e s).raw = s.raw := rfl
@[simp] theorem takeEdgeIf_ds (e : Bool) : (takeEdgeIf e s).ds = s.ds := rfl
@[simp] theorem takeEdgeIf_dec (e : Bool) : (takeEdgeIf e s).dec = s.dec := rfl
@[simp] theorem takeEdgeIf_decLen (e : Bool) : (takeEdgeIf e s).decLen = s.decLen := rfl
@[simp] theorem takeEdgeIf_decType (e : Bool) : (takeEdgeIf e s).decType = s.decType := rfl
@[simp] theorem takeEdgeIf_rssi (e : Bool) : (takeEdgeIf e s).rssi = s.rssi := rfl
@[simp] theorem takeEdgeIf_pl (e : Bool) : (takeEdgeIf e s).pl = s.pl := rfl
@[simp] theorem takeEdgeIf_st (e : Bool) : (takeEdgeIf e s).st = s.st := rfl
@[simp] theorem takeEdgeIf_frame (e : Bool) : (takeEdgeIf e s).frame = s.frame := rfl
@[simp] theorem takeEdgeIf_total (e : Bool) : (takeEdgeIf e s).total = s.total := rfl
@[simp] theorem takeEdgeIf_acc (e : Bool) : (takeEdgeIf e s).acc = s.acc := rfl
@[simp] theorem takeEdgeIf_accN (e : Bool) : (takeEdgeIf e s).accN = s.accN := rfl
@[simp] theorem takeEdgeIf_lastSent (e : Bool) : (takeEdgeIf e s).lastSent = s.lastSent := rfl
@[simp] theorem takeEdgeIf_lastSentLen (e : Bool) : (takeEdgeIf e s).lastSentLen = s.lastSentLen := rfl
@[simp] theorem takeEdgeIf_counter (e : Bool) : (takeEdgeIf e s).counter = s.counter := rfl
@[simp] theorem takeEdgeIf_rxState (e : Bool) : (takeEdgeIf e s).rxState = s.rxState := rfl
@[simp] theorem takeEdgeIf_txPhase (e : Bool) : (takeEdgeIf e s).txPhase = s.txPhase := rfl
@[simp] theorem takeEdgeIf_rep (e : Bool) : (takeEdgeIf e s).rep = s.rep := rfl
@[simp] theorem takeEdgeIf_txActive (e : Bool) : (takeEdgeIf e s).txActive = s.txActive := rfl
@[simp] theorem takeEdgeIf_rxFlag (e : Bool) : (takeEdgeIf e s).rxFlag = (s.rxFlag || (e && s.irqArmed)) := rfl
@[simp] theorem takeEdgeIf_irqArmed (e : Bool) : (takeEdgeIf e s).irqArmed = s.irqArmed := rfl
@[simp] theorem takeEdgeIf_initialized (e : Bool) : (takeEdgeIf e s).initialized = s.initialized := rfl
@[simp] theorem takeEdgeIf_chipMode (e : Bool) : (takeEdgeIf e s).chipMode = s.chipMode := rfl
@[simp] theorem takeEdgeIf_cfg (e : Bool) : (takeEdgeIf e s).cfg = s.cfg := rfl
@[simp] theorem takeEdgeIf_chipIn (e : Bool) : (takeEdgeIf e s).chipIn = s.chipIn := rfl
@[simp] theorem takeEdgeIf_clearIn (e : Bool) : (takeEdgeIf e s).clearIn = s.clearIn := rfl
@[simp] theorem takeEdgeIf_drawn (e : Bool) : (takeEdgeIf e s).drawn = s.drawn := rfl
@[simp] theorem takeEdgeIf_bus (e : Bool) : (takeEdgeIf e s).bus = s.bus := rfl
@[simp] theorem takeEdgeIf_chipRegs (e : Bool) : (takeEdgeIf e s).chipRegs = s.chipRegs := rfl
@[simp] theorem takeEdgeIf_fifoOut (e : Bool) : (takeEdgeIf e s).fifoOut = s.fifoOut := rfl
@[simp] theorem takeEdgeIf_moves (e : Bool) : (takeEdgeIf e s).moves = s.moves := rfl
@[simp] theorem takeEdgeIf_ret (e : Bool) : (takeEdgeIf e s).ret = s.ret := rfl
@[simp] theorem takeEdgeIf_cond (e : Bool) : (takeEdgeIf e s).cond = s.cond := rfl
@[simp] theorem takeEdgeIf_job (e : Bool) : (takeEdgeIf e s).job = s.job := rfl

/-! ### `popAnswer` -/

@[simp] theorem popAnswer_raw : (popAnswer s).raw = s.raw := rfl
@[simp] theorem popAnswer_ds : (popAnswer s).ds = s.ds := rfl
@[simp] theorem popAnswer_dec : (popAnswer s).dec = s.dec := rfl
@[simp] theorem popAnswer_decLen : (popAnswer s).decLen = s.decLen := rfl
@[simp] theorem popAnswer_decType : (popAnswer s).decType = s.decType := rfl
@[simp] theorem popAnswer_rssi : (popAnswer s).rssi = s.rssi := rfl
@[simp] theorem popAnswer_pl : (popAnswer s).pl = s.pl := rfl
@[simp] theorem popAnswer_st : (popAnswer s).st = s.st := rfl
@[simp] theorem popAnswer_frame : (popAnswer s).frame = s.frame := rfl
@[simp] theorem popAnswer_total : (popAnswer s).total = s.total := rfl
@[simp] theorem popAnswer_acc : (popAnswer s).acc = s.acc := rfl
@[simp] theorem popAnswer_accN : (popAnswer s).accN = s.accN := rfl
@[simp] theorem popAnswer_lastSent : (popAnswer s).lastSent = s.lastSent := rfl
@[simp] theorem popAnswer_lastSentLen : (popAnswer s).lastSentLen = s.lastSentLen := rfl
@[simp] theorem popAnswer_counter : (popAnswer s).counter = s.counter := rfl
@[simp] theorem popAnswer_rxState : (popAnswer s).rxState = s.rxState := rfl
@[simp] theorem popAnswer_txPhase : (popAnswer s).txPhase = s.txPhase := rfl
@[simp] theorem popAnswer_rep : (popAnswer s).rep = s.rep := rfl
@[simp] theorem popAnswer_txActive : (popAnswer s).txActive = s.txActive := rfl
@[simp] theorem popAnswer_rxFlag : (popAnswer s).rxFlag = s.rxFlag := rfl
@[simp] theorem popAnswer_irqArmed : (popAnswer s).irqArmed = s.irqArmed := rfl
@[simp] theorem popAnswer_initialized : (popAnswer s).initialized = s.initialized := rfl
@[simp] theorem popAnswer_chipMode : (popAnswer s).chipMode = s.chipMode := rfl
@[simp] theorem popAnswer_cfg : (popAnswer s).cfg = s.cfg := rfl
@[simp] theorem popAnswer_chipIn : (popAnswer s).chipIn = s.chipIn.tail := rfl
@[simp] theorem popAnswer_clearIn : (popAnswer s).clearIn = s.clearIn := rfl
@[simp] theorem popAnswer_drawn : (popAnswer s).drawn = s.drawn + 1 := rfl
@[simp] theorem popAnswer_bus : (popAnswer s).bus = s.bus := rfl
@[simp] theorem popAnswer_chipRegs : (popAnswer s).chipRegs = s.chipRegs := rfl
@[simp] theorem popAnswer_fifoOut : (popAnswer s).fifoOut = s.fifoOut := rfl
@[simp] theorem popAnswer_moves : (popAnswer s).moves = s.moves := rfl
@[simp] theorem popAnswer_ret : (popAnswer s).ret = s.ret := rfl
@[simp] theorem popAnswer_cond : (popAnswer s).cond = s.cond := rfl
@[simp] theorem popAnswer_job : (popAnswer s).job = s.job := rfl

/-! ### `popClear` -/

@[simp] theorem popClear_raw : (popClear s).raw = s.raw := rfl
@[simp] theorem popClear_ds : (popClear s).ds = s.ds := rfl
@[simp] theorem popClear_dec : (popClear s).dec = s.dec := rfl
@[simp] theorem popClear_decLen : (popClear s).decLen = s.decLen := rfl
@[simp] theorem popClear_decType : (popClear s).decType = s.decType := rfl
@[simp] theorem popClear_rssi : (popClear s).rssi = s.rssi := rfl
@[simp] theorem popClear_pl : (popClear s).pl = s.pl := rfl
@[simp] theorem popClear_st : (popClear s).st = s.st := rfl
@[simp] theorem popClear_frame : (popClear s).frame = s.frame := rfl
@[simp] theorem popClear_total : (popClear s).total = s.total := rfl
@[simp] theorem popClear_acc : (popClear s).acc = s.acc := rfl
@[simp] theorem popClear_accN : (popClear s).accN = s.accN := rfl
@[simp] theorem popClear_lastSent : (popClear s).lastSent = s.lastSent := rfl
@[simp] theorem popClear_lastSentLen : (popClear s).lastSentLen = s.lastSentLen := rfl
@[simp] theorem popClear_counter : (popClear s).counter = s.counter := rfl
@[simp] theorem popClear_rxState : (popClear s).rxState = s.rxState := rfl
@[simp] theorem popClear_txPhase : (popClear s).txPhase = s.txPhase := rfl
@[simp] theorem popClear_rep : (popClear s).rep = s.rep := rfl
@[simp] theorem popClear_txActive : (popClear s).txActive = s.txActive := rfl
@[simp] theorem popClear_rxFlag : (popClear s).rxFlag = s.rxFlag := rfl
@[simp] theorem popClear_irqArmed : (popClear s).irqArmed = s.irqArmed := rfl
@[simp] theorem popClear_initialized : (popClear s).initialized = s.initialized := rfl
@[simp] theorem popClear_chipMode : (popClear s).chipMode = s.chipMode := rfl
@[simp] theorem popClear_cfg : (popClear s).cfg = s.cfg := rfl
@[simp] theorem popClear_chipIn : (popClear s).chipIn = s.chipIn := rfl
@[simp] theorem popClear_clearIn : (popClear s).clearIn = s.clearIn.tail := rfl
@[simp] theorem popClear_drawn : (popClear s).drawn = s.drawn + 1 := rfl
@[simp] theorem popClear_bus : (popClear s).bus = s.bus := rfl
@[simp] theorem popClear_chipRegs : (popClear s).chipRegs = s.chipRegs := rfl
@[simp] theorem popClear_fifoOut : (popClear s).fifoOut = s.fifoOut := rfl
@[simp] theorem popClear_moves : (popClear s).moves = s.moves := rfl
@[simp] theorem popClear_ret : (popClear s).ret = s.ret := rfl
@[simp] theorem popClear_cond : (popClear s).cond = s.cond := rfl
@[simp] theorem popClear_job : (popClear s).job = s.job := rfl

/-! ### `onBus` -/

@[simp] theorem onBus_raw (ws : List Wire) : (onBus ws s).raw = s.raw := rfl
@[simp] theorem onBus_ds (ws : List Wire) : (onBus ws s).ds = s.ds := rfl
@[simp] theorem onBus_dec (ws : List Wire) : (onBus ws s).dec = s.dec := rfl
@[simp] theorem onBus_decLen (ws : List Wire) : (onBus ws s).decLen = s.decLen := rfl
@[simp] theorem onBus_decType (ws : List Wire) : (onBus ws s).decType = s.decType := rfl
@[simp] theorem onBus_rssi (ws : List Wire) : (onBus ws s).rssi = s.rssi := rfl
@[simp] theorem onBus_pl (ws : List Wire) : (onBus ws s).pl = s.pl := rfl
@[simp] theorem onBus_st (ws : List Wire) : (onBus ws s).st = s.st := rfl
@[simp] theorem onBus_frame (ws : List Wire) : (onBus ws s).frame = s.frame := rfl
@[simp] theorem onBus_total (ws : List Wire) : (onBus ws s).total = s.total := rfl
@[simp] theorem onBus_acc (ws : List Wire) : (onBus ws s).acc = s.acc := rfl
@[simp] theorem onBus_accN (ws : List Wire) : (onBus ws s).accN = s.accN := rfl
@[simp] theorem onBus_lastSent (ws : List Wire) : (onBus ws s).lastSent = s.lastSent := rfl
@[simp] theorem onBus_lastSentLen (ws : List Wire) : (onBus ws s).lastSentLen = s.lastSentLen := rfl
@[simp] theorem onBus_counter (ws : List Wire) : (onBus ws s).counter = s.counter := rfl
@[simp] theorem onBus_rxState (ws : List Wire) : (onBus ws s).rxState = s.rxState := rfl
@[simp] theorem onBus_txPhase (ws : List Wire) : (onBus ws s).txPhase = s.txPhase := rfl
@[simp] theorem onBus_rep (ws : List Wire) : (onBus ws s).rep = s.rep := rfl
@[simp] theorem onBus_txActive (ws : List Wire) : (onBus ws s).txActive = s.txActive := rfl
@[simp] theorem onBus_rxFlag (ws : List Wire) : (onBus ws s).rxFlag = s.rxFlag := rfl
@[simp] theorem onBus_irqArmed (ws : List Wire) : (onBus ws s).irqArmed = s.irqArmed := rfl
@[simp] theorem onBus_initialized (ws : List Wire) : (onBus ws s).initialized = s.initialized := rfl
@[simp] theorem onBus_chipMode (ws : List Wire) : (onBus ws s).chipMode = s.chipMode := rfl
@[simp] theorem onBus_cfg (ws : List Wire) : (onBus ws s).cfg = s.cfg := rfl
@[simp] theorem onBus_chipIn (ws : List Wire) : (onBus ws s).chipIn = s.chipIn := rfl
@[simp] theorem onBus_clearIn (ws : List Wire) : (onBus ws s).clearIn = s.clearIn := rfl
@[simp] theorem onBus_drawn (ws : List Wire) : (onBus ws s).drawn = s.drawn := rfl
@[simp] theorem onBus_bus (ws : List Wire) : (onBus ws s).bus = s.bus ++ ws := rfl
@[simp] theorem onBus_chipRegs (ws : List Wire) : (onBus ws s).chipRegs = s.chipRegs := rfl
@[simp] theorem onBus_fifoOut (ws : List Wire) : (onBus ws s).fifoOut = s.fifoOut := rfl
@[simp] theorem onBus_moves (ws : List Wire) : (onBus ws s).moves = s.moves := rfl
@[simp] theorem onBus_ret (ws : List Wire) : (onBus ws s).ret = s.ret := rfl
@[simp] theorem onBus_cond (ws : List Wire) : (onBus ws s).cond = s.cond := rfl
@[simp] theorem onBus_job (ws : List Wire) : (onBus ws s).job = s.job := rfl

/-! ### `queueFifo` -/

@[simp] theorem queueFifo_raw (bs : List Byte) : (queueFifo bs s).raw = s.raw := rfl
@[simp] theorem queueFifo_ds (bs : List Byte) : (queueFifo bs s).ds = s.ds := rfl
@[simp] theorem queueFifo_dec (bs : List Byte) : (queueFifo bs s).dec = s.dec := rfl
@[simp] theorem queueFifo_decLen (bs : List Byte) : (queueFifo bs s).decLen = s.decLen := rfl
@[simp] theorem queueFifo_decType (bs : List Byte) : (queueFifo bs s).decType = s.decType := rfl
@[simp] theorem queueFifo_rssi (bs : List Byte) : (queueFifo bs s).rssi = s.rssi := rfl
@[simp] theorem queueFifo_pl (bs : List Byte) : (queueFifo bs s).pl = s.pl := rfl
@[simp] theorem queueFifo_st (bs : List Byte) : (queueFifo bs s).st = s.st := rfl
@[simp] theorem queueFifo_frame (bs : List Byte) : (queueFifo bs s).frame = s.frame := rfl
@[simp] theorem queueFifo_total (bs : List Byte) : (queueFifo bs s).total = s.total := rfl
@[simp] theorem queueFifo_acc (bs : List Byte) : (queueFifo bs s).acc = s.acc := rfl
@[simp] theorem queueFifo_accN (bs : List Byte) : (queueFifo bs s).accN = s.accN := rfl
@[simp] theorem queueFifo_lastSent (bs : List Byte) : (queueFifo bs s).lastSent = s.lastSent := rfl
@[simp] theorem queueFifo_lastSentLen (bs : List Byte) : (queueFifo bs s).lastSentLen = s.lastSentLen := rfl
@[simp] theorem queueFifo_counter (bs : List Byte) : (queueFifo bs s).counter = s.counter := rfl
@[simp] theorem queueFifo_rxState (bs : List Byte) : (queueFifo bs s).rxState = s.rxState := rfl
@[simp] theorem queueFifo_txPhase (bs : List Byte) : (queueFifo bs s).txPhase = s.txPhase := rfl
@[simp] theorem queueFifo_rep (bs : List Byte) : (queueFifo bs s).rep = s.rep := rfl
@[simp] theorem queueFifo_txActive (bs : List Byte) : (queueFifo bs s).txActive = s.txActive := rfl
@[simp] theorem queueFifo_rxFlag (bs : List Byte) : (queueFifo bs s).rxFlag = s.rxFlag := rfl
@[simp] theorem queueFifo_irqArmed (bs : List Byte) : (queueFifo bs s).irqArmed = s.irqArmed := rfl
@[simp] theorem queueFifo_initialized (bs : List Byte) : (queueFifo bs s).initialized = s.initialized := rfl
@[simp] theorem queueFifo_chipMode (bs : List Byte) : (queueFifo bs s).chipMode = s.chipMode := rfl
@[simp] theorem queueFifo_cfg (bs : List Byte) : (queueFifo bs s).cfg = s.cfg := rfl
@[simp] theorem queueFifo_chipIn (bs : List Byte) : (queueFifo bs s).chipIn = s.chipIn := rfl
@[simp] theorem queueFifo_clearIn (bs : List Byte) : (queueFifo bs s).clearIn = s.clearIn := rfl
@[simp] theorem queueFifo_drawn (bs : List Byte) : (queueFifo bs s).drawn = s.drawn := rfl
@[simp] theorem queueFifo_bus (bs : List Byte) : (queueFifo bs s).bus = s.bus := rfl
@[simp] theorem queueFifo_chipRegs (bs : List Byte) : (queueFifo bs s).chipRegs = s.chipRegs := rfl
@[simp] theorem queueFifo_fifoOut (bs : List Byte) : (queueFifo bs s).fifoOut = s.fifoOut ++ bs := rfl
@[simp] theorem queueFifo_moves (bs : List Byte) : (queueFifo bs s).moves = s.moves := rfl
@[simp] theorem queueFifo_ret (bs : List Byte) : (queueFifo bs s).ret = s.ret := rfl
@[simp] theorem queueFifo_cond (bs : List Byte) : (queueFifo bs s).cond = s.cond := rfl
@[simp] theorem queueFifo_job (bs : List Byte) : (queueFifo bs s).job = s.job := rfl

/-! ### `chipTakes` -/

@[simp] theorem chipTakes_raw (a : ChipAddr) (v : Byte) : (chipTakes a v s).raw = s.raw := rfl
@[simp] theorem chipTakes_ds (a : ChipAddr) (v : Byte) : (chipTakes a v s).ds = s.ds := rfl
@[simp] theorem chipTakes_dec (a : ChipAddr) (v : Byte) : (chipTakes a v s).dec = s.dec := rfl
@[simp] theorem chipTakes_decLen (a : ChipAddr) (v : Byte) : (chipTakes a v s).decLen = s.decLen := rfl
@[simp] theorem chipTakes_decType (a : ChipAddr) (v : Byte) : (chipTakes a v s).decType = s.decType := rfl
@[simp] theorem chipTakes_rssi (a : ChipAddr) (v : Byte) : (chipTakes a v s).rssi = s.rssi := rfl
@[simp] theorem chipTakes_pl (a : ChipAddr) (v : Byte) : (chipTakes a v s).pl = s.pl := rfl
@[simp] theorem chipTakes_st (a : ChipAddr) (v : Byte) : (chipTakes a v s).st = s.st := rfl
@[simp] theorem chipTakes_frame (a : ChipAddr) (v : Byte) : (chipTakes a v s).frame = s.frame := rfl
@[simp] theorem chipTakes_total (a : ChipAddr) (v : Byte) : (chipTakes a v s).total = s.total := rfl
@[simp] theorem chipTakes_acc (a : ChipAddr) (v : Byte) : (chipTakes a v s).acc = s.acc := rfl
@[simp] theorem chipTakes_accN (a : ChipAddr) (v : Byte) : (chipTakes a v s).accN = s.accN := rfl
@[simp] theorem chipTakes_lastSent (a : ChipAddr) (v : Byte) : (chipTakes a v s).lastSent = s.lastSent := rfl
@[simp] theorem chipTakes_lastSentLen (a : ChipAddr) (v : Byte) : (chipTakes a v s).lastSentLen = s.lastSentLen := rfl
@[simp] theorem chipTakes_counter (a : ChipAddr) (v : Byte) : (chipTakes a v s).counter = s.counter := rfl
@[simp] theorem chipTakes_rxState (a : ChipAddr) (v : Byte) : (chipTakes a v s).rxState = s.rxState := rfl
@[simp] theorem chipTakes_txPhase (a : ChipAddr) (v : Byte) : (chipTakes a v s).txPhase = s.txPhase := rfl
@[simp] theorem chipTakes_rep (a : ChipAddr) (v : Byte) : (chipTakes a v s).rep = s.rep := rfl
@[simp] theorem chipTakes_txActive (a : ChipAddr) (v : Byte) : (chipTakes a v s).txActive = s.txActive := rfl
@[simp] theorem chipTakes_rxFlag (a : ChipAddr) (v : Byte) : (chipTakes a v s).rxFlag = s.rxFlag := rfl
@[simp] theorem chipTakes_irqArmed (a : ChipAddr) (v : Byte) : (chipTakes a v s).irqArmed = s.irqArmed := rfl
@[simp] theorem chipTakes_initialized (a : ChipAddr) (v : Byte) : (chipTakes a v s).initialized = s.initialized := rfl
@[simp] theorem chipTakes_chipMode (a : ChipAddr) (v : Byte) : (chipTakes a v s).chipMode = s.chipMode := rfl
@[simp] theorem chipTakes_cfg (a : ChipAddr) (v : Byte) : (chipTakes a v s).cfg = s.cfg := rfl
@[simp] theorem chipTakes_chipIn (a : ChipAddr) (v : Byte) : (chipTakes a v s).chipIn = s.chipIn := rfl
@[simp] theorem chipTakes_clearIn (a : ChipAddr) (v : Byte) : (chipTakes a v s).clearIn = s.clearIn := rfl
@[simp] theorem chipTakes_drawn (a : ChipAddr) (v : Byte) : (chipTakes a v s).drawn = s.drawn := rfl
@[simp] theorem chipTakes_bus (a : ChipAddr) (v : Byte) : (chipTakes a v s).bus = s.bus := rfl
@[simp] theorem chipTakes_chipRegs (a : ChipAddr) (v : Byte) :
    (chipTakes a v s).chipRegs = if a = s.cfg.aFifo then s.chipRegs else s.chipRegs.write a.toNat v := rfl
@[simp] theorem chipTakes_fifoOut (a : ChipAddr) (v : Byte) :
    (chipTakes a v s).fifoOut = if a = s.cfg.aFifo then s.fifoOut ++ [v] else s.fifoOut := rfl
@[simp] theorem chipTakes_moves (a : ChipAddr) (v : Byte) : (chipTakes a v s).moves = s.moves := rfl
@[simp] theorem chipTakes_ret (a : ChipAddr) (v : Byte) : (chipTakes a v s).ret = s.ret := rfl
@[simp] theorem chipTakes_cond (a : ChipAddr) (v : Byte) : (chipTakes a v s).cond = s.cond := rfl
@[simp] theorem chipTakes_job (a : ChipAddr) (v : Byte) : (chipTakes a v s).job = s.job := rfl

/-! ### `respond` -/

@[simp] theorem respond_raw (r : Ret) : (respond r s).raw = s.raw := rfl
@[simp] theorem respond_ds (r : Ret) : (respond r s).ds = s.ds := rfl
@[simp] theorem respond_dec (r : Ret) : (respond r s).dec = s.dec := rfl
@[simp] theorem respond_decLen (r : Ret) : (respond r s).decLen = s.decLen := rfl
@[simp] theorem respond_decType (r : Ret) : (respond r s).decType = s.decType := rfl
@[simp] theorem respond_rssi (r : Ret) : (respond r s).rssi = s.rssi := rfl
@[simp] theorem respond_pl (r : Ret) : (respond r s).pl = s.pl := rfl
@[simp] theorem respond_st (r : Ret) : (respond r s).st = s.st := rfl
@[simp] theorem respond_frame (r : Ret) : (respond r s).frame = s.frame := rfl
@[simp] theorem respond_total (r : Ret) : (respond r s).total = s.total := rfl
@[simp] theorem respond_acc (r : Ret) : (respond r s).acc = s.acc := rfl
@[simp] theorem respond_accN (r : Ret) : (respond r s).accN = s.accN := rfl
@[simp] theorem respond_lastSent (r : Ret) : (respond r s).lastSent = s.lastSent := rfl
@[simp] theorem respond_lastSentLen (r : Ret) : (respond r s).lastSentLen = s.lastSentLen := rfl
@[simp] theorem respond_counter (r : Ret) : (respond r s).counter = s.counter := rfl
@[simp] theorem respond_rxState (r : Ret) : (respond r s).rxState = s.rxState := rfl
@[simp] theorem respond_txPhase (r : Ret) : (respond r s).txPhase = s.txPhase := rfl
@[simp] theorem respond_rep (r : Ret) : (respond r s).rep = s.rep := rfl
@[simp] theorem respond_txActive (r : Ret) : (respond r s).txActive = s.txActive := rfl
@[simp] theorem respond_rxFlag (r : Ret) : (respond r s).rxFlag = s.rxFlag := rfl
@[simp] theorem respond_irqArmed (r : Ret) : (respond r s).irqArmed = s.irqArmed := rfl
@[simp] theorem respond_initialized (r : Ret) : (respond r s).initialized = s.initialized := rfl
@[simp] theorem respond_chipMode (r : Ret) : (respond r s).chipMode = s.chipMode := rfl
@[simp] theorem respond_cfg (r : Ret) : (respond r s).cfg = s.cfg := rfl
@[simp] theorem respond_chipIn (r : Ret) : (respond r s).chipIn = s.chipIn := rfl
@[simp] theorem respond_clearIn (r : Ret) : (respond r s).clearIn = s.clearIn := rfl
@[simp] theorem respond_drawn (r : Ret) : (respond r s).drawn = s.drawn := rfl
@[simp] theorem respond_bus (r : Ret) : (respond r s).bus = s.bus := rfl
@[simp] theorem respond_chipRegs (r : Ret) : (respond r s).chipRegs = s.chipRegs := rfl
@[simp] theorem respond_fifoOut (r : Ret) : (respond r s).fifoOut = s.fifoOut := rfl
@[simp] theorem respond_moves (r : Ret) : (respond r s).moves = s.moves := rfl
@[simp] theorem respond_ret (r : Ret) : (respond r s).ret = r := rfl
@[simp] theorem respond_cond (r : Ret) : (respond r s).cond = none := rfl
@[simp] theorem respond_job (r : Ret) : (respond r s).job = s.job := rfl

/-! ### `raise` -/

@[simp] theorem raise_raw (c : Condition) : (raise c s).raw = s.raw := rfl
@[simp] theorem raise_ds (c : Condition) : (raise c s).ds = s.ds := rfl
@[simp] theorem raise_dec (c : Condition) : (raise c s).dec = s.dec := rfl
@[simp] theorem raise_decLen (c : Condition) : (raise c s).decLen = s.decLen := rfl
@[simp] theorem raise_decType (c : Condition) : (raise c s).decType = s.decType := rfl
@[simp] theorem raise_rssi (c : Condition) : (raise c s).rssi = s.rssi := rfl
@[simp] theorem raise_pl (c : Condition) : (raise c s).pl = s.pl := rfl
@[simp] theorem raise_st (c : Condition) : (raise c s).st = s.st := rfl
@[simp] theorem raise_frame (c : Condition) : (raise c s).frame = s.frame := rfl
@[simp] theorem raise_total (c : Condition) : (raise c s).total = s.total := rfl
@[simp] theorem raise_acc (c : Condition) : (raise c s).acc = s.acc := rfl
@[simp] theorem raise_accN (c : Condition) : (raise c s).accN = s.accN := rfl
@[simp] theorem raise_lastSent (c : Condition) : (raise c s).lastSent = s.lastSent := rfl
@[simp] theorem raise_lastSentLen (c : Condition) : (raise c s).lastSentLen = s.lastSentLen := rfl
@[simp] theorem raise_counter (c : Condition) : (raise c s).counter = s.counter := rfl
@[simp] theorem raise_rxState (c : Condition) : (raise c s).rxState = s.rxState := rfl
@[simp] theorem raise_txPhase (c : Condition) : (raise c s).txPhase = s.txPhase := rfl
@[simp] theorem raise_rep (c : Condition) : (raise c s).rep = s.rep := rfl
@[simp] theorem raise_txActive (c : Condition) : (raise c s).txActive = s.txActive := rfl
@[simp] theorem raise_rxFlag (c : Condition) : (raise c s).rxFlag = s.rxFlag := rfl
@[simp] theorem raise_irqArmed (c : Condition) : (raise c s).irqArmed = s.irqArmed := rfl
@[simp] theorem raise_initialized (c : Condition) : (raise c s).initialized = s.initialized := rfl
@[simp] theorem raise_chipMode (c : Condition) : (raise c s).chipMode = s.chipMode := rfl
@[simp] theorem raise_cfg (c : Condition) : (raise c s).cfg = s.cfg := rfl
@[simp] theorem raise_chipIn (c : Condition) : (raise c s).chipIn = s.chipIn := rfl
@[simp] theorem raise_clearIn (c : Condition) : (raise c s).clearIn = s.clearIn := rfl
@[simp] theorem raise_drawn (c : Condition) : (raise c s).drawn = s.drawn := rfl
@[simp] theorem raise_bus (c : Condition) : (raise c s).bus = s.bus := rfl
@[simp] theorem raise_chipRegs (c : Condition) : (raise c s).chipRegs = s.chipRegs := rfl
@[simp] theorem raise_fifoOut (c : Condition) : (raise c s).fifoOut = s.fifoOut := rfl
@[simp] theorem raise_moves (c : Condition) : (raise c s).moves = s.moves := rfl
@[simp] theorem raise_ret (c : Condition) : (raise c s).ret = .bool false := rfl
@[simp] theorem raise_cond (c : Condition) : (raise c s).cond = some c := rfl
@[simp] theorem raise_job (c : Condition) : (raise c s).job = s.job := rfl

/-! ### `withMoves` -/

@[simp] theorem withMoves_raw (ms : List Move) : (withMoves ms s).raw = s.raw := rfl
@[simp] theorem withMoves_ds (ms : List Move) : (withMoves ms s).ds = s.ds := rfl
@[simp] theorem withMoves_dec (ms : List Move) : (withMoves ms s).dec = s.dec := rfl
@[simp] theorem withMoves_decLen (ms : List Move) : (withMoves ms s).decLen = s.decLen := rfl
@[simp] theorem withMoves_decType (ms : List Move) : (withMoves ms s).decType = s.decType := rfl
@[simp] theorem withMoves_rssi (ms : List Move) : (withMoves ms s).rssi = s.rssi := rfl
@[simp] theorem withMoves_pl (ms : List Move) : (withMoves ms s).pl = s.pl := rfl
@[simp] theorem withMoves_st (ms : List Move) : (withMoves ms s).st = s.st := rfl
@[simp] theorem withMoves_frame (ms : List Move) : (withMoves ms s).frame = s.frame := rfl
@[simp] theorem withMoves_total (ms : List Move) : (withMoves ms s).total = s.total := rfl
@[simp] theorem withMoves_acc (ms : List Move) : (withMoves ms s).acc = s.acc := rfl
@[simp] theorem withMoves_accN (ms : List Move) : (withMoves ms s).accN = s.accN := rfl
@[simp] theorem withMoves_lastSent (ms : List Move) : (withMoves ms s).lastSent = s.lastSent := rfl
@[simp] theorem withMoves_lastSentLen (ms : List Move) : (withMoves ms s).lastSentLen = s.lastSentLen := rfl
@[simp] theorem withMoves_counter (ms : List Move) : (withMoves ms s).counter = s.counter := rfl
@[simp] theorem withMoves_rxState (ms : List Move) : (withMoves ms s).rxState = s.rxState := rfl
@[simp] theorem withMoves_txPhase (ms : List Move) : (withMoves ms s).txPhase = s.txPhase := rfl
@[simp] theorem withMoves_rep (ms : List Move) : (withMoves ms s).rep = s.rep := rfl
@[simp] theorem withMoves_txActive (ms : List Move) : (withMoves ms s).txActive = s.txActive := rfl
@[simp] theorem withMoves_rxFlag (ms : List Move) : (withMoves ms s).rxFlag = s.rxFlag := rfl
@[simp] theorem withMoves_irqArmed (ms : List Move) : (withMoves ms s).irqArmed = s.irqArmed := rfl
@[simp] theorem withMoves_initialized (ms : List Move) : (withMoves ms s).initialized = s.initialized := rfl
@[simp] theorem withMoves_chipMode (ms : List Move) : (withMoves ms s).chipMode = s.chipMode := rfl
@[simp] theorem withMoves_cfg (ms : List Move) : (withMoves ms s).cfg = s.cfg := rfl
@[simp] theorem withMoves_chipIn (ms : List Move) : (withMoves ms s).chipIn = s.chipIn := rfl
@[simp] theorem withMoves_clearIn (ms : List Move) : (withMoves ms s).clearIn = s.clearIn := rfl
@[simp] theorem withMoves_drawn (ms : List Move) : (withMoves ms s).drawn = s.drawn := rfl
@[simp] theorem withMoves_bus (ms : List Move) : (withMoves ms s).bus = s.bus := rfl
@[simp] theorem withMoves_chipRegs (ms : List Move) : (withMoves ms s).chipRegs = s.chipRegs := rfl
@[simp] theorem withMoves_fifoOut (ms : List Move) : (withMoves ms s).fifoOut = s.fifoOut := rfl
@[simp] theorem withMoves_moves (ms : List Move) : (withMoves ms s).moves = ms := rfl
@[simp] theorem withMoves_ret (ms : List Move) : (withMoves ms s).ret = s.ret := rfl
@[simp] theorem withMoves_cond (ms : List Move) : (withMoves ms s).cond = s.cond := rfl
@[simp] theorem withMoves_job (ms : List Move) : (withMoves ms s).job = s.job := rfl

/-! ### `storePl` -/

@[simp] theorem storePl_raw (bs : List Byte) : (storePl bs s).raw = s.raw := rfl
@[simp] theorem storePl_ds (bs : List Byte) : (storePl bs s).ds = s.ds := rfl
@[simp] theorem storePl_dec (bs : List Byte) : (storePl bs s).dec = s.dec := rfl
@[simp] theorem storePl_decLen (bs : List Byte) : (storePl bs s).decLen = s.decLen := rfl
@[simp] theorem storePl_decType (bs : List Byte) : (storePl bs s).decType = s.decType := rfl
@[simp] theorem storePl_rssi (bs : List Byte) : (storePl bs s).rssi = s.rssi := rfl
@[simp] theorem storePl_pl (bs : List Byte) : (storePl bs s).pl = overlay s.pl bs := rfl
@[simp] theorem storePl_st (bs : List Byte) : (storePl bs s).st = s.st := rfl
@[simp] theorem storePl_frame (bs : List Byte) : (storePl bs s).frame = s.frame := rfl
@[simp] theorem storePl_total (bs : List Byte) : (storePl bs s).total = s.total := rfl
@[simp] theorem storePl_acc (bs : List Byte) : (storePl bs s).acc = s.acc := rfl
@[simp] theorem storePl_accN (bs : List Byte) : (storePl bs s).accN = s.accN := rfl
@[simp] theorem storePl_lastSent (bs : List Byte) : (storePl bs s).lastSent = s.lastSent := rfl
@[simp] theorem storePl_lastSentLen (bs : List Byte) : (storePl bs s).lastSentLen = s.lastSentLen := rfl
@[simp] theorem storePl_counter (bs : List Byte) : (storePl bs s).counter = s.counter := rfl
@[simp] theorem storePl_rxState (bs : List Byte) : (storePl bs s).rxState = s.rxState := rfl
@[simp] theorem storePl_txPhase (bs : List Byte) : (storePl bs s).txPhase = s.txPhase := rfl
@[simp] theorem storePl_rep (bs : List Byte) : (storePl bs s).rep = s.rep := rfl
@[simp] theorem storePl_txActive (bs : List Byte) : (storePl bs s).txActive = s.txActive := rfl
@[simp] theorem storePl_rxFlag (bs : List Byte) : (storePl bs s).rxFlag = s.rxFlag := rfl
@[simp] theorem storePl_irqArmed (bs : List Byte) : (storePl bs s).irqArmed = s.irqArmed := rfl
@[simp] theorem storePl_initialized (bs : List Byte) : (storePl bs s).initialized = s.initialized := rfl
@[simp] theorem storePl_chipMode (bs : List Byte) : (storePl bs s).chipMode = s.chipMode := rfl
@[simp] theorem storePl_cfg (bs : List Byte) : (storePl bs s).cfg = s.cfg := rfl
@[simp] theorem storePl_chipIn (bs : List Byte) : (storePl bs s).chipIn = s.chipIn := rfl
@[simp] theorem storePl_clearIn (bs : List Byte) : (storePl bs s).clearIn = s.clearIn := rfl
@[simp] theorem storePl_drawn (bs : List Byte) : (storePl bs s).drawn = s.drawn := rfl
@[simp] theorem storePl_bus (bs : List Byte) : (storePl bs s).bus = s.bus := rfl
@[simp] theorem storePl_chipRegs (bs : List Byte) : (storePl bs s).chipRegs = s.chipRegs := rfl
@[simp] theorem storePl_fifoOut (bs : List Byte) : (storePl bs s).fifoOut = s.fifoOut := rfl
@[simp] theorem storePl_moves (bs : List Byte) : (storePl bs s).moves = s.moves := rfl
@[simp] theorem storePl_ret (bs : List Byte) : (storePl bs s).ret = s.ret := rfl
@[simp] theorem storePl_cond (bs : List Byte) : (storePl bs s).cond = s.cond := rfl
@[simp] theorem storePl_job (bs : List Byte) : (storePl bs s).job = s.job := rfl

/-! ### `storeWindow` -/

@[simp] theorem storeWindow_raw (w : List Byte) : (storeWindow w s).raw = overlay s.raw w := rfl
@[simp] theorem storeWindow_ds (w : List Byte) :
    (storeWindow w s).ds = overlay s.ds (revBuf (destuff (overlay s.raw w).bytes).1) := rfl
@[simp] theorem storeWindow_dec (w : List Byte) : (storeWindow w s).dec = s.dec := rfl
@[simp] theorem storeWindow_decLen (w : List Byte) : (storeWindow w s).decLen = s.decLen := rfl
@[simp] theorem storeWindow_decType (w : List Byte) : (storeWindow w s).decType = s.decType := rfl
@[simp] theorem storeWindow_rssi (w : List Byte) : (storeWindow w s).rssi = s.rssi := rfl
@[simp] theorem storeWindow_pl (w : List Byte) : (storeWindow w s).pl = s.pl := rfl
@[simp] theorem storeWindow_st (w : List Byte) : (storeWindow w s).st = s.st := rfl
@[simp] theorem storeWindow_frame (w : List Byte) : (storeWindow w s).frame = s.frame := rfl
@[simp] theorem storeWindow_total (w : List Byte) : (storeWindow w s).total = s.total := rfl
@[simp] theorem storeWindow_acc (w : List Byte) : (storeWindow w s).acc = s.acc := rfl
@[simp] theorem storeWindow_accN (w : List Byte) : (storeWindow w s).accN = s.accN := rfl
@[simp] theorem storeWindow_lastSent (w : List Byte) : (storeWindow w s).lastSent = s.lastSent := rfl
@[simp] theorem storeWindow_lastSentLen (w : List Byte) : (storeWindow w s).lastSentLen = s.lastSentLen := rfl
@[simp] theorem storeWindow_counter (w : List Byte) : (storeWindow w s).counter = s.counter := rfl
@[simp] theorem storeWindow_rxState (w : List Byte) : (storeWindow w s).rxState = s.rxState := rfl
@[simp] theorem storeWindow_txPhase (w : List Byte) : (storeWindow w s).txPhase = s.txPhase := rfl
@[simp] theorem storeWindow_rep (w : List Byte) : (storeWindow w s).rep = s.rep := rfl
@[simp] theorem storeWindow_txActive (w : List Byte) : (storeWindow w s).txActive = s.txActive := rfl
@[simp] theorem storeWindow_rxFlag (w : List Byte) : (storeWindow w s).rxFlag = s.rxFlag := rfl
@[simp] theorem storeWindow_irqArmed (w : List Byte) : (storeWindow w s).irqArmed = s.irqArmed := rfl
@[simp] theorem storeWindow_initialized (w : List Byte) : (storeWindow w s).initialized = s.initialized := rfl
@[simp] theorem storeWindow_chipMode (w : List Byte) : (storeWindow w s).chipMode = s.chipMode := rfl
@[simp] theorem storeWindow_cfg (w : List Byte) : (storeWindow w s).cfg = s.cfg := rfl
@[simp] theorem storeWindow_chipIn (w : List Byte) : (storeWindow w s).chipIn = s.chipIn := rfl
@[simp] theorem storeWindow_clearIn (w : List Byte) : (storeWindow w s).clearIn = s.clearIn := rfl
@[simp] theorem storeWindow_drawn (w : List Byte) : (storeWindow w s).drawn = s.drawn := rfl
@[simp] theorem storeWindow_bus (w : List Byte) : (storeWindow w s).bus = s.bus := rfl
@[simp] theorem storeWindow_chipRegs (w : List Byte) : (storeWindow w s).chipRegs = s.chipRegs := rfl
@[simp] theorem storeWindow_fifoOut (w : List Byte) : (storeWindow w s).fifoOut = s.fifoOut := rfl
@[simp] theorem storeWindow_moves (w : List Byte) : (storeWindow w s).moves = s.moves := rfl
@[simp] theorem storeWindow_ret (w : List Byte) : (storeWindow w s).ret = s.ret := rfl
@[simp] theorem storeWindow_cond (w : List Byte) : (storeWindow w s).cond = s.cond := rfl
@[simp] theorem storeWindow_job (w : List Byte) : (storeWindow w s).job = s.job := rfl

/-! ### `storeSt` -/

@[simp] theorem storeSt_raw (bs : List Byte) : (storeSt bs s).raw = s.raw := rfl
@[simp] theorem storeSt_ds (bs : List Byte) : (storeSt bs s).ds = s.ds := rfl
@[simp] theorem storeSt_dec (bs : List Byte) : (storeSt bs s).dec = s.dec := rfl
@[simp] theorem storeSt_decLen (bs : List Byte) : (storeSt bs s).decLen = s.decLen := rfl
@[simp] theorem storeSt_decType (bs : List Byte) : (storeSt bs s).decType = s.decType := rfl
@[simp] theorem storeSt_rssi (bs : List Byte) : (storeSt bs s).rssi = s.rssi := rfl
@[simp] theorem storeSt_pl (bs : List Byte) : (storeSt bs s).pl = s.pl := rfl
@[simp] theorem storeSt_st (bs : List Byte) : (storeSt bs s).st = overlay s.st bs := rfl
@[simp] theorem storeSt_frame (bs : List Byte) : (storeSt bs s).frame = s.frame := rfl
@[simp] theorem storeSt_total (bs : List Byte) : (storeSt bs s).total = s.total := rfl
@[simp] theorem storeSt_acc (bs : List Byte) : (storeSt bs s).acc = s.acc := rfl
@[simp] theorem storeSt_accN (bs : List Byte) : (storeSt bs s).accN = s.accN := rfl
@[simp] theorem storeSt_lastSent (bs : List Byte) : (storeSt bs s).lastSent = s.lastSent := rfl
@[simp] theorem storeSt_lastSentLen (bs : List Byte) : (storeSt bs s).lastSentLen = s.lastSentLen := rfl
@[simp] theorem storeSt_counter (bs : List Byte) : (storeSt bs s).counter = s.counter := rfl
@[simp] theorem storeSt_rxState (bs : List Byte) : (storeSt bs s).rxState = s.rxState := rfl
@[simp] theorem storeSt_txPhase (bs : List Byte) : (storeSt bs s).txPhase = s.txPhase := rfl
@[simp] theorem storeSt_rep (bs : List Byte) : (storeSt bs s).rep = s.rep := rfl
@[simp] theorem storeSt_txActive (bs : List Byte) : (storeSt bs s).txActive = s.txActive := rfl
@[simp] theorem storeSt_rxFlag (bs : List Byte) : (storeSt bs s).rxFlag = s.rxFlag := rfl
@[simp] theorem storeSt_irqArmed (bs : List Byte) : (storeSt bs s).irqArmed = s.irqArmed := rfl
@[simp] theorem storeSt_initialized (bs : List Byte) : (storeSt bs s).initialized = s.initialized := rfl
@[simp] theorem storeSt_chipMode (bs : List Byte) : (storeSt bs s).chipMode = s.chipMode := rfl
@[simp] theorem storeSt_cfg (bs : List Byte) : (storeSt bs s).cfg = s.cfg := rfl
@[simp] theorem storeSt_chipIn (bs : List Byte) : (storeSt bs s).chipIn = s.chipIn := rfl
@[simp] theorem storeSt_clearIn (bs : List Byte) : (storeSt bs s).clearIn = s.clearIn := rfl
@[simp] theorem storeSt_drawn (bs : List Byte) : (storeSt bs s).drawn = s.drawn := rfl
@[simp] theorem storeSt_bus (bs : List Byte) : (storeSt bs s).bus = s.bus := rfl
@[simp] theorem storeSt_chipRegs (bs : List Byte) : (storeSt bs s).chipRegs = s.chipRegs := rfl
@[simp] theorem storeSt_fifoOut (bs : List Byte) : (storeSt bs s).fifoOut = s.fifoOut := rfl
@[simp] theorem storeSt_moves (bs : List Byte) : (storeSt bs s).moves = s.moves := rfl
@[simp] theorem storeSt_ret (bs : List Byte) : (storeSt bs s).ret = s.ret := rfl
@[simp] theorem storeSt_cond (bs : List Byte) : (storeSt bs s).cond = s.cond := rfl
@[simp] theorem storeSt_job (bs : List Byte) : (storeSt bs s).job = s.job := rfl

/-! ### `startHandling` -/

@[simp] theorem startHandling_raw : (startHandling s).raw = s.raw := rfl
@[simp] theorem startHandling_ds : (startHandling s).ds = s.ds := rfl
@[simp] theorem startHandling_dec : (startHandling s).dec = s.dec := rfl
@[simp] theorem startHandling_decLen : (startHandling s).decLen = s.decLen := rfl
@[simp] theorem startHandling_decType : (startHandling s).decType = s.decType := rfl
@[simp] theorem startHandling_rssi : (startHandling s).rssi = s.rssi := rfl
@[simp] theorem startHandling_pl : (startHandling s).pl = s.pl := rfl
@[simp] theorem startHandling_st : (startHandling s).st = s.st := rfl
@[simp] theorem startHandling_frame : (startHandling s).frame = s.frame := rfl
@[simp] theorem startHandling_total : (startHandling s).total = s.total := rfl
@[simp] theorem startHandling_acc : (startHandling s).acc = s.acc := rfl
@[simp] theorem startHandling_accN : (startHandling s).accN = s.accN := rfl
@[simp] theorem startHandling_lastSent : (startHandling s).lastSent = s.lastSent := rfl
@[simp] theorem startHandling_lastSentLen : (startHandling s).lastSentLen = s.lastSentLen := rfl
@[simp] theorem startHandling_counter : (startHandling s).counter = s.counter := rfl
@[simp] theorem startHandling_rxState : (startHandling s).rxState = .receiving := rfl
@[simp] theorem startHandling_txPhase : (startHandling s).txPhase = s.txPhase := rfl
@[simp] theorem startHandling_rep : (startHandling s).rep = s.rep := rfl
@[simp] theorem startHandling_txActive : (startHandling s).txActive = s.txActive := rfl
@[simp] theorem startHandling_rxFlag : (startHandling s).rxFlag = false := rfl
@[simp] theorem startHandling_irqArmed : (startHandling s).irqArmed = s.irqArmed := rfl
@[simp] theorem startHandling_initialized : (startHandling s).initialized = s.initialized := rfl
@[simp] theorem startHandling_chipMode : (startHandling s).chipMode = s.chipMode := rfl
@[simp] theorem startHandling_cfg : (startHandling s).cfg = s.cfg := rfl
@[simp] theorem startHandling_chipIn : (startHandling s).chipIn = s.chipIn := rfl
@[simp] theorem startHandling_clearIn : (startHandling s).clearIn = s.clearIn := rfl
@[simp] theorem startHandling_drawn : (startHandling s).drawn = s.drawn := rfl
@[simp] theorem startHandling_bus : (startHandling s).bus = s.bus := rfl
@[simp] theorem startHandling_chipRegs : (startHandling s).chipRegs = s.chipRegs := rfl
@[simp] theorem startHandling_fifoOut : (startHandling s).fifoOut = s.fifoOut := rfl
@[simp] theorem startHandling_moves : (startHandling s).moves = s.moves := rfl
@[simp] theorem startHandling_ret : (startHandling s).ret = s.ret := rfl
@[simp] theorem startHandling_cond : (startHandling s).cond = s.cond := rfl
@[simp] theorem startHandling_job : (startHandling s).job = s.job := rfl

/-! ### `armReceive` -/

@[simp] theorem armReceive_raw : (armReceive s).raw = s.raw := rfl
@[simp] theorem armReceive_ds : (armReceive s).ds = s.ds := rfl
@[simp] theorem armReceive_dec : (armReceive s).dec = s.dec := rfl
@[simp] theorem armReceive_decLen : (armReceive s).decLen = s.decLen := rfl
@[simp] theorem armReceive_decType : (armReceive s).decType = s.decType := rfl
@[simp] theorem armReceive_rssi : (armReceive s).rssi = s.rssi := rfl
@[simp] theorem armReceive_pl : (armReceive s).pl = s.pl := rfl
@[simp] theorem armReceive_st : (armReceive s).st = s.st := rfl
@[simp] theorem armReceive_frame : (armReceive s).frame = s.frame := rfl
@[simp] theorem armReceive_total : (armReceive s).total = s.total := rfl
@[simp] theorem armReceive_acc : (armReceive s).acc = s.acc := rfl
@[simp] theorem armReceive_accN : (armReceive s).accN = s.accN := rfl
@[simp] theorem armReceive_lastSent : (armReceive s).lastSent = s.lastSent := rfl
@[simp] theorem armReceive_lastSentLen : (armReceive s).lastSentLen = s.lastSentLen := rfl
@[simp] theorem armReceive_counter : (armReceive s).counter = s.counter := rfl
@[simp] theorem armReceive_rxState : (armReceive s).rxState = .idle := rfl
@[simp] theorem armReceive_txPhase : (armReceive s).txPhase = s.txPhase := rfl
@[simp] theorem armReceive_rep : (armReceive s).rep = s.rep := rfl
@[simp] theorem armReceive_txActive : (armReceive s).txActive = s.txActive := rfl
@[simp] theorem armReceive_rxFlag : (armReceive s).rxFlag = false := rfl
@[simp] theorem armReceive_irqArmed : (armReceive s).irqArmed = true := rfl
@[simp] theorem armReceive_initialized : (armReceive s).initialized = true := rfl
@[simp] theorem armReceive_chipMode : (armReceive s).chipMode = s.chipMode := rfl
@[simp] theorem armReceive_cfg : (armReceive s).cfg = s.cfg := rfl
@[simp] theorem armReceive_chipIn : (armReceive s).chipIn = s.chipIn := rfl
@[simp] theorem armReceive_clearIn : (armReceive s).clearIn = s.clearIn := rfl
@[simp] theorem armReceive_drawn : (armReceive s).drawn = s.drawn := rfl
@[simp] theorem armReceive_bus : (armReceive s).bus = s.bus := rfl
@[simp] theorem armReceive_chipRegs : (armReceive s).chipRegs = s.chipRegs := rfl
@[simp] theorem armReceive_fifoOut : (armReceive s).fifoOut = s.fifoOut := rfl
@[simp] theorem armReceive_moves : (armReceive s).moves = s.moves := rfl
@[simp] theorem armReceive_ret : (armReceive s).ret = s.ret := rfl
@[simp] theorem armReceive_cond : (armReceive s).cond = s.cond := rfl
@[simp] theorem armReceive_job : (armReceive s).job = s.job := rfl

/-! ### `loadFrame` -/

@[simp] theorem loadFrame_raw : (loadFrame s).raw = s.raw := rfl
@[simp] theorem loadFrame_ds : (loadFrame s).ds = s.ds := rfl
@[simp] theorem loadFrame_dec : (loadFrame s).dec = s.dec := rfl
@[simp] theorem loadFrame_decLen : (loadFrame s).decLen = s.decLen := rfl
@[simp] theorem loadFrame_decType : (loadFrame s).decType = s.decType := rfl
@[simp] theorem loadFrame_rssi : (loadFrame s).rssi = s.rssi := rfl
@[simp] theorem loadFrame_pl : (loadFrame s).pl = s.pl := rfl
@[simp] theorem loadFrame_st : (loadFrame s).st = s.st := rfl
@[simp] theorem loadFrame_frame : (loadFrame s).frame = overlay s.frame (Config.sync :: s.job.payload) := rfl
@[simp] theorem loadFrame_total : (loadFrame s).total = BitVec.ofNat 8 (totalBits s.job.payload.length s.job.v) := rfl
@[simp] theorem loadFrame_acc : (loadFrame s).acc = 0 := rfl
@[simp] theorem loadFrame_accN : (loadFrame s).accN = 0 := rfl
@[simp] theorem loadFrame_lastSent : (loadFrame s).lastSent = s.lastSent := rfl
@[simp] theorem loadFrame_lastSentLen : (loadFrame s).lastSentLen = s.lastSentLen := rfl
@[simp] theorem loadFrame_counter : (loadFrame s).counter = s.counter := rfl
@[simp] theorem loadFrame_rxState : (loadFrame s).rxState = s.rxState := rfl
@[simp] theorem loadFrame_txPhase : (loadFrame s).txPhase = s.txPhase := rfl
@[simp] theorem loadFrame_rep : (loadFrame s).rep = 0 := rfl
@[simp] theorem loadFrame_txActive : (loadFrame s).txActive = false := rfl
@[simp] theorem loadFrame_rxFlag : (loadFrame s).rxFlag = s.rxFlag := rfl
@[simp] theorem loadFrame_irqArmed : (loadFrame s).irqArmed = s.irqArmed := rfl
@[simp] theorem loadFrame_initialized : (loadFrame s).initialized = s.initialized := rfl
@[simp] theorem loadFrame_chipMode : (loadFrame s).chipMode = s.chipMode := rfl
@[simp] theorem loadFrame_cfg : (loadFrame s).cfg = s.cfg := rfl
@[simp] theorem loadFrame_chipIn : (loadFrame s).chipIn = s.chipIn := rfl
@[simp] theorem loadFrame_clearIn : (loadFrame s).clearIn = s.clearIn := rfl
@[simp] theorem loadFrame_drawn : (loadFrame s).drawn = s.drawn := rfl
@[simp] theorem loadFrame_bus : (loadFrame s).bus = s.bus := rfl
@[simp] theorem loadFrame_chipRegs : (loadFrame s).chipRegs = s.chipRegs := rfl
@[simp] theorem loadFrame_fifoOut : (loadFrame s).fifoOut = s.fifoOut := rfl
@[simp] theorem loadFrame_moves : (loadFrame s).moves = s.moves := rfl
@[simp] theorem loadFrame_ret : (loadFrame s).ret = s.ret := rfl
@[simp] theorem loadFrame_cond : (loadFrame s).cond = s.cond := rfl
@[simp] theorem loadFrame_job : (loadFrame s).job = s.job := rfl

/-! ### `snapshot` -/

@[simp] theorem snapshot_raw : (snapshot s).raw = s.raw := rfl
@[simp] theorem snapshot_ds : (snapshot s).ds = s.ds := rfl
@[simp] theorem snapshot_dec : (snapshot s).dec = s.dec := rfl
@[simp] theorem snapshot_decLen : (snapshot s).decLen = s.decLen := rfl
@[simp] theorem snapshot_decType : (snapshot s).decType = s.decType := rfl
@[simp] theorem snapshot_rssi : (snapshot s).rssi = s.rssi := rfl
@[simp] theorem snapshot_pl : (snapshot s).pl = s.pl := rfl
@[simp] theorem snapshot_st : (snapshot s).st = s.st := rfl
@[simp] theorem snapshot_frame : (snapshot s).frame = s.frame := rfl
@[simp] theorem snapshot_total : (snapshot s).total = s.total := rfl
@[simp] theorem snapshot_acc : (snapshot s).acc = s.acc := rfl
@[simp] theorem snapshot_accN : (snapshot s).accN = s.accN := rfl
@[simp] theorem snapshot_lastSent :
    (snapshot s).lastSent = overlay s.lastSent (s.frame.bytes.take (1 + s.job.payload.length)) := rfl
@[simp] theorem snapshot_lastSentLen : (snapshot s).lastSentLen = 1 + s.job.payload.length := rfl
@[simp] theorem snapshot_counter : (snapshot s).counter = s.counter := rfl
@[simp] theorem snapshot_rxState : (snapshot s).rxState = s.rxState := rfl
@[simp] theorem snapshot_txPhase : (snapshot s).txPhase = s.txPhase := rfl
@[simp] theorem snapshot_rep : (snapshot s).rep = s.rep := rfl
@[simp] theorem snapshot_txActive : (snapshot s).txActive = s.txActive := rfl
@[simp] theorem snapshot_rxFlag : (snapshot s).rxFlag = s.rxFlag := rfl
@[simp] theorem snapshot_irqArmed : (snapshot s).irqArmed = s.irqArmed := rfl
@[simp] theorem snapshot_initialized : (snapshot s).initialized = s.initialized := rfl
@[simp] theorem snapshot_chipMode : (snapshot s).chipMode = s.chipMode := rfl
@[simp] theorem snapshot_cfg : (snapshot s).cfg = s.cfg := rfl
@[simp] theorem snapshot_chipIn : (snapshot s).chipIn = s.chipIn := rfl
@[simp] theorem snapshot_clearIn : (snapshot s).clearIn = s.clearIn := rfl
@[simp] theorem snapshot_drawn : (snapshot s).drawn = s.drawn := rfl
@[simp] theorem snapshot_bus : (snapshot s).bus = s.bus := rfl
@[simp] theorem snapshot_chipRegs : (snapshot s).chipRegs = s.chipRegs := rfl
@[simp] theorem snapshot_fifoOut : (snapshot s).fifoOut = s.fifoOut := rfl
@[simp] theorem snapshot_moves : (snapshot s).moves = s.moves := rfl
@[simp] theorem snapshot_ret : (snapshot s).ret = s.ret := rfl
@[simp] theorem snapshot_cond : (snapshot s).cond = s.cond := rfl
@[simp] theorem snapshot_job : (snapshot s).job = s.job := rfl

/-! ### `startSend` -/

@[simp] theorem startSend_raw (p : List Byte) (v : Nat) (k : Bool) : (startSend p v k s).raw = s.raw := rfl
@[simp] theorem startSend_ds (p : List Byte) (v : Nat) (k : Bool) : (startSend p v k s).ds = s.ds := rfl
@[simp] theorem startSend_dec (p : List Byte) (v : Nat) (k : Bool) : (startSend p v k s).dec = s.dec := rfl
@[simp] theorem startSend_decLen (p : List Byte) (v : Nat) (k : Bool) : (startSend p v k s).decLen = s.decLen := rfl
@[simp] theorem startSend_decType (p : List Byte) (v : Nat) (k : Bool) :
    (startSend p v k s).decType = s.decType := rfl
@[simp] theorem startSend_rssi (p : List Byte) (v : Nat) (k : Bool) : (startSend p v k s).rssi = s.rssi := rfl
@[simp] theorem startSend_pl (p : List Byte) (v : Nat) (k : Bool) : (startSend p v k s).pl = s.pl := rfl
@[simp] theorem startSend_st (p : List Byte) (v : Nat) (k : Bool) : (startSend p v k s).st = s.st := rfl
@[simp] theorem startSend_frame (p : List Byte) (v : Nat) (k : Bool) : (startSend p v k s).frame = s.frame := rfl
@[simp] theorem startSend_total (p : List Byte) (v : Nat) (k : Bool) : (startSend p v k s).total = s.total := rfl
@[simp] theorem startSend_acc (p : List Byte) (v : Nat) (k : Bool) : (startSend p v k s).acc = s.acc := rfl
@[simp] theorem startSend_accN (p : List Byte) (v : Nat) (k : Bool) : (startSend p v k s).accN = s.accN := rfl
@[simp] theorem startSend_lastSent (p : List Byte) (v : Nat) (k : Bool) :
    (startSend p v k s).lastSent = s.lastSent := rfl
@[simp] theorem startSend_lastSentLen (p : List Byte) (v : Nat) (k : Bool) :
    (startSend p v k s).lastSentLen = s.lastSentLen := rfl
@[simp] theorem startSend_counter (p : List Byte) (v : Nat) (k : Bool) :
    (startSend p v k s).counter = s.counter := rfl
@[simp] theorem startSend_rxState (p : List Byte) (v : Nat) (k : Bool) :
    (startSend p v k s).rxState = s.rxState := rfl
@[simp] theorem startSend_txPhase (p : List Byte) (v : Nat) (k : Bool) : (startSend p v k s).txPhase = .cca := rfl
@[simp] theorem startSend_rep (p : List Byte) (v : Nat) (k : Bool) : (startSend p v k s).rep = s.rep := rfl
@[simp] theorem startSend_txActive (p : List Byte) (v : Nat) (k : Bool) :
    (startSend p v k s).txActive = s.txActive := rfl
@[simp] theorem startSend_rxFlag (p : List Byte) (v : Nat) (k : Bool) : (startSend p v k s).rxFlag = s.rxFlag := rfl
@[simp] theorem startSend_irqArmed (p : List Byte) (v : Nat) (k : Bool) :
    (startSend p v k s).irqArmed = s.irqArmed := rfl
@[simp] theorem startSend_initialized (p : List Byte) (v : Nat) (k : Bool) :
    (startSend p v k s).initialized = s.initialized := rfl
@[simp] theorem startSend_chipMode (p : List Byte) (v : Nat) (k : Bool) :
    (startSend p v k s).chipMode = s.chipMode := rfl
@[simp] theorem startSend_cfg (p : List Byte) (v : Nat) (k : Bool) : (startSend p v k s).cfg = s.cfg := rfl
@[simp] theorem startSend_chipIn (p : List Byte) (v : Nat) (k : Bool) : (startSend p v k s).chipIn = s.chipIn := rfl
@[simp] theorem startSend_clearIn (p : List Byte) (v : Nat) (k : Bool) :
    (startSend p v k s).clearIn = s.clearIn := rfl
@[simp] theorem startSend_drawn (p : List Byte) (v : Nat) (k : Bool) : (startSend p v k s).drawn = s.drawn := rfl
@[simp] theorem startSend_bus (p : List Byte) (v : Nat) (k : Bool) : (startSend p v k s).bus = s.bus := rfl
@[simp] theorem startSend_chipRegs (p : List Byte) (v : Nat) (k : Bool) :
    (startSend p v k s).chipRegs = s.chipRegs := rfl
@[simp] theorem startSend_fifoOut (p : List Byte) (v : Nat) (k : Bool) :
    (startSend p v k s).fifoOut = s.fifoOut := rfl
@[simp] theorem startSend_moves (p : List Byte) (v : Nat) (k : Bool) : (startSend p v k s).moves = s.moves := rfl
@[simp] theorem startSend_ret (p : List Byte) (v : Nat) (k : Bool) : (startSend p v k s).ret = .none := rfl
@[simp] theorem startSend_cond (p : List Byte) (v : Nat) (k : Bool) : (startSend p v k s).cond = none := rfl
@[simp] theorem startSend_job (p : List Byte) (v : Nat) (k : Bool) :
    (startSend p v k s).job = ⟨p, v, s.cfg.ccaLimit, k⟩ := rfl

end Sys2Proof.Machine
end

