-- ==== Sys2Proof/Laws/Io.lean ====
section
/-! SUPPORT. What each operation over the bus can do, said once. -/

namespace Sys2Proof.Machine

/-! ### Chip traffic -/

theorem ChipTraffic.refl (s : State) : ChipTraffic s s := ⟨rfl, id, Or.inl, id⟩

/-- Chip traffic, as an update of the six fields it may move. -/
theorem ChipTraffic.exists_update {s t : State} (h : ChipTraffic s t) :
    ∃ ci d b cr fo rf, t = { s with chipIn := ci, drawn := d, bus := b, chipRegs := cr, fifoOut := fo, rxFlag := rf } :=
  ⟨_, _, _, _, _, _, h.frame⟩

theorem ChipTraffic.irqArmed {s t : State} (h : ChipTraffic s t) : t.irqArmed = s.irqArmed := by rw [h.frame]
theorem ChipTraffic.cfg {s t : State} (h : ChipTraffic s t) : t.cfg = s.cfg := by rw [h.frame]

theorem ChipTraffic.trans {s t u : State} (h : ChipTraffic s t) (k : ChipTraffic t u) : ChipTraffic s u := by
  refine ⟨?_, fun hs => k.flagKept (h.flagKept hs), fun hu => ?_, fun hr => k.regsKept (h.regsKept hr)⟩
  · have hk := k.frame
    obtain ⟨ci, d, b, cr, fo, rf, rfl⟩ := h.exists_update
    exact hk
  · rcases k.flagSet hu with hf | ha
    · exact h.flagSet hf
    · exact Or.inr (h.irqArmed ▸ ha)

theorem takeEdgeIf_traffic (e : Bool) (s : State) : ChipTraffic s (takeEdgeIf e s) := by
  refine ⟨rfl, fun h => by simp [h], fun h => ?_, id⟩
  cases hs : s.rxFlag <;> cases e <;> simp_all

theorem popAnswer_traffic (s : State) : ChipTraffic s (popAnswer s) := ⟨rfl, id, Or.inl, id⟩
theorem onBus_traffic (ws : List Wire) (s : State) : ChipTraffic s (onBus ws s) := ⟨rfl, id, Or.inl, id⟩
theorem queueFifo_traffic (bs : List Byte) (s : State) : ChipTraffic s (queueFifo bs s) := ⟨rfl, id, Or.inl, id⟩

theorem chipTakes_traffic (a : ChipAddr) (v : Byte) (s : State) : ChipTraffic s (chipTakes a v s) := by
  refine ⟨rfl, id, Or.inl, fun h => ?_⟩
  rw [chipTakes_chipRegs]
  split
  · exact h
  · exact Memory.wf_write _ _ _ h

theorem drawByte_traffic (s : State) : ChipTraffic s (drawByte s).2 :=
  (popAnswer_traffic s).trans (takeEdgeIf_traffic _ _)

theorem busAddr_traffic (w : Bool) (a : ChipAddr) (s : State) : ChipTraffic s (busAddr w a s) := onBus_traffic _ s

theorem regWr_traffic (a : ChipAddr) (v : Byte) (s : State) : ChipTraffic s (regWr a v s) :=
  ((busAddr_traffic _ _ s).trans (onBus_traffic _ _)).trans (chipTakes_traffic _ _ _)

theorem fifoWr_traffic (bs : List Byte) (s : State) : ChipTraffic s (fifoWr bs s) :=
  ((busAddr_traffic _ _ s).trans (onBus_traffic _ _)).trans (queueFifo_traffic _ _)

theorem clockIn_traffic (s : State) : ChipTraffic s (clockIn s).2 := (drawByte_traffic s).trans (onBus_traffic _ _)

theorem regRd_traffic (a : ChipAddr) (s : State) : ChipTraffic s (regRd a s).2 :=
  (busAddr_traffic _ _ s).trans (clockIn_traffic _)

theorem flagRd_traffic (f : ChipFlag) (s : State) : ChipTraffic s (flagRd f s).2 := regRd_traffic _ s

theorem rssiRd_traffic (s : State) : ChipTraffic s (rssiRd s).2 := regRd_traffic _ s

theorem clockInMany_traffic (n : Nat) (s : State) : ChipTraffic s (clockInMany n s).2 := by
  induction n generalizing s with
  | zero => exact .refl s
  | succ n ih => exact (clockIn_traffic s).trans (ih _)

theorem fifoRd_traffic (n : Nat) (s : State) : ChipTraffic s (fifoRd n s).2 :=
  (busAddr_traffic _ _ s).trans (clockInMany_traffic _ _)

theorem modeWait_succ_ready (n : Nat) (s : State) (h : (flagRd .modeReady s).1 = true) :
    modeWait (n + 1) s = (true, (flagRd .modeReady s).2) := if_pos h

theorem modeWait_succ_notReady (n : Nat) (s : State) (h : ¬ (flagRd .modeReady s).1 = true) :
    modeWait (n + 1) s = modeWait n (flagRd .modeReady s).2 := if_neg h

theorem modeWait_traffic (n : Nat) (s : State) : ChipTraffic s (modeWait n s).2 := by
  induction n generalizing s with
  | zero => exact flagRd_traffic _ s
  | succ n ih =>
    unfold modeWait
    split
    · exact flagRd_traffic _ s
    · exact (flagRd_traffic _ s).trans (ih _)

/-- SET_MODE is chip traffic from the state with the mode recorded. -/
theorem setMode_traffic (m : Mode) (s : State) : ChipTraffic { s with chipMode := m } (setMode m s).2 := by
  refine ChipTraffic.trans ?_ (modeWait_traffic _ (commandMode m s))
  exact regWr_traffic s.cfg.aMode (modeValue s.cfg m) { s with chipMode := m }

theorem fifoWrEach_traffic (bs : List Byte) (s : State) : ChipTraffic s (fifoWrEach bs s) := by
  induction bs generalizing s with
  | nil => exact .refl s
  | cons b bs ih => exact (fifoWr_traffic [b] s).trans (ih _)

theorem regWrAll_traffic (es : List (ChipAddr × Byte)) (s : State) : ChipTraffic s (regWrAll es s) := by
  induction es generalizing s with
  | nil => exact .refl s
  | cons e es ih => exact (regWr_traffic e.1 e.2 s).trans (ih _)

theorem programChip_traffic (s : State) : ChipTraffic s (programChip s) :=
  (regWrAll_traffic _ s).trans (regWr_traffic _ _ _)

theorem probe_traffic (ps : List Byte) (s : State) : ChipTraffic s (probe ps s).2 := by
  induction ps generalizing s with
  | nil => exact .refl s
  | cons p ps ih =>
    unfold probe
    split
    · exact ((regWr_traffic _ _ s).trans (regRd_traffic _ _)).trans (ih _)
    · exact (regWr_traffic _ _ s).trans (regRd_traffic _ _)

/-! ### The exact effect of one bus transaction -/

theorem regRd_value (a : ChipAddr) (s : State) : (regRd a s).1 = (nextAnswer s).byte := rfl

theorem regRd_state (a : ChipAddr) (s : State) : (regRd a s).2 = { s with
    chipIn := s.chipIn.tail, drawn := s.drawn + 1, bus := s.bus ++ regRdWire s.cfg a (nextAnswer s).byte,
    rxFlag := s.rxFlag || ((nextAnswer s).edge && s.irqArmed) } := by
  simp [regRd, clockIn, drawByte, busAddr, onBus, takeEdgeIf, popAnswer, regRdWire, nextAnswer]

theorem regWr_state (a : ChipAddr) (v : Byte) (s : State) : regWr a v s = { s with
    bus := s.bus ++ regWrWire s.cfg a v
    chipRegs := if a = s.cfg.aFifo then s.chipRegs else s.chipRegs.write a.toNat v
    fifoOut := if a = s.cfg.aFifo then s.fifoOut ++ [v] else s.fifoOut } := by
  simp [regWr, chipTakes, busAddr, onBus, regWrWire]

theorem fifoWr_state (bs : List Byte) (s : State) : fifoWr bs s = { s with
    bus := s.bus ++ fifoWireBytes s.cfg bs, fifoOut := s.fifoOut ++ bs } := by
  simp [fifoWr, busAddr, onBus, queueFifo, fifoWireBytes]

theorem flagRd_value (f : ChipFlag) (s : State) : (flagRd f s).1 = flagSet s.cfg f (nextAnswer s) := rfl

theorem flagRd_state (f : ChipFlag) (s : State) : (flagRd f s).2 = (regRd (flagLoc s.cfg f).addr s).2 := rfl

theorem fifoWrEach_state (bs : List Byte) (s : State) : fifoWrEach bs s = { s with
    bus := s.bus ++ bs.flatMap (fun b => fifoWireBytes s.cfg [b]), fifoOut := s.fifoOut ++ bs } := by
  induction bs generalizing s with
  | nil => simp [fifoWrEach]
  | cons b bs ih =>
    show fifoWrEach bs (fifoWr [b] s) = _
    rw [ih, fifoWr_state]
    simp only [List.flatMap_cons, List.append_assoc, List.singleton_append]

/-- The chip registers other than the ones listed are kept: from one state to the next. -/
theorem RegsKeptOutside.trans {l : List ChipAddr} {s t u : State} (h : RegsKeptOutside l s t)
    (k : RegsKeptOutside l t u) : RegsKeptOutside l s u := fun b hb => (k b hb).trans (h b hb)

theorem RegsKeptOutside.of_eq {l : List ChipAddr} {s t : State} (h : t.chipRegs = s.chipRegs) :
    RegsKeptOutside l s t := fun b _ => by rw [h]

theorem regWr_regsKept {a : ChipAddr} {l : List ChipAddr} (h : a ∈ l) (v : Byte) (s : State) :
    RegsKeptOutside l s (regWr a v s) := by
  intro b hb
  rw [regWr_state]
  dsimp only
  split
  · rfl
  · exact Memory.read_write_other _ _ (hb a h)

theorem regWr_read (a : ChipAddr) (v : Byte) (s : State) (h : a ≠ s.cfg.aFifo) :
    (regWr a v s).chipRegs.read a.toNat = some v := by
  rw [regWr_state]
  simp [h, Memory.read_write_same]

/-! ### Operations that only read leave the chip's registers and the FIFO -/

theorem regRd_chipSide (a : ChipAddr) (s : State) :
    (regRd a s).2.chipRegs = s.chipRegs ∧ (regRd a s).2.fifoOut = s.fifoOut := by
  rw [regRd_state]
  exact ⟨rfl, rfl⟩

theorem clockIn_chipSide (s : State) : (clockIn s).2.chipRegs = s.chipRegs ∧ (clockIn s).2.fifoOut = s.fifoOut := by
  simp [clockIn, drawByte]

theorem clockInMany_chipSide (n : Nat) (s : State) :
    (clockInMany n s).2.chipRegs = s.chipRegs ∧ (clockInMany n s).2.fifoOut = s.fifoOut := by
  induction n generalizing s with
  | zero => exact ⟨rfl, rfl⟩
  | succ n ih =>
    have h := ih (clockIn s).2
    rw [(clockIn_chipSide s).1, (clockIn_chipSide s).2] at h
    exact h

theorem flagRd_chipSide (f : ChipFlag) (s : State) :
    (flagRd f s).2.chipRegs = s.chipRegs ∧ (flagRd f s).2.fifoOut = s.fifoOut := regRd_chipSide _ s

theorem modeWait_chipSide (n : Nat) (s : State) :
    (modeWait n s).2.chipRegs = s.chipRegs ∧ (modeWait n s).2.fifoOut = s.fifoOut := by
  induction n generalizing s with
  | zero => exact flagRd_chipSide .modeReady s
  | succ n ih =>
    by_cases h : (flagRd .modeReady s).1 = true
    · rw [modeWait_succ_ready n s h]
      exact flagRd_chipSide .modeReady s
    · rw [modeWait_succ_notReady n s h]
      have h' := ih (flagRd .modeReady s).2
      rw [(flagRd_chipSide .modeReady s).1, (flagRd_chipSide .modeReady s).2] at h'
      exact h'

theorem commandMode_state (m : Mode) (s : State) : commandMode m s = { s with
    chipMode := m
    bus := s.bus ++ regWrWire s.cfg s.cfg.aMode (modeValue s.cfg m)
    chipRegs := (chipTakes s.cfg.aMode (modeValue s.cfg m) s).chipRegs
    fifoOut := (chipTakes s.cfg.aMode (modeValue s.cfg m) s).fifoOut } := by
  simp only [commandMode, regWr_state, chipTakes_chipRegs, chipTakes_fifoOut]

/-- SET_MODE's effect on the chip's registers and FIFO is that of its one register write. -/
theorem setMode_chipSide (m : Mode) (s : State) :
    (setMode m s).2.chipRegs = (chipTakes s.cfg.aMode (modeValue s.cfg m) s).chipRegs ∧
    (setMode m s).2.fifoOut = (chipTakes s.cfg.aMode (modeValue s.cfg m) s).fifoOut := by
  have h := modeWait_chipSide (s.cfg.modeReadyTimeout - 1) (commandMode m s)
  rw [commandMode_state] at h
  simpa only [setMode, commandMode_state] using h

/-! ### Reads and waits, said with what the chip answers -/

/-- A result given after chip traffic is chip traffic after the result. -/
theorem ChipTraffic.respond {s t : State} (h : ChipTraffic s t) (r : Ret) :
    ChipTraffic { s with ret := r, cond := none } (Machine.respond r t) := by
  obtain ⟨hf, k1, k2, k3⟩ := h
  refine ⟨?_, k1, k2, k3⟩
  rw [hf]
  rfl

/-- FLAG_RD's whole effect. -/
theorem flagRd_update (f : ChipFlag) (s : State) : (flagRd f s).2 = { s with
    chipIn := s.chipIn.tail, drawn := s.drawn + 1,
    bus := s.bus ++ regRdWire s.cfg (flagLoc s.cfg f).addr (nextAnswer s).byte,
    rxFlag := s.rxFlag || ((nextAnswer s).edge && s.irqArmed) } := by
  rw [flagRd_state, regRd_state]

theorem clockIn_state (s : State) : (clockIn s).2 = { s with
    chipIn := s.chipIn.tail, drawn := s.drawn + 1, bus := s.bus ++ [.inp (nextAnswer s).byte],
    rxFlag := s.rxFlag || ((nextAnswer s).edge && s.irqArmed) } := by
  simp [clockIn, drawByte, onBus, takeEdgeIf, popAnswer]

/-- FIFO_RD's data bytes, where the state records as many answers as are read. -/
theorem clockInMany_recorded (n : Nat) (s : State) (h : n ≤ s.chipIn.length) :
    clockInMany n s = ((s.chipIn.take n).map (fun a => a.byte), { s with
      chipIn := s.chipIn.drop n, drawn := s.drawn + n,
      bus := s.bus ++ (s.chipIn.take n).map (fun a => .inp a.byte),
      rxFlag := s.rxFlag || ((s.chipIn.take n).any (fun a => a.edge) && s.irqArmed) }) := by
  induction n generalizing s with
  | zero => simp [clockInMany]
  | succ n ih =>
    unfold clockInMany
    rw [ih _ (by rw [clockIn_state]; simp; omega), clockIn_state]
    cases hc : s.chipIn with
    | nil => simp [hc] at h
    | cons a l =>
      have : (clockIn s).1 = a.byte := by simp [clockIn, drawByte, nextAnswer, hc]
      simp [this, nextAnswer, hc, Bool.or_assoc, Bool.and_or_distrib_right]
      omega

/-! ### What is drawn -/

theorem answersFrom_add (s t : State) (m n : Nat) (hc : t.chipIn = s.chipIn.drop m) (hd : t.drawn = s.drawn + m) :
    answersFrom s (m + n) = answersFrom s m ++ answersFrom t n := by
  unfold answersFrom
  rw [List.range_add, List.map_append, List.map_map, hc, hd]
  congr 2
  funext k
  simp [List.getD_eq_getElem?_getD, List.getElem?_drop, Nat.add_assoc]

theorem Drew.trans {l m : List Config.ChipAnswer} {s t u : State} (h : Drew l s t) (k : Drew m t u) :
    Drew (l ++ m) s u := by
  obtain ⟨h1, h2, h3⟩ := h
  obtain ⟨k1, k2, k3⟩ := k
  refine ⟨?_, ?_, ?_⟩
  · rw [List.length_append, answersFrom_add s t _ _ h2 h3, ← h1, ← k1]
  · rw [k2, h2, List.drop_drop, List.length_append]
  · rw [k3, h3, List.length_append, Nat.add_assoc]

/-- From `s` to `t` exactly these answers were drawn, and of the interrupt's side only `rx_flag` moved, by their edges. -/
structure Reads (answers : List Config.ChipAnswer) (s t : State) : Prop where
  drew : Drew answers s t
  rxFlag : t.rxFlag = (s.rxFlag || (anyEdge answers && s.irqArmed))
  irqArmed : t.irqArmed = s.irqArmed

theorem Reads.trans {l m : List Config.ChipAnswer} {s t u : State} (h : Reads l s t) (k : Reads m t u) :
    Reads (l ++ m) s u := by
  refine ⟨h.drew.trans k.drew, ?_, k.irqArmed.trans h.irqArmed⟩
  rw [k.rxFlag, h.rxFlag, h.irqArmed, anyEdge, anyEdge, anyEdge, List.any_append, Bool.and_or_distrib_right, Bool.or_assoc]

/-- Nothing drawn. -/
theorem Reads.none {s t : State} (h1 : t.chipIn = s.chipIn) (h2 : t.drawn = s.drawn) (h3 : t.rxFlag = s.rxFlag)
    (h4 : t.irqArmed = s.irqArmed) : Reads [] s t :=
  ⟨⟨rfl, h1, h2⟩, by rw [h3]; simp [anyEdge], h4⟩

/-- One draw. -/
theorem Reads.one {s t : State} (h1 : t.chipIn = s.chipIn.tail) (h2 : t.drawn = s.drawn + 1)
    (h3 : t.rxFlag = (s.rxFlag || ((nextAnswer s).edge && s.irqArmed))) (h4 : t.irqArmed = s.irqArmed) :
    Reads [nextAnswer s] s t := by
  refine ⟨⟨?_, by simpa using h1, h2⟩, by simpa [anyEdge] using h3, h4⟩
  show _ = [s.chipIn.getD 0 _]
  cases hc : s.chipIn <;> simp [nextAnswer, hc]

theorem flagRd_reads (f : ChipFlag) (s : State) : Reads [nextAnswer s] s (flagRd f s).2 := by
  rw [flagRd_update]
  exact .one rfl rfl rfl rfl

/-- FIFO_RD's data bytes are as many as are read; they are the bytes drawn, and the ones that cross the bus. -/
theorem clockInMany_bytes (n : Nat) (s : State) : ∃ answers, Reads answers s (clockInMany n s).2 ∧
    (clockInMany n s).1 = answerBytes answers ∧ answers.length = n ∧
    (clockInMany n s).2.bus = s.bus ++ (answerBytes answers).map .inp := by
  induction n generalizing s with
  | zero => exact ⟨[], .none rfl rfl rfl rfl, rfl, rfl, by simp [clockInMany, answerBytes]⟩
  | succ n ih =>
    unfold clockInMany
    obtain ⟨l, h1, h2, h3, h4⟩ := ih (clockIn s).2
    have hr : Reads [nextAnswer s] s (clockIn s).2 := by
      rw [clockIn_state]
      exact .one rfl rfl rfl rfl
    refine ⟨nextAnswer s :: l, hr.trans h1, ?_, by simp [h3], ?_⟩
    · rw [h2]
      rfl
    · dsimp only
      rw [h4, clockIn_state]
      simp [answerBytes]

theorem fifoRd_bytes (n : Nat) (s : State) : ∃ answers, Reads answers s (fifoRd n s).2 ∧
    (fifoRd n s).1 = answerBytes answers ∧ answers.length = n ∧
    (fifoRd n s).2.bus =
      s.bus ++ .out (busAddrByte s.cfg.rwWrite false s.cfg.aFifo) :: (answerBytes answers).map .inp := by
  obtain ⟨l, h1, h2, h3, h4⟩ := clockInMany_bytes n (busAddr false s.cfg.aFifo s)
  refine ⟨l, ⟨⟨h1.drew.next, h1.drew.chipIn, h1.drew.drawn⟩, h1.rxFlag, h1.irqArmed⟩, h2, h3, ?_⟩
  unfold fifoRd
  rw [h4]
  simp [busAddr, onBus]

theorem fifoRd_chipSide (n : Nat) (s : State) :
    (fifoRd n s).2.chipRegs = s.chipRegs ∧ (fifoRd n s).2.fifoOut = s.fifoOut := clockInMany_chipSide n _

/-- The mode-ready wait on recorded polls: all but the last of them read 0, the last one decides. -/
theorem modeWait_recorded (polls : List Config.ChipAnswer) (n : Nat) (s : State) (rest : List Config.ChipAnswer)
    (ready : Bool) (hc : s.chipIn = polls ++ rest) (h1 : 1 ≤ polls.length) (h2 : polls.length ≤ n + 1)
    (h3 : ∀ a ∈ polls.dropLast, flagSet s.cfg .modeReady a = false)
    (h4 : ∀ a, polls.getLast? = some a → flagSet s.cfg .modeReady a = ready)
    (h5 : ready = false → polls.length = n + 1) :
    modeWait n s = (ready, { s with
      chipIn := rest, drawn := s.drawn + polls.length,
      bus := s.bus ++ polls.flatMap (fun a => regRdWire s.cfg s.cfg.modeReady.addr a.byte),
      rxFlag := s.rxFlag || (polls.any (fun a => a.edge) && s.irqArmed) }) := by
  induction polls generalizing n s with
  | nil => simp at h1
  | cons a l ih =>
    have hn : nextAnswer s = a := by simp [nextAnswer, hc]
    cases l with
    | nil =>
      have hv : (flagRd .modeReady s).1 = ready := by rw [flagRd_value, hn, h4 a rfl]
      have hs : (flagRd .modeReady s).2 = { s with
          chipIn := rest, drawn := s.drawn + 1,
          bus := s.bus ++ [a].flatMap (fun a => regRdWire s.cfg s.cfg.modeReady.addr a.byte),
          rxFlag := s.rxFlag || ([a].any (fun a => a.edge) && s.irqArmed) } := by
        rw [flagRd_update, hn, hc]
        simp [flagLoc]
      cases n with
      | zero =>
        show flagRd .modeReady s = _
        rw [← hv]
        exact Prod.ext rfl hs
      | succ n =>
        cases ready with
        | false => simp at h5
        | true =>
          rw [modeWait_succ_ready _ _ hv, hs]
          rfl
    | cons b l =>
      obtain ⟨n, rfl⟩ : ∃ k, n = k + 1 := ⟨n - 1, by simp at h2; omega⟩
      have hv : ¬ (flagRd .modeReady s).1 = true := by
        rw [flagRd_value, hn, h3 a (by simp)]
        simp
      rw [modeWait_succ_notReady _ _ hv, flagRd_update, hn]
      rw [ih n _ (by simp [hc]) (by simp) (by simpa using h2)
        (by intro x hx; exact h3 x (by simp [hx])) (by intro x hx; exact h4 x (by simpa using hx))
        (by intro hr; simpa using h5 hr)]
      simp [flagLoc, Bool.or_assoc, Bool.and_or_distrib_right]
      omega

/-- SET_MODE on recorded answers: how many polls it makes is what `ModePolls` says, and its whole effect. -/
theorem setMode_recorded (m : Mode) (s : State) (polls rest : List Config.ChipAnswer) (ready : Bool)
    (hc : s.chipIn = polls ++ rest) (h : ModePolls s.cfg (answerBytes polls) ready) :
    setMode m s = (ready, { s with
      chipMode := m, chipIn := rest, drawn := s.drawn + polls.length,
      bus := s.bus ++ setModeWire s.cfg (modeValue s.cfg m) (answerBytes polls),
      chipRegs := (chipTakes s.cfg.aMode (modeValue s.cfg m) s).chipRegs,
      fifoOut := (chipTakes s.cfg.aMode (modeValue s.cfg m) s).fifoOut,
      rxFlag := s.rxFlag || (polls.any (fun a => a.edge) && s.irqArmed) }) := by
  obtain ⟨h1, h2, h3, h4, h5⟩ := h
  have hlen : (answerBytes polls).length = polls.length := by simp [answerBytes]
  have hmax : max 1 s.cfg.modeReadyTimeout = s.cfg.modeReadyTimeout - 1 + 1 := by omega
  have hpos : 1 ≤ polls.length := by
    have := List.length_pos_iff.mpr h1
    omega
  unfold setMode
  rw [modeWait_recorded polls _ _ rest ready (by rw [commandMode_state]; exact hc) hpos (by omega) _ _
    (fun hr => by rw [← hlen, h5 hr, hmax]), commandMode_state]
  · simp [setModeWire, answerBytes, List.flatMap_map]
  · intro a ha
    rw [commandMode_state]
    refine h2 a.byte ?_
    simp only [answerBytes, ← List.map_dropLast]
    exact List.mem_map_of_mem ha
  · intro a ha
    rw [commandMode_state]
    refine h3 a.byte ?_
    simp [answerBytes, List.getLast?_map, ha]

/-- The mode-ready wait, whatever the chip answers: the polls it makes. -/
theorem modeWait_polls (n : Nat) (s : State) : ∃ polls : List Config.ChipAnswer, Reads polls s (modeWait n s).2 ∧
    (modeWait n s).2.bus = s.bus ++ (answerBytes polls).flatMap (regRdWire s.cfg s.cfg.modeReady.addr) ∧
    answerBytes polls ≠ [] ∧
    (∀ b ∈ (answerBytes polls).dropLast, flagBit s.cfg.modeReady b = false) ∧
    (∀ b, (answerBytes polls).getLast? = some b → flagBit s.cfg.modeReady b = (modeWait n s).1) ∧
    (answerBytes polls).length ≤ n + 1 ∧ ((modeWait n s).1 = false → (answerBytes polls).length = n + 1) := by
  have hv : (flagRd .modeReady s).1 = flagBit s.cfg.modeReady (nextAnswer s).byte := rfl
  have hb : (flagRd .modeReady s).2.bus = s.bus ++ regRdWire s.cfg s.cfg.modeReady.addr (nextAnswer s).byte := by
    rw [flagRd_update]
    rfl
  induction n generalizing s with
  | zero => exact ⟨[nextAnswer s], flagRd_reads _ s, by simpa [modeWait, answerBytes] using hb, by simp [answerBytes],
      by simp [answerBytes], by simp [modeWait, hv, answerBytes], by simp [answerBytes], by simp [answerBytes]⟩
  | succ n ih =>
    by_cases h : (flagRd .modeReady s).1 = true
    · rw [modeWait_succ_ready n s h]
      exact ⟨[nextAnswer s], flagRd_reads _ s, by simpa [answerBytes] using hb, by simp [answerBytes],
        by simp [answerBytes], by simpa [hv, answerBytes] using h, by simp [answerBytes], by simp⟩
    · rw [modeWait_succ_notReady n s h]
      have hcfg := (flagRd_traffic .modeReady s).cfg
      obtain ⟨polls, hr, e, h1, h2, h3, h4, h5⟩ :=
        ih (flagRd .modeReady s).2 rfl (by rw [flagRd_update (s := (flagRd _ _).2)]; rfl)
      rw [hcfg] at e h2 h3
      refine ⟨nextAnswer s :: polls, (flagRd_reads _ s).trans hr, ?_⟩
      rw [show answerBytes (nextAnswer s :: polls) = (nextAnswer s).byte :: answerBytes polls from rfl]
      generalize answerBytes polls = l at *
      refine ⟨?_, by simp, ?_, ?_, by simpa using h4, fun hf => by simp [h5 hf]⟩
      · rw [e, hb]
        simp
      · rw [List.dropLast_cons_of_ne_nil h1]
        intro b hbm
        rcases List.mem_cons.mp hbm with rfl | hbm
        · rw [← hv]
          simpa using h
        · exact h2 b hbm
      · intro b hbl
        rw [List.getLast?_cons_of_ne_nil h1] at hbl
        exact h3 b hbl

/-- SET_MODE, whatever the chip answers: its polls and its bus traffic. -/
theorem setMode_polls (m : Mode) (s : State) : ∃ polls, Reads polls s (setMode m s).2 ∧
    ModePolls s.cfg (answerBytes polls) (setMode m s).1 ∧
    (setMode m s).2.bus = s.bus ++ setModeWire s.cfg (modeValue s.cfg m) (answerBytes polls) := by
  obtain ⟨l, hr, e, h1, h2, h3, h4, h5⟩ := modeWait_polls (s.cfg.modeReadyTimeout - 1) (commandMode m s)
  have hcfg : (commandMode m s).cfg = s.cfg := by rw [commandMode_state]
  have hc : Reads [] s (commandMode m s) := by
    rw [commandMode_state]
    exact .none rfl rfl rfl rfl
  rw [hcfg] at e h2 h3
  have hmax : max 1 s.cfg.modeReadyTimeout = s.cfg.modeReadyTimeout - 1 + 1 := by omega
  refine ⟨l, hc.trans hr, ⟨h1, h2, h3, by omega, fun hr => by rw [hmax]; exact h5 hr⟩, ?_⟩
  show (modeWait _ (commandMode m s)).2.bus = _
  rw [e, commandMode_state]
  simp [setModeWire]

theorem setMode_regsKept (m : Mode) (s : State) : RegsKeptOutside [s.cfg.aMode] s (setMode m s).2 := by
  intro b hb
  rw [(setMode_chipSide m s).1, chipTakes_chipRegs]
  split
  · rfl
  · exact Memory.read_write_other _ _ (hb _ (by simp))

/-- Where A_FIFO is no mode register, SET_MODE leaves the FIFO and writes the mode register. -/
theorem setMode_writes (m : Mode) (s : State) (h : s.cfg.aMode ≠ s.cfg.aFifo) :
    (setMode m s).2.fifoOut = s.fifoOut ∧
    (setMode m s).2.chipRegs.read s.cfg.aMode.toNat = some (modeValue s.cfg m) := by
  obtain ⟨h1, h2⟩ := setMode_chipSide m s
  rw [h1, h2, chipTakes_chipRegs, chipTakes_fifoOut, if_neg h, if_neg h]
  exact ⟨rfl, Memory.read_write_same _ _ _⟩

/-- SET_MODE's register write is its first bus traffic. -/
theorem setMode_bus (m : Mode) (s : State) :
    s.bus ++ regWrWire s.cfg s.cfg.aMode (modeValue s.cfg m) <+: (setMode m s).2.bus := by
  obtain ⟨polls, _, _, e⟩ := setMode_polls m s
  rw [e, setModeWire, ← List.append_assoc]
  exact List.prefix_append _ _

/-! ### INIT's parts -/

theorem RegsKeptOutside.mono {l m : List ChipAddr} {s t : State} (h : RegsKeptOutside l s t)
    (hs : ∀ a ∈ l, a ∈ m) : RegsKeptOutside m s t := fun b hb => h b (fun a ha => hb a (hs a ha))

theorem regWrAll_state (es : List (ChipAddr × Byte)) (s : State) : ∃ regs fifo, regWrAll es s = { s with
    bus := s.bus ++ es.flatMap (fun e => regWrWire s.cfg e.1 e.2), chipRegs := regs, fifoOut := fifo } := by
  induction es generalizing s with
  | nil => exact ⟨s.chipRegs, s.fifoOut, by simp [regWrAll]⟩
  | cons e es ih =>
    obtain ⟨r, f, h⟩ := ih (regWr e.1 e.2 s)
    refine ⟨r, f, ?_⟩
    show regWrAll es (regWr e.1 e.2 s) = _
    rw [h, regWr_state]
    simp

theorem regWrAll_regsKept (es : List (ChipAddr × Byte)) (s : State) :
    RegsKeptOutside (es.map (fun e => e.1)) s (regWrAll es s) := by
  induction es generalizing s with
  | nil => exact fun b _ => rfl
  | cons e es ih =>
    have h1 : RegsKeptOutside ((e :: es).map (fun e => e.1)) s (regWr e.1 e.2 s) := regWr_regsKept (by simp) _ _
    exact h1.trans (RegsKeptOutside.mono (ih _) (by simp; intro a b h; exact Or.inr ⟨b, h⟩))

/-- The round-trip check goes past the values the chip reads back. -/
theorem probe_echo (echo : List Config.ChipAnswer) (more : List Byte) (s : State) (rest : List Config.ChipAnswer)
    (hc : s.chipIn = echo ++ rest) :
    ∃ regs fifo, probe (echo.map (fun a => a.byte) ++ more) s = probe more { s with
      chipIn := rest, drawn := s.drawn + echo.length,
      bus := s.bus ++
        echo.flatMap (fun a => regWrWire s.cfg s.cfg.aProbe a.byte ++ regRdWire s.cfg s.cfg.aProbe a.byte),
      chipRegs := regs, fifoOut := fifo, rxFlag := s.rxFlag || (echo.any (fun a => a.edge) && s.irqArmed) } := by
  induction echo generalizing s with
  | nil =>
    refine ⟨s.chipRegs, s.fifoOut, ?_⟩
    rw [List.nil_append] at hc
    subst hc
    simp
  | cons a l ih =>
    have hst : (regRd s.cfg.aProbe (regWr s.cfg.aProbe a.byte s)).2 = { s with
        chipIn := l ++ rest, drawn := s.drawn + 1,
        bus := s.bus ++ (regWrWire s.cfg s.cfg.aProbe a.byte ++ regRdWire s.cfg s.cfg.aProbe a.byte),
        chipRegs := (regWr s.cfg.aProbe a.byte s).chipRegs, fifoOut := (regWr s.cfg.aProbe a.byte s).fifoOut,
        rxFlag := s.rxFlag || (a.edge && s.irqArmed) } := by
      rw [regRd_state, regWr_state]
      simp [hc, nextAnswer]
    have hv : (regRd s.cfg.aProbe (regWr s.cfg.aProbe a.byte s)).1 = a.byte := by
      rw [regRd_value, regWr_state]
      simp [nextAnswer, hc]
    simp only [List.map_cons, List.cons_append, probe, hv, if_true]
    rw [hst]
    generalize hs1 : ({ s with
      chipIn := _, drawn := _, bus := _, chipRegs := _, fifoOut := _, rxFlag := _ } : State) = s1
    obtain ⟨regs, fifo, h⟩ := ih s1 (by rw [← hs1])
    refine ⟨regs, fifo, ?_⟩
    have hcfg : s1.cfg = s.cfg := by rw [← hs1]
    rw [hcfg] at h
    rw [h, ← hs1]
    simp [Bool.or_assoc, Bool.and_or_distrib_right]
    congr 2
    omega

/-- The round-trip check ends at a value the chip does not read back. -/
theorem probe_fails (p : Byte) (ps : List Byte) (s : State) (h : (nextAnswer s).byte ≠ p) :
    probe (p :: ps) s = (false, (regRd s.cfg.aProbe (regWr s.cfg.aProbe p s)).2) := by
  have : (regRd s.cfg.aProbe (regWr s.cfg.aProbe p s)).1 = (nextAnswer s).byte := by
    rw [regRd_value, regWr_state]
    rfl
  unfold probe
  rw [if_neg (by rw [this]; exact h)]

theorem probe_regsKept (ps : List Byte) (s : State) : RegsKeptOutside [s.cfg.aProbe] s (probe ps s).2 := by
  induction ps generalizing s with
  | nil => exact fun b _ => rfl
  | cons p ps ih =>
    have h1 : RegsKeptOutside [s.cfg.aProbe] s (regRd s.cfg.aProbe (regWr s.cfg.aProbe p s)).2 :=
      (regWr_regsKept (by simp) _ _).trans (.of_eq (regRd_chipSide _ _).1)
    have h2 := ih (regRd s.cfg.aProbe (regWr s.cfg.aProbe p s)).2
    rw [((regWr_traffic _ _ _).trans (regRd_traffic _ _)).cfg] at h2
    unfold probe
    split
    · exact h1.trans h2
    · exact h1

end Sys2Proof.Machine
end

