-- ==== Sys2Proof/Laws/Packing.lean ====
section
/-! SUPPORT. The transmit packer as a stream of bits. -/

namespace Sys2Proof.Machine

theorem length_heldBits (acc : Byte) (n : Nat) (h : n ≤ 8) : (heldBits acc n).length = n := by
  simp only [heldBits, List.length_drop, length_byteBits]; omega

/-- A bit that enters the accumulator is its newest. -/
theorem heldBits_shiftIn : ∀ n : Fin 8, ∀ b : Bool, ∀ acc : Byte,
    heldBits (shiftIn acc b) (n.val + 1) = heldBits acc n.val ++ [b] := by
  decide

/-- The packer neither adds nor drops a bit: what it held and what it is given are what it completes and what it holds
after. -/
theorem packFrom_stream (bs : List Bool) (acc : Byte) (n : Nat) (h : n ≤ 7) :
    heldBits acc n ++ bs = bits (packFrom acc n bs).1 ++ heldBits (packFrom acc n bs).2.1 (packFrom acc n bs).2.2 ∧
    (packFrom acc n bs).1.length = (n + bs.length) / 8 ∧ (packFrom acc n bs).2.2 = (n + bs.length) % 8 := by
  induction bs generalizing acc n with
  | nil =>
    simp only [packFrom, List.append_nil, List.length_nil, Nat.add_zero]
    refine ⟨rfl, ?_, ?_⟩ <;> omega
  | cons b bs ih =>
    have hs := heldBits_shiftIn ⟨n, by omega⟩ b acc
    simp only at hs
    unfold packFrom
    split
    · rename_i h8
      obtain ⟨h1, h2, h3⟩ := ih 0 0 (by omega)
      have h0 : heldBits 0 0 = [] := rfl
      rw [h0, List.nil_append] at h1
      rw [h8] at hs
      refine ⟨?_, ?_, ?_⟩
      · rw [bits_cons, List.append_assoc, ← h1, show byteBits (shiftIn acc b) = heldBits (shiftIn acc b) 8 from rfl, hs,
          List.append_assoc, List.singleton_append]
      · simp only [List.length_cons, h2]; omega
      · simp only [List.length_cons, h3]; omega
    · obtain ⟨h1, h2, h3⟩ := ih (shiftIn acc b) (n + 1) (by omega)
      refine ⟨?_, ?_, ?_⟩
      · rw [← h1, hs, List.append_assoc, List.singleton_append]
      · rw [h2, List.length_cons]; congr 1; omega
      · rw [h3, List.length_cons]; congr 1; omega

/-- The bytes of a stream that ends in a partly filled accumulator. -/
theorem packBits_of_stream {l : List Bool} {out : List Byte} {acc : Byte} {n : Nat} (hn : n ≤ 7)
    (h : l = bits out ++ heldBits acc n) : out = packBits l ∧ out.length = l.length / 8 := by
  have hh := length_heldBits acc n (by omega)
  constructor
  · rw [h, packBits_bits_append, packBits_short _ (by omega), List.append_nil]
  · rw [h, List.length_append, length_bits, hh]
    omega

/-- The packer on one stream after another goes on from where it was. -/
theorem packFrom_append (l m : List Bool) (acc : Byte) (n : Nat) : packFrom acc n (l ++ m) =
    ((packFrom acc n l).1 ++ (packFrom (packFrom acc n l).2.1 (packFrom acc n l).2.2 m).1,
      (packFrom (packFrom acc n l).2.1 (packFrom acc n l).2.2 m).2) := by
  induction l generalizing acc n with
  | nil => rfl
  | cons b l ih =>
    simp only [List.cons_append, packFrom]
    split
    · rw [ih]
      rfl
    · exact ih _ _

/-! ### The repetitions of one SEND -/

/-- What the cleared packer has given and holds after `r` repetitions of the bits `frame`. -/
def packed (frame : List Bool) (r : Nat) : List Byte × Byte × Nat := packFrom 0 0 (List.replicate r frame).flatten

/-- The bytes that repetition `r` completes. -/
def completed (frame : List Bool) (r : Nat) : List Byte :=
  (packFrom (packed frame r).2.1 (packed frame r).2.2 frame).1

theorem packed_zero (frame : List Bool) : packed frame 0 = ([], 0, 0) := rfl

theorem packed_succ (frame : List Bool) (r : Nat) : packed frame (r + 1) =
    ((packed frame r).1 ++ completed frame r, (packFrom (packed frame r).2.1 (packed frame r).2.2 frame).2) := by
  unfold packed completed
  rw [List.replicate_succ', List.flatten_append, packFrom_append]
  simp [packed]

theorem length_repeated (frame : List Bool) (r : Nat) :
    (List.replicate r frame).flatten.length = r * frame.length := by
  simp

/-- After `r` repetitions: the bytes are the stream cut into bytes, and so many bits are held. -/
theorem packed_bytes (frame : List Bool) (r : Nat) :
    (packed frame r).1 = packBits (List.replicate r frame).flatten ∧
    (packed frame r).1.length = r * frame.length / 8 ∧ (packed frame r).2.2 = r * frame.length % 8 := by
  obtain ⟨h1, h2, h3⟩ := packFrom_stream (List.replicate r frame).flatten 0 0 (by omega)
  rw [Nat.zero_add, length_repeated] at h2 h3
  rw [show heldBits 0 0 = [] from rfl, List.nil_append] at h1
  exact ⟨(packBits_of_stream (by rw [h3]; omega) h1).1, h2, h3⟩

/-- Fewer repetitions give a front part of the stream. -/
theorem packed_prefix (frame : List Bool) (r k : Nat) : (packed frame r).1 <+: (packed frame (r + k)).1 := by
  induction k with
  | zero => exact List.prefix_refl _
  | succ k ih =>
    rw [← Nat.add_assoc, packed_succ]
    exact ih.trans (List.prefix_append _ _)

/-- The bytes a repetition completes are a part of the whole stream. -/
theorem completed_eq_passChunk (frame : List Bool) (r n : Nat) (h : r < n) :
    completed frame r = passChunk (packBits (List.replicate n frame).flatten) frame.length r := by
  obtain ⟨k, rfl⟩ : ∃ k, n = r + 1 + k := ⟨n - (r + 1), by omega⟩
  obtain ⟨tail, ht⟩ := packed_prefix frame (r + 1) k
  rw [← (packed_bytes frame (r + 1 + k)).1, ← ht, passChunk, ← (packed_bytes frame (r + 1)).2.1, List.take_left,
    packed_succ, ← (packed_bytes frame r).2.1, List.drop_left]

end Sys2Proof.Machine
end

