-- ==== Sys2Proof/Laws/PerInstr.lean ====
section
/-! SUPPORT. Facts about each operation as syntax, one lemma per constructor. -/

namespace Sys2Proof.Laws

-- One proof at a time: many proofs on threads of their own can run out of memory for stacks.
set_option Elab.async false

/-- The mask and the match of an operation's row in spec/opcode_table.json (R96, R99). -/
def tableRow : Instr → Byte × Byte
  | .init => (0x1F, 0x00)
  | .rxPoll => (0x1F, 0x01)
  | .rxGet => (0x1F, 0x02)
  | .send _ _ => (0x1F, 0x03)
  | .sendPkt _ _ _ _ => (0x1F, 0x04)
  | .lastGet => (0x1F, 0x05)
  | .destuff _ => (0x1F, 0x08)
  | .stuff _ => (0x1F, 0x09)
  | .crcStep _ _ => (0x1F, 0x0A)
  | .pktCrc _ _ => (0x1F, 0x0B)
  | .rev8 _ => (0x1F, 0x0C)
  | .revBuf _ => (0x1F, 0x0D)
  | .classify _ => (0x1F, 0x0E)
  | .assemble _ _ _ _ _ => (0x1F, 0x0F)
  | .txPass => (0x1F, 0x10)
  | .regWr _ _ => (0x1F, 0x18)
  | .regRd _ => (0x1F, 0x19)
  | .fifoWr _ => (0x1F, 0x1A)
  | .fifoRd _ => (0x1F, 0x1B)
  | .setMode _ => (0x1F, 0x1C)
  | .flagRd _ => (0x1F, 0x1D)
  | .irqEdge => (0x1F, 0x1F)
  | .busWrite _ => (0x80, 0x80)
  | .busRead _ => (0x80, 0x00)

/-- The first byte of an operation's encoding is its row's match under its row's mask. -/
def OpcodeByte.Statement (i : Instr) : Prop :=
  ∃ b bs, encode Config.rwWrite i = b :: bs ∧ b &&& (tableRow i).1 = (tableRow i).2

theorem OpcodeByte.init : Statement .init := ⟨_, _, rfl, by simp [tableRow]⟩
theorem OpcodeByte.rxPoll : Statement .rxPoll := ⟨_, _, rfl, by simp [tableRow]⟩
theorem OpcodeByte.rxGet : Statement .rxGet := ⟨_, _, rfl, by simp [tableRow]⟩
theorem OpcodeByte.send (payload : List Byte) (v : Nat) : Statement (.send payload v) := ⟨_, _, rfl, by simp [tableRow]⟩
theorem OpcodeByte.sendPkt (t : DeviceType) (a : DevAddr) (c : Byte) (extra : List Byte) :
    Statement (.sendPkt t a c extra) := ⟨_, _, rfl, by simp [tableRow]⟩
theorem OpcodeByte.lastGet : Statement .lastGet := ⟨_, _, rfl, by simp [tableRow]⟩
theorem OpcodeByte.destuff (input : List Byte) : Statement (.destuff input) := ⟨_, _, rfl, by simp [tableRow]⟩
theorem OpcodeByte.stuff (input : List Byte) : Statement (.stuff input) := ⟨_, _, rfl, by simp [tableRow]⟩
theorem OpcodeByte.crcStep (crc : Half) (c : Byte) : Statement (.crcStep crc c) := ⟨_, _, rfl, by simp [tableRow]⟩
theorem OpcodeByte.pktCrc (data : List Byte) (t : PktType) : Statement (.pktCrc data t) := ⟨_, _, rfl, by simp [tableRow]⟩
theorem OpcodeByte.rev8 (b : Byte) : Statement (.rev8 b) := ⟨_, _, rfl, by simp [tableRow]⟩
theorem OpcodeByte.revBuf (bytes : List Byte) : Statement (.revBuf bytes) := ⟨_, _, rfl, by simp [tableRow]⟩
theorem OpcodeByte.classify (code : Byte) : Statement (.classify code) := ⟨_, _, rfl, by simp [tableRow]⟩
theorem OpcodeByte.assemble (t : PktType) (ctr : Byte) (a : DevAddr) (c : Byte) (extra : List Byte) :
    Statement (.assemble t ctr a c extra) := ⟨_, _, rfl, by simp [tableRow]⟩
theorem OpcodeByte.txPass : Statement .txPass := ⟨_, _, rfl, by simp [tableRow]⟩
theorem OpcodeByte.regWr (addr : ChipAddr) (val : Byte) : Statement (.regWr addr val) := ⟨_, _, rfl, by simp [tableRow]⟩
theorem OpcodeByte.regRd (addr : ChipAddr) : Statement (.regRd addr) := ⟨_, _, rfl, by simp [tableRow]⟩
theorem OpcodeByte.fifoWr (bytes : List Byte) : Statement (.fifoWr bytes) := ⟨_, _, rfl, by simp [tableRow]⟩
theorem OpcodeByte.fifoRd (n : Nat) : Statement (.fifoRd n) := ⟨_, _, rfl, by simp [tableRow]⟩
theorem OpcodeByte.setMode (m : Mode) : Statement (.setMode m) := ⟨_, _, rfl, by simp [tableRow]⟩
theorem OpcodeByte.flagRd (f : ChipFlag) : Statement (.flagRd f) := ⟨_, _, rfl, by simp [tableRow]⟩
theorem OpcodeByte.irqEdge : Statement .irqEdge := ⟨_, _, rfl, by simp [tableRow]⟩
theorem OpcodeByte.busWrite (addr : ChipAddr) : Statement (.busWrite addr) := ⟨_, _, rfl, by revert addr; decide⟩
theorem OpcodeByte.busRead (addr : ChipAddr) : Statement (.busRead addr) := ⟨_, _, rfl, by revert addr; decide⟩

end Sys2Proof.Laws
end

