-- ==== Sys2Proof/Laws/Stuffing.lean ====
section
/-! SUPPORT. The stuffer's and the destuffer's scans on bit streams. -/

namespace Sys2Proof.Machine

/-- STUFF adds exactly the bits it counts. -/
theorem length_stuffBits (bs : List Bool) (run : Nat) :
    (stuffBits run bs).1.length = bs.length + (stuffBits run bs).2 := by
  induction bs generalizing run with
  | nil => rfl
  | cons b bs ih =>
    cases b
    · simp only [stuffBits, List.length_cons, ih 0]; omega
    · simp only [stuffBits]
      split
      · simp only [List.length_cons, ih 0]; omega
      · simp only [List.length_cons, ih (run + 1)]; omega

/-- Each insertion takes five one-bits. -/
theorem stuffBits_count (bs : List Bool) (run : Nat) (h : run < 5) : 5 * (stuffBits run bs).2 ≤ bs.length + run := by
  induction bs generalizing run with
  | nil => simp [stuffBits]
  | cons b bs ih =>
    cases b
    · simp only [stuffBits, List.length_cons]
      have := ih 0 (by omega)
      omega
    · by_cases h5 : run + 1 = Config.stuffRun
      · have := ih 0 (by omega)
        simp only [Config.stuffRun] at h5
        simp only [stuffBits, Config.stuffRun, h5, if_true, List.length_cons]; omega
      · have := ih (run + 1) (by simp only [Config.stuffRun] at h5; omega)
        simp only [stuffBits, h5, if_false, List.length_cons]; omega

/-- DESTUFF never writes past its capacity. -/
theorem length_destuffBits (bs : List Bool) (cap run : Nat) : (destuffBits cap run bs).1.length ≤ cap := by
  induction bs generalizing cap run with
  | nil => simp [destuffBits]
  | cons b bs ih =>
    simp only [destuffBits]
    split
    · simp
    · split
      · exact ih cap 0
      · have := ih (cap - 1) (if b then run + 1 else 0)
        simp only [List.length_cons]; omega

/-- The bits kept from a front part of the input are the first bits kept. -/
theorem destuffBits_prefix (front back : List Bool) (cap run : Nat) :
    (destuffBits cap run front).1 <+: (destuffBits cap run (front ++ back)).1 := by
  induction front generalizing cap run with
  | nil => exact List.nil_prefix
  | cons b front ih =>
    simp only [destuffBits, List.cons_append]
    split
    · exact List.prefix_refl _
    · split
      · exact ih cap 0
      · exact (List.prefix_cons_inj b).mpr (ih _ _)

/-- The destuffer, on a full output, stops. -/
theorem destuffBits_full (bs : List Bool) (run : Nat) : destuffBits 0 run bs = ([], 0) := by
  cases bs <;> rfl

/-- DESTUFF undoes STUFF on streams, the output having room for just the original bits; whatever follows is not read. It
does not drop an inserted bit that is the last of the stream. -/
theorem destuffBits_stuffBits (bs rest : List Bool) (run : Nat) (h : run < 5) :
    destuffBits bs.length run ((stuffBits run bs).1 ++ rest) =
      (bs, if (stuffBits run bs.dropLast).2 < (stuffBits run bs).2 then (stuffBits run bs).2 - 1
        else (stuffBits run bs).2) := by
  induction bs generalizing run with
  | nil => simp [stuffBits, destuffBits_full]
  | cons b bs ih =>
    have hr : ¬ run = Config.stuffRun := by simp only [Config.stuffRun]; omega
    cases b
    · simp only [stuffBits, List.cons_append, destuffBits, List.length_cons, Nat.add_one_ne_zero, if_false, hr,
        Nat.add_sub_cancel, Bool.false_eq_true, ih 0 (by omega)]
      cases bs <;> simp [stuffBits]
    · by_cases h5 : run + 1 = Config.stuffRun
      · simp only [stuffBits, h5, if_true, List.cons_append, destuffBits, List.length_cons, Nat.add_one_ne_zero,
          if_false, hr, Nat.add_sub_cancel]
        by_cases hb : bs = []
        · subst hb
          simp [stuffBits]
        · have hl : ¬ bs.length = 0 := fun h0 => hb (List.length_eq_zero_iff.mp h0)
          simp only [hl, if_false, ih 0 (by omega), List.dropLast_cons_of_ne_nil hb, stuffBits, h5, if_true]
          have hle : (stuffBits 0 bs.dropLast).2 < (stuffBits 0 bs).2 → 1 ≤ (stuffBits 0 bs).2 := by omega
          congr 1
          split <;> split <;> omega
      · have h5' : run + 1 < 5 := by simp only [Config.stuffRun] at h5; omega
        simp only [stuffBits, h5, if_false, List.cons_append, destuffBits, List.length_cons, Nat.add_one_ne_zero, hr,
          Nat.add_sub_cancel, if_true, ih (run + 1) h5']
        cases bs <;> simp [stuffBits, h5]

/-- R142's loop keeps and drops the bits that the scan does. -/
theorem destuffLoop_from (bs : List Bool) (cap : Nat) (p : DestuffLoop) (hs : p.skip = decide (p.run = 5))
    (hl : p.out.length ≤ cap) :
    (bs.foldl (DestuffLoop.next cap) p).out = p.out ++ (destuffBits (cap - p.out.length) p.run bs).1 ∧
    (bs.foldl (DestuffLoop.next cap) p).drop = p.drop + (destuffBits (cap - p.out.length) p.run bs).2 := by
  induction bs generalizing p with
  | nil => simp [destuffBits]
  | cons b bs ih =>
    rw [List.foldl_cons]
    by_cases hc : p.out.length = cap
    · have hn : DestuffLoop.next cap p b = p := by rw [DestuffLoop.next, if_pos hc]
      have h0 : cap - p.out.length = 0 := by omega
      have h := ih p hs hl
      rw [hn, h0, destuffBits_full] at *
      exact h
    · have h0 : ¬ cap - p.out.length = 0 := by omega
      by_cases h5 : p.run = 5
      · have hn : DestuffLoop.next cap p b = { p with run := 0, drop := p.drop + 1, skip := false } := by
          rw [DestuffLoop.next, if_neg hc, if_pos (by rw [hs]; exact decide_eq_true h5)]
        obtain ⟨h1, h2⟩ := ih (DestuffLoop.next cap p b) (by rw [hn]; rfl) (by rw [hn]; exact hl)
        rw [hn] at h1 h2 ⊢
        rw [destuffBits, if_neg h0, if_pos (show p.run = Config.stuffRun from h5)]
        exact ⟨h1, by rw [h2]; dsimp only; omega⟩
      · have hk : ¬ p.skip = true := by rw [hs]; simp [h5]
        have hn : DestuffLoop.next cap p b =
            { p with out := p.out ++ [b], run := if b then p.run + 1 else 0, skip := b && decide (p.run + 1 = 5) } := by
          rw [DestuffLoop.next, if_neg hc, if_neg hk]
          cases b <;> simp [hs, h5]
        obtain ⟨h1, h2⟩ := ih (DestuffLoop.next cap p b) (by rw [hn]; cases b <;> simp)
          (by rw [hn]; simp only [List.length_append, List.length_singleton]; omega)
        rw [hn] at h1 h2 ⊢
        simp only [List.length_append, List.length_singleton, ← Nat.sub_sub] at h1 h2
        rw [destuffBits, if_neg h0, if_neg (show ¬ p.run = Config.stuffRun from h5)]
        exact ⟨by rw [h1, List.append_assoc]; rfl, h2⟩

/-- R142's loop over a whole stream keeps and drops the bits that the scan does. -/
theorem destuffLoop_eq (cap : Nat) (bs : List Bool) :
    ((destuffLoop cap bs).out, (destuffLoop cap bs).drop) = destuffBits cap 0 bs := by
  obtain ⟨h1, h2⟩ := destuffLoop_from bs cap ⟨[], 0, 0, false⟩ rfl (Nat.zero_le _)
  exact Prod.ext h1 (h2.trans (Nat.zero_add _))

/-- R147's loop writes the bits that the scan does and counts the same insertions, unless a ninth is due. -/
theorem stuffLoop_from (bs : List Bool) (p : StuffLoop) (hr : p.run < 5) (hi : p.ins ≤ 8) :
    (p.ins + (stuffBits p.run bs).2 ≤ 8 → ∃ run, bs.foldlM StuffLoop.next p =
      some ⟨p.out ++ (stuffBits p.run bs).1, run, p.ins + (stuffBits p.run bs).2⟩) ∧
    (8 < p.ins + (stuffBits p.run bs).2 → bs.foldlM StuffLoop.next p = none) := by
  induction bs generalizing p with
  | nil =>
    refine ⟨fun _ => ⟨p.run, by simp [stuffBits]⟩, fun h => ?_⟩
    simp only [stuffBits] at h
    omega
  | cons b bs ih =>
    rw [List.foldlM_cons]
    cases b
    · have hn : StuffLoop.next p false = some { p with out := p.out ++ [false], run := 0 } := rfl
      have h := ih { p with out := p.out ++ [false], run := 0 } (Nat.zero_lt_succ 4) hi
      simpa [hn, stuffBits] using h
    · by_cases h5 : p.run + 1 = 5
      · by_cases h8 : p.ins = 8
        · have hn : StuffLoop.next p true = none := by simp [StuffLoop.next, h5, h8]
          simp only [stuffBits, Config.stuffRun, h5, h8, hn, if_true]
          exact ⟨fun h => by omega, fun _ => rfl⟩
        · have hn : StuffLoop.next p true = some ⟨p.out ++ [true, false], 0, p.ins + 1⟩ := by
            simp [StuffLoop.next, h5, h8]
          have h := ih ⟨p.out ++ [true, false], 0, p.ins + 1⟩ (Nat.zero_lt_succ 4) (by dsimp only; omega)
          simpa [hn, stuffBits, Config.stuffRun, h5, Nat.add_assoc, Nat.add_comm 1] using h
      · have hn : StuffLoop.next p true = some { p with out := p.out ++ [true], run := p.run + 1 } := by
          simp [StuffLoop.next, h5]
        have h := ih { p with out := p.out ++ [true], run := p.run + 1 } (by dsimp only; omega) hi
        simpa [hn, stuffBits, Config.stuffRun, h5] using h

/-- R147's loop over a whole stream: it completes with the scan's bits and count, up to eight insertions. -/
theorem stuffLoop_completes (bs : List Bool) (h : (stuffBits 0 bs).2 ≤ 8) :
    ∃ run, stuffLoop bs = some ⟨(stuffBits 0 bs).1, run, (stuffBits 0 bs).2⟩ := by
  have := (stuffLoop_from bs ⟨[], 0, 0⟩ (Nat.zero_lt_succ 4) (Nat.zero_le 8)).1
  simpa [stuffLoop] using this (by simpa using h)

/-- It refuses exactly where a ninth is due. -/
theorem stuffLoop_refuses (bs : List Bool) : stuffLoop bs = none ↔ 8 < (stuffBits 0 bs).2 := by
  constructor
  · intro h
    by_contra h8
    obtain ⟨run, e⟩ := stuffLoop_completes bs (by omega)
    simp [h] at e
  · intro h
    exact (stuffLoop_from bs ⟨[], 0, 0⟩ (Nat.zero_lt_succ 4) (Nat.zero_le 8)).2 (by simpa using h)

/-- What R147's loop has at its end. -/
theorem stuffLoop_result {bs : List Bool} {p : StuffLoop} (h : stuffLoop bs = some p) :
    p.out = (stuffBits 0 bs).1 ∧ p.ins = (stuffBits 0 bs).2 ∧ (stuffBits 0 bs).2 ≤ 8 := by
  have h8 : (stuffBits 0 bs).2 ≤ 8 := by
    by_contra h8
    rw [(stuffLoop_refuses bs).mpr (by omega)] at h
    simp at h
  obtain ⟨run, e⟩ := stuffLoop_completes bs h8
  rw [h] at e
  cases e
  exact ⟨rfl, rfl, h8⟩

/-! ### The units on bytes -/

theorem length_destuff (input : List Byte) : (destuff input).1.length = input.length - 1 := by
  unfold destuff
  rw [length_packBits, length_padBits _ _ (length_destuffBits _ _ _)]
  omega

/-- DESTUFF's output is the bits the scan keeps, and 0 bits after them. -/
theorem bits_destuff (input : List Byte) : bits (destuff input).1 =
    padBits (8 * (input.length - 1)) (destuffBits (8 * (input.length - 1)) 0 (bits input)).1 := by
  unfold destuff
  exact bits_packBits_of_dvd _ _ (length_padBits _ _ (length_destuffBits _ _ _))

/-- STUFF completes if at most eight insertions are due. -/
theorem stuff_completes (input : List Byte) (h : (stuffBits 0 (bits input)).2 ≤ 8) :
    ∃ out, stuff input = some (out, (stuffBits 0 (bits input)).2) ∧ out.length = input.length + 1 ∧
      bits out = (stuffBits 0 (bits input)).1 ++ List.replicate (8 - (stuffBits 0 (bits input)).2) false := by
  have hl := length_stuffBits (bits input) 0
  rw [length_bits] at hl
  refine ⟨_, if_pos h, ?_, ?_⟩
  · rw [length_packBits, length_padBits _ _ (by omega)]
    omega
  · rw [bits_packBits_of_dvd _ _ (length_padBits _ _ (by omega))]
    unfold padBits
    congr 2
    omega

/-- What STUFF answers, whenever it completes. -/
theorem stuff_result {input out : List Byte} {ins : Nat} (h : stuff input = some (out, ins)) :
    ins = (stuffBits 0 (bits input)).2 ∧ ins ≤ 8 ∧ out.length = input.length + 1 ∧
      bits out = (stuffBits 0 (bits input)).1 ++ List.replicate (8 - ins) false := by
  have h8 : (stuffBits 0 (bits input)).2 ≤ 8 := by
    unfold stuff at h
    split at h
    · assumption
    · simp at h
  obtain ⟨o, e, l, b⟩ := stuff_completes input h8
  rw [h] at e
  simp only [Option.some.injEq, Prod.mk.injEq] at e
  obtain ⟨rfl, rfl⟩ := e
  exact ⟨rfl, h8, l, b⟩

end Sys2Proof.Machine
end

