-- ==== Sys2Proof/Laws/Receive.lean ====
section
/-! SUPPORT. What the parts of RX_POLL can do, said once. -/

namespace Sys2Proof.Machine

/-! ### CLASSIFY and the verdict on a frame -/

theorem pktTypeOfDevice_deviceOf (type : PktType) : pktTypeOfDevice (deviceOf type) = some type := by
  cases type <;> rfl

theorem typeLen_range (type : PktType) : 8 ≤ typeLen type ∧ typeLen type ≤ 9 := by
  cases type <;> simp [typeLen, Config.lenWs, Config.lenRc]

theorem classify_cases (cfg : Config.Params) (c : Byte) :
    (∃ type, classify cfg c = (deviceOf type, typeLen type)) ∨ classify cfg c = (.unknown, 0) := by
  unfold classify
  split
  · exact Or.inl ⟨.windowSensor, rfl⟩
  · split
    · exact Or.inl ⟨.remoteControl, rfl⟩
    · exact Or.inr rfl

/-- A frame whose byte 1 is classified as a known type is judged by its CRC alone. -/
theorem judge_known (cfg : Config.Params) (ds : List Byte) (type : PktType)
    (h : classify cfg (byteAt ds 1) = (deviceOf type, typeLen type)) :
    judge cfg ds =
      if pktCrc (ds.take (typeLen type - 2)) type =
        halfOf (byteAt ds (typeLen type - 2)) (byteAt ds (typeLen type - 1))
      then some (type, typeLen type) else none := by
  obtain ⟨h8, h9⟩ := typeLen_range type
  unfold judge
  rw [h]
  dsimp only
  rw [if_neg (by simp only [Config.maxLen]; omega), pktTypeOfDevice_deviceOf]

theorem judge_unknown (cfg : Config.Params) (ds : List Byte) (h : classify cfg (byteAt ds 1) = (.unknown, 0)) :
    judge cfg ds = none := by
  unfold judge
  rw [h]
  rfl

/-- An accepted frame has the length of its type. -/
theorem judge_len {cfg : Config.Params} {ds : List Byte} {type : PktType} {len : Nat}
    (h : judge cfg ds = some (type, len)) : len = typeLen type := by
  rcases classify_cases cfg (byteAt ds 1) with ⟨ty, hc⟩ | hc
  · rw [judge_known cfg ds ty hc] at h
    split at h
    · simp only [Option.some.injEq, Prod.mk.injEq] at h
      rw [← h.1, ← h.2]
    · simp at h
  · rw [judge_unknown cfg ds hc] at h
    simp at h

/-! ### The parts of handling -/

theorem recordRssi_state (s : State) : recordRssi s = { s with
    chipIn := s.chipIn.tail, drawn := s.drawn + 1,
    bus := s.bus ++ regRdWire s.cfg s.cfg.aRssi (nextAnswer s).byte,
    rxFlag := s.rxFlag || ((nextAnswer s).edge && s.irqArmed), rssi := (nextAnswer s).byte } := by
  unfold recordRssi rssiRd
  rw [regRd_state]
  rfl

theorem recordRssi_reads (s : State) : Reads [nextAnswer s] s (recordRssi s) := by
  rw [recordRssi_state]
  exact .one rfl rfl rfl rfl

/-- Reading the window: what it moves, what `raw` and `ds` then hold, what it draws, and its bus traffic. -/
theorem readWindow_state (s : State) : ∃ raw ds ci d b cr fo rf,
    readWindow s = { s with
      raw := raw, ds := ds, chipMode := .standby, chipIn := ci, drawn := d, bus := b, chipRegs := cr, fifoOut := fo,
      rxFlag := rf } ∧
    ds.bytes = revBuf (destuff raw.bytes).1 ∧
    (∃ polls window ready, ModePolls s.cfg (answerBytes polls) ready ∧ Reads (polls ++ window) s (readWindow s) ∧
      raw.bytes = answerBytes window ∧ b = s.bus ++ setModeWire s.cfg s.cfg.modeStandby (answerBytes polls) ++
      .out (busAddrByte s.cfg.rwWrite false s.cfg.aFifo) :: raw.bytes.map .inp) ∧
    RegsKeptOutside [s.cfg.aMode] s (readWindow s) ∧ (s.cfg.aMode ≠ s.cfg.aFifo → fo = s.fifoOut) := by
  have ht := (setMode_traffic .standby s).trans (fifoRd_traffic Config.maxFrame (setMode .standby s).2)
  have hk := setMode_regsKept .standby s
  have hcfg : (setMode .standby s).2.cfg = s.cfg := (setMode_traffic .standby s).cfg
  have hw := fun h => (setMode_writes .standby s h).1
  obtain ⟨polls, hs, hp, hpb⟩ := setMode_polls .standby s
  obtain ⟨window, hd, hwin, hlen, hb⟩ := fifoRd_bytes Config.maxFrame (setMode .standby s).2
  obtain ⟨hr, hf⟩ := fifoRd_chipSide Config.maxFrame (setMode .standby s).2
  unfold readWindow storeWindow freeze
  generalize fifoRd Config.maxFrame (setMode .standby s).2 = w at *
  obtain ⟨win, s2⟩ := w
  obtain ⟨ci, d, b, cr, fo, rf, e⟩ := ht.exists_update
  dsimp only at *
  subst hwin
  have hl : (answerBytes window).length = 10 := by rw [answerBytes, List.length_map, hlen]; rfl
  generalize hwin : answerBytes window = win at *
  have hraw : (overlay s.raw win).bytes = win := overlay_bytes_full _ _ hl
  refine ⟨overlay s.raw win, overlay s.ds (revBuf (destuff (overlay s.raw win).bytes).1), ci, d, b, cr, fo, rf,
    ?_, ?_, ⟨polls, window, _, hp, ?_, ?_, ?_⟩, ?_, ?_⟩
  · rw [e]
  · rw [overlay_bytes_full, hraw]
    rw [hraw]
    simp only [revBuf, List.length_map, length_destuff, hl]
  · exact hs.trans ⟨⟨hd.drew.next, hd.drew.chipIn, hd.drew.drawn⟩, hd.rxFlag, hd.irqArmed⟩
  · rw [hraw, hwin]
  · have : s2.bus = b := by rw [e]
    rw [← this, hb, hraw, hcfg, hpb]
    rfl
  · intro n hn
    show s2.chipRegs.read n = _
    rw [hr]
    exact hk n hn
  · intro hne
    have : s2.fifoOut = fo := by rw [e]
    rw [← this, hf, hw hne]

/-- The end of handling: what it moves, what it draws, and its bus traffic. -/
theorem endHandling_state (s : State) : ∃ ci d b cr fo rf r,
    endHandling s = { s with
      rxState := .idle, chipMode := .receive, rssi := r, chipIn := ci, drawn := d, bus := b, chipRegs := cr,
      fifoOut := fo, rxFlag := rf } ∧
    (∃ polls last ready, ModePolls s.cfg (answerBytes polls) ready ∧ Reads (polls ++ [last]) s (endHandling s) ∧
      r = last.byte ∧
      b = s.bus ++ setModeWire s.cfg s.cfg.modeReceive (answerBytes polls) ++ regRdWire s.cfg s.cfg.aRssi r) ∧
    RegsKeptOutside [s.cfg.aMode] s (endHandling s) ∧ (s.cfg.aMode ≠ s.cfg.aFifo → fo = s.fifoOut) := by
  have hk := setMode_regsKept .receive s
  have hw := fun h => (setMode_writes .receive s h).1
  obtain ⟨polls, hs, hp, hb⟩ := setMode_polls .receive s
  have hr := hs.trans (recordRssi_reads (setMode .receive s).2)
  obtain ⟨ci, d, b, cr, fo, rf, e⟩ := (setMode_traffic .receive s).exists_update
  have e' : endHandling s = { recordRssi (setMode .receive s).2 with rxState := .idle } := rfl
  have hr' : Reads (polls ++ [nextAnswer (setMode .receive s).2]) s (endHandling s) :=
    ⟨⟨hr.drew.next, hr.drew.chipIn, hr.drew.drawn⟩, hr.rxFlag, hr.irqArmed⟩
  rw [recordRssi_state] at e'
  rw [e'] at hr' ⊢
  rw [e] at hr' ⊢
  refine ⟨_, _, _, _, _, _, _, rfl, ⟨polls, _, _, hp, hr', rfl, ?_⟩, ?_, ?_⟩
  · rw [e] at hb
    dsimp only at hb ⊢
    rw [hb]
    rfl
  · intro n hn
    have h := hk n hn
    rw [e] at h
    exact h
  · intro hne
    have h := hw hne
    rw [e] at h
    exact h

/-! ### Handling as one verdict and one end -/

/-- The state between the verdict and the end of handling. -/
def judged (verdict : Option (PktType × Nat)) (s : State) : State :=
  match verdict with
  | some (type, len) => publish type len s
  | none => { s with rxState := .rejected }

/-- How a poll with this verdict ends. -/
def pollEndOf : Option (PktType × Nat) → PollEnd
  | some _ => .accepted
  | none => .rejected

theorem handle_eq (s : State) : handle s =
    (pollEndOf (judge s.cfg (readWindow s).ds.bytes),
      endHandling (judged (judge s.cfg (readWindow s).ds.bytes) (readWindow s))) := by
  unfold handle
  cases judge s.cfg (readWindow s).ds.bytes with
  | none => rfl
  | some p => rfl

/-- Between the verdict and the end only the published packet, `rssi`, `rx_state` and chip traffic moved. -/
theorem judged_state (verdict : Option (PktType × Nat)) (s : State) : ∃ dec dl dt rs rx ci d b rf,
    judged verdict s = { s with
      dec := dec, decLen := dl, decType := dt, rssi := rs, rxState := rx, chipIn := ci, drawn := d,
      bus := b, rxFlag := rf } ∧
    ∃ published, Reads published s (judged verdict s) ∧
      b = s.bus ++ published.flatMap (fun a => regRdWire s.cfg s.cfg.aRssi a.byte) ∧
      (verdict = none → dec = s.dec ∧ dl = s.decLen ∧ dt = s.decType ∧ published = []) ∧
      ∀ type len, verdict = some (type, len) →
        dec = overlay s.dec (s.ds.bytes.take len) ∧ dl = len ∧ dt = deviceOf type ∧ published.length = 1 := by
  cases verdict with
  | none =>
    exact ⟨s.dec, s.decLen, s.decType, s.rssi, .rejected, s.chipIn, s.drawn, s.bus, s.rxFlag, rfl, [],
      .none rfl rfl rfl rfl, by simp, fun _ => ⟨rfl, rfl, rfl, rfl⟩, nofun⟩
  | some p =>
    obtain ⟨type, len⟩ := p
    rw [show judged (some (type, len)) s = publish type len s from rfl, publish, recordRssi_state]
    refine ⟨_, _, _, _, _, _, _, _, _, rfl, _, .one rfl rfl rfl rfl, by simp [nextAnswer], nofun, ?_⟩
    intro type' len' h
    simp only [Option.some.injEq, Prod.mk.injEq] at h
    obtain ⟨rfl, rfl⟩ := h
    exact ⟨rfl, rfl, rfl, rfl⟩

/-- What a poll never moves: the transmit side, the command state, what is asked and the configuration. -/
theorem poll_frame (s : State) : (poll s).2 = { s with
    raw := (poll s).2.raw, ds := (poll s).2.ds, dec := (poll s).2.dec, decLen := (poll s).2.decLen,
    decType := (poll s).2.decType, rssi := (poll s).2.rssi, rxState := (poll s).2.rxState,
    chipMode := (poll s).2.chipMode, rxFlag := (poll s).2.rxFlag, chipIn := (poll s).2.chipIn,
    drawn := (poll s).2.drawn, bus := (poll s).2.bus, chipRegs := (poll s).2.chipRegs,
    fifoOut := (poll s).2.fifoOut } := by
  unfold poll
  split
  · unfold observe
    split
    · split
      · rw [handle_eq]
        generalize hs1 : startHandling (flagRd .payloadReady s).2 = s1
        obtain ⟨_, _, _, _, _, _, _, e4, _⟩ :=
          endHandling_state (judged (judge s1.cfg (readWindow s1).ds.bytes) (readWindow s1))
        obtain ⟨_, _, _, _, _, _, _, _, _, e3, _⟩ := judged_state (judge s1.cfg (readWindow s1).ds.bytes) (readWindow s1)
        obtain ⟨_, _, _, _, _, _, _, _, e2, _⟩ := readWindow_state s1
        rw [flagRd_update] at hs1
        dsimp only
        rw [e4, e3, e2, ← hs1]
        rfl
      · rw [flagRd_update]
    · rfl
  · rw [(setMode_traffic .receive s).frame]

theorem execRxPoll_initialized (s : State) (h : s.initialized = true) :
    execRxPoll s = .next (respondPoll (poll s).1 (poll s).2) := if_pos h

end Sys2Proof.Machine
end

