-- ==== Sys2Proof/Laws/Waiting.lean ====
section
/-! SUPPORT. A SEND in progress, one iteration at a time: what a poll neither reads nor writes, how recorded answers are
used up, that a step's bound on iterations is never reached, and the clear-channel wait as a run of RX_POLLs. -/

namespace Sys2Proof.Machine

/-! ### A poll neither reads nor writes the transmit command's fields -/

/-- `s` with the fields of a transmit command taken from `x`. -/
def withSide (x s : State) : State :=
  { s with pl := x.pl, st := x.st, txPhase := x.txPhase, job := x.job, ret := x.ret, cond := x.cond }

/-- The operation gives the same result and effect whatever the fields of a transmit command hold. -/
def Blind {α : Type} (f : State → α × State) : Prop :=
  ∀ x s : State, f (withSide x s) = ((f s).1, withSide x (f s).2)

theorem modeWait_blind (n : Nat) : Blind (modeWait n) := by
  intro x s
  induction n generalizing s with
  | zero => rfl
  | succ n ih =>
    by_cases h : (flagRd .modeReady s).1 = true
    · rw [modeWait_succ_ready n s h, modeWait_succ_ready n (withSide x s) h]
      rfl
    · rw [modeWait_succ_notReady n s h, modeWait_succ_notReady n (withSide x s) h]
      exact ih (flagRd .modeReady s).2

theorem setMode_blind (m : Mode) : Blind (setMode m) := fun x s => modeWait_blind _ x (commandMode m s)

theorem clockInMany_blind (n : Nat) : Blind (clockInMany n) := by
  intro x s
  induction n generalizing s with
  | zero => rfl
  | succ n ih =>
    have h := ih (clockIn s).2
    show (_ :: (clockInMany n (withSide x (clockIn s).2)).1, (clockInMany n (withSide x (clockIn s).2)).2) = _
    rw [h]
    rfl

theorem readWindow_blind (x s : State) : readWindow (withSide x s) = withSide x (readWindow s) := by
  have h1 : freeze (withSide x s) = withSide x (freeze s) := congrArg Prod.snd (setMode_blind .standby x s)
  have h2 := clockInMany_blind Config.maxFrame x (busAddr false (freeze s).cfg.aFifo (freeze s))
  unfold readWindow
  rw [h1]
  show storeWindow (clockInMany _ (withSide x (busAddr false (freeze s).cfg.aFifo (freeze s)))).1
    (clockInMany _ (withSide x (busAddr false (freeze s).cfg.aFifo (freeze s)))).2 = _
  rw [h2]
  rfl

theorem endHandling_blind (x s : State) : endHandling (withSide x s) = withSide x (endHandling s) := by
  have h : (setMode .receive (withSide x s)).2 = withSide x (setMode .receive s).2 :=
    congrArg Prod.snd (setMode_blind .receive x s)
  unfold endHandling
  rw [h]
  rfl

theorem judged_blind (verdict : Option (PktType × Nat)) (x s : State) :
    judged verdict (withSide x s) = withSide x (judged verdict s) := by
  cases verdict with
  | none => rfl
  | some p => rfl

theorem handle_blind : Blind handle := by
  intro x s
  have h1 : (withSide x (readWindow s)).ds = (readWindow s).ds := rfl
  have h2 : (withSide x s).cfg = s.cfg := rfl
  rw [handle_eq, handle_eq, readWindow_blind, h1, h2, judged_blind, endHandling_blind]

theorem poll_blind : Blind poll := by
  intro x s
  unfold poll
  by_cases hm : s.chipMode = .receive
  · rw [if_pos hm, if_pos (show (withSide x s).chipMode = .receive from hm)]
    unfold observe
    by_cases hf : s.rxFlag = true
    · rw [if_pos hf, if_pos (show (withSide x s).rxFlag = true from hf)]
      by_cases hp : (flagRd .payloadReady s).1 = true
      · rw [if_pos hp, if_pos (show (flagRd .payloadReady (withSide x s)).1 = true from hp)]
        exact handle_blind x (startHandling (flagRd .payloadReady s).2)
      · rw [if_neg hp, if_neg (show ¬ (flagRd .payloadReady (withSide x s)).1 = true from hp)]
        rfl
    · rw [if_neg hf, if_neg (show ¬ (withSide x s).rxFlag = true from hf)]
  · rw [if_neg hm, if_neg (show ¬ (withSide x s).chipMode = .receive from hm)]
    exact congrArg (fun p => (PollEnd.nothing, Prod.snd p)) (setMode_blind .receive x s)

/-! ### Recorded answers are used up -/

theorem flagRd_uses (f : ChipFlag) (s : State) : (flagRd f s).2.chipIn.length = s.chipIn.length - 1 := by
  rw [flagRd_update]
  simp

theorem modeWait_uses (n : Nat) (s : State) : (modeWait n s).2.chipIn.length ≤ s.chipIn.length - 1 := by
  have h1 := flagRd_uses .modeReady s
  induction n generalizing s with
  | zero => exact Nat.le_of_eq h1
  | succ n ih =>
    by_cases h : (flagRd .modeReady s).1 = true
    · rw [modeWait_succ_ready n s h]
      exact Nat.le_of_eq h1
    · rw [modeWait_succ_notReady n s h]
      have := ih (flagRd .modeReady s).2 (flagRd_uses _ _)
      omega

theorem setMode_uses (m : Mode) (s : State) : (setMode m s).2.chipIn.length ≤ s.chipIn.length - 1 := by
  have h := modeWait_uses (s.cfg.modeReadyTimeout - 1) (commandMode m s)
  rw [show (commandMode m s).chipIn = s.chipIn by rw [commandMode_state]] at h
  exact h

theorem clockInMany_uses (n : Nat) (s : State) : (clockInMany n s).2.chipIn.length ≤ s.chipIn.length := by
  induction n generalizing s with
  | zero => exact Nat.le_refl _
  | succ n ih =>
    have h := ih (clockIn s).2
    rw [clockIn_state] at h
    simp only [List.length_tail] at h
    exact Nat.le_trans h (Nat.sub_le _ _)

theorem recordRssi_uses (s : State) : (recordRssi s).chipIn.length ≤ s.chipIn.length := by
  rw [recordRssi_state]
  simp

theorem poll_uses (s : State) : (poll s).2.chipIn.length ≤ s.chipIn.length := by
  unfold poll
  split
  · unfold observe
    split
    · have h1 := flagRd_uses .payloadReady s
      split
      · rw [handle_eq]
        generalize hs1 : startHandling (flagRd .payloadReady s).2 = s1
        have e1 : s1.chipIn = (flagRd .payloadReady s).2.chipIn := by
          rw [← hs1]
          rfl
        have h2 : (readWindow s1).chipIn.length ≤ s1.chipIn.length :=
          Nat.le_trans (clockInMany_uses Config.maxFrame (busAddr false (freeze s1).cfg.aFifo (freeze s1)))
            (Nat.le_trans (setMode_uses .standby s1) (Nat.sub_le _ _))
        have h3 : ∀ verdict, (judged verdict (readWindow s1)).chipIn.length ≤ (readWindow s1).chipIn.length := by
          intro verdict
          cases verdict with
          | none => exact Nat.le_refl _
          | some p => exact recordRssi_uses _
        have h4 : ∀ w : State, (endHandling w).chipIn.length ≤ w.chipIn.length := fun w =>
          Nat.le_trans (recordRssi_uses (setMode .receive w).2)
            (Nat.le_trans (setMode_uses .receive w) (Nat.sub_le _ _))
        have h5 := h4 (judged (judge s1.cfg (readWindow s1).ds.bytes) (readWindow s1))
        have h6 := h3 (judge s1.cfg (readWindow s1).ds.bytes)
        rw [e1] at h2
        dsimp only
        omega
      · dsimp only
        omega
    · exact Nat.le_refl _
  · exact Nat.le_trans (setMode_uses .receive s) (Nat.sub_le _ _)

/-! ### A step goes on with a SEND one iteration at a time -/

/-- Iterations still to come, at most, before the recorded answers are used up or the SEND ends. -/
def ticksLeft (s : State) : Nat :=
  s.chipIn.length + match s.txPhase with
    | .cca => s.job.ccaLeft + 2
    | .setup | .fill => 1
    | .off | .waitSent | .restore => 0

theorem txTick_off (s : State) (h : s.txPhase = .off) : txTick s = s := by
  rw [txTick, h]

theorem txTick_cca (s : State) (h : s.txPhase = .cca) : txTick s = ccaTick s := by
  rw [txTick, h]

theorem txTick_setup (s : State) (h : s.txPhase = .setup) : txTick s = setupTick s := by
  rw [txTick, h]

theorem txTick_fill (s : State) (h : s.txPhase = .fill) : txTick s = fillTick s := by
  rw [txTick, h]

theorem txTick_waitSent (s : State) (h : s.txPhase = .waitSent) : txTick s = waitTick s := by
  rw [txTick, h]

theorem txTick_restore (s : State) (h : s.txPhase = .restore) : txTick s = restoreTick s := by
  rw [txTick, h]

theorem txPass_state (s : State) : txPass s = { s with
    acc := (packFrom s.acc s.accN (frameBits s)).2.1, accN := (packFrom s.acc s.accN (frameBits s)).2.2,
    bus := s.bus ++ (passBytes s).flatMap (fun b => fifoWireBytes s.cfg [b]),
    fifoOut := s.fifoOut ++ passBytes s } := by
  rw [txPass, fifoWrEach_state]

/-- The phase, and the receive side, after each iteration: what every phase but the clear-channel wait shares. -/
theorem setupTick_frame (s : State) : ∃ fr tot ci d b cr fo rf, setupTick s = { s with
    frame := fr, total := tot, acc := 0, accN := 0, rep := 0, txActive := false, txPhase := .fill,
    chipMode := .standby, chipIn := ci, drawn := d, bus := b, chipRegs := cr, fifoOut := fo, rxFlag := rf } ∧
    ci.length ≤ s.chipIn.length - 1 := by
  obtain ⟨ci, d, b, cr, fo, rf, e⟩ := (setMode_traffic .standby s).exists_update
  have hu := setMode_uses .standby s
  unfold setupTick
  dsimp only
  rw [e] at hu ⊢
  rw [regWr_state, fifoWr_state]
  exact ⟨_, _, _, _, _, _, _, _, rfl, hu⟩

theorem fillTick_frame (s : State) (h : s.txPhase = .fill) : ∃ ac an ph rp ta cm ci d b cr fo rf, fillTick s = { s with
    acc := ac, accN := an, txPhase := ph, rep := rp, txActive := ta, chipMode := cm, chipIn := ci, drawn := d, bus := b,
    chipRegs := cr, fifoOut := fo, rxFlag := rf } ∧
    ((ph = .fill ∧ ci.length ≤ s.chipIn.length - 1) ∨ (ph = .waitSent ∧ ci = s.chipIn)) := by
  have h1 := flagRd_uses .fifoLevel s
  unfold fillTick
  split
  · split
    · unfold activate
      split
      · rw [flagRd_update] at h1 ⊢
        exact ⟨_, _, _, _, _, _, _, _, _, _, _, _, rfl, Or.inl ⟨h, Nat.le_of_eq h1⟩⟩
      · have h2 := setMode_uses .transmit (flagRd .fifoLevel s).2
        obtain ⟨ci, d, b, cr, fo, rf, e⟩ := (setMode_traffic .transmit (flagRd .fifoLevel s).2).exists_update
        rw [h1] at h2
        rw [e] at h2 ⊢
        rw [flagRd_update]
        exact ⟨_, _, _, _, _, _, _, _, _, _, _, _, rfl, Or.inl ⟨h, Nat.le_trans h2 (Nat.sub_le _ _)⟩⟩
    · rw [txPass_state]
      rw [flagRd_update] at h1 ⊢
      exact ⟨_, _, _, _, _, _, _, _, _, _, _, _, rfl, Or.inl ⟨h, Nat.le_of_eq h1⟩⟩
  · exact ⟨_, _, _, _, _, _, _, _, _, _, _, _, rfl, Or.inr ⟨rfl, rfl⟩⟩

theorem waitTick_frame (s : State) (h : s.txPhase = .waitSent) : ∃ ph ci d b rf, waitTick s = { s with
    txPhase := ph, chipIn := ci, drawn := d, bus := b, rxFlag := rf } ∧
    (ph = .waitSent ∨ ph = .restore) ∧ ci.length ≤ s.chipIn.length - 1 := by
  have h1 := flagRd_uses .packetSent s
  unfold waitTick
  rw [flagRd_update] at h1 ⊢
  split
  · exact ⟨_, _, _, _, _, rfl, Or.inr rfl, Nat.le_of_eq h1⟩
  · exact ⟨_, _, _, _, _, rfl, Or.inl h, Nat.le_of_eq h1⟩

theorem restoreTick_frame (s : State) : ∃ ls ln ct cm ci d b cr fo rf, restoreTick s = { s with
    lastSent := ls, lastSentLen := ln, counter := ct, txPhase := .off, chipMode := cm, chipIn := ci, drawn := d, bus := b,
    chipRegs := cr, fifoOut := fo, rxFlag := rf, ret := .bool true, cond := none } := by
  unfold restoreTick
  dsimp only
  rw [regWr_state, (setMode_traffic .standby s).frame]
  exact ⟨_, _, _, _, _, _, _, _, _, _, rfl⟩

/-- With `tx_active` 0 a test of PacketSent is nothing but the read, whatever it reads. -/
theorem waitTick_stuck (s : State) (h : s.txActive = false) : waitTick s = (flagRd .packetSent s).2 := by
  rw [waitTick, h, Bool.and_false, if_neg Bool.false_ne_true]

/-- So a SEND whose chip was never switched to Transmit makes reads only, for ever. -/
theorem txRun_stuck (n : Nat) (s : State) (hp : s.txPhase = .waitSent) (h : s.txActive = false) :
    ChipTraffic s (txRun n s) ∧ (txRun n s).chipRegs = s.chipRegs ∧ (txRun n s).fifoOut = s.fifoOut := by
  have hr : ChipTraffic s (txTick s) ∧ (txTick s).chipRegs = s.chipRegs ∧ (txTick s).fifoOut = s.fifoOut := by
    rw [txTick_waitSent s hp, waitTick_stuck s h]
    exact ⟨flagRd_traffic _ s, flagRd_chipSide _ s⟩
  induction n generalizing s with
  | zero => exact hr
  | succ n ih =>
    unfold txRun
    split
    · exact hr
    · obtain ⟨h1, h2, h3⟩ := hr
      have hp' : (txTick s).txPhase = .waitSent := by
        rw [h1.frame]
        exact hp
      have h' : (txTick s).txActive = false := by
        rw [h1.frame]
        exact h
      have hr' : ChipTraffic (txTick s) (txTick (txTick s)) ∧ (txTick (txTick s)).chipRegs = (txTick s).chipRegs ∧
          (txTick (txTick s)).fifoOut = (txTick s).fifoOut := by
        rw [txTick_waitSent _ hp', waitTick_stuck _ h']
        exact ⟨flagRd_traffic _ _, flagRd_chipSide _ _⟩
      obtain ⟨k1, k2, k3⟩ := ih (txTick s) hp' h' hr'
      exact ⟨h1.trans k1, k2.trans h2, k3.trans h3⟩

/-- An iteration after which the SEND goes on, with answers left, leaves fewer iterations to come. -/
theorem txTick_ticksLeft (s : State) (h1 : (txTick s).txPhase ≠ .off) (h2 : (txTick s).chipIn ≠ []) :
    ticksLeft (txTick s) < ticksLeft s := by
  have hpos := List.length_pos_iff.mpr h2
  cases hp : s.txPhase with
  | off => exact absurd (by rw [txTick_off s hp]; exact hp) h1
  | cca =>
    rw [txTick_cca s hp] at hpos ⊢
    unfold ccaTick at hpos ⊢
    split at hpos
    · rename_i h0
      simp only [ticksLeft, hp, if_pos h0]
      omega
    · rename_i h0
      rw [if_neg h0]
      split
      · have : (drawClear s).2.chipIn = s.chipIn := rfl
        simp only [ticksLeft, hp, this]
        omega
      · have hu := poll_uses (drawClear s).2
        have hph : (poll (drawClear s).2).2.txPhase = .cca := by
          rw [poll_frame]
          exact hp
        have hd : (drawClear s).2.chipIn = s.chipIn := rfl
        rw [hd] at hu
        simp only [ticksLeft, hp, hph]
        omega
  | setup =>
    obtain ⟨_, _, ci, _, _, _, _, _, e, hu⟩ := setupTick_frame s
    rw [txTick_setup s hp, e] at hpos ⊢
    simp only [ticksLeft, hp] at hpos ⊢
    omega
  | fill =>
    obtain ⟨_, _, ph, _, _, _, ci, _, _, _, _, _, e, hu⟩ := fillTick_frame s hp
    rw [txTick_fill s hp, e] at hpos ⊢
    rcases hu with ⟨rfl, hu⟩ | ⟨rfl, hu⟩
    · simp only [ticksLeft, hp] at hpos ⊢
      omega
    · simp only [ticksLeft, hp, hu]
      omega
  | waitSent =>
    obtain ⟨ph, ci, _, _, _, e, hph, hu⟩ := waitTick_frame s hp
    rw [txTick_waitSent s hp, e] at hpos ⊢
    rcases hph with rfl | rfl <;> simp only [ticksLeft, hp] at hpos ⊢ <;> omega
  | restore =>
    obtain ⟨_, _, _, _, _, _, _, _, _, _, e⟩ := restoreTick_frame s
    exact absurd (by rw [txTick_restore s hp, e]) h1

theorem txRun_goes (n : Nat) (s : State) (h1 : (txTick s).txPhase ≠ .off) (h2 : (txTick s).chipIn ≠ []) :
    txRun (n + 1) s = txRun n (txTick s) := by
  rw [txRun, if_neg]
  simp [h1, h2]

theorem txRun_stops (n : Nat) (s : State) (h : (txTick s).txPhase = .off ∨ (txTick s).chipIn = []) :
    txRun n s = txTick s := by
  cases n with
  | zero => rfl
  | succ n => exact if_pos h

/-- Where there is room for all iterations to come, more room changes nothing. -/
theorem txRun_enough (n m : Nat) (s : State) (hn : ticksLeft s ≤ n) (hm : ticksLeft s ≤ m) :
    txRun n s = txRun m s := by
  induction n generalizing s m with
  | zero =>
    have hs : (txTick s).txPhase = .off ∨ (txTick s).chipIn = [] := by
      by_contra hs
      have := txTick_ticksLeft s (fun e => hs (Or.inl e)) (fun e => hs (Or.inr e))
      omega
    rw [txRun_stops _ s hs, txRun_stops _ s hs]
  | succ n ih =>
    by_cases hs : (txTick s).txPhase = .off ∨ (txTick s).chipIn = []
    · rw [txRun_stops _ s hs, txRun_stops _ s hs]
    · have h1 := fun e => hs (Or.inl e)
      have h2 := fun e => hs (Or.inr e)
      have hl := txTick_ticksLeft s h1 h2
      obtain ⟨m, rfl⟩ : ∃ k, m = k + 1 := ⟨m - 1, by omega⟩
      rw [txRun_goes n s h1 h2, txRun_goes m s h1 h2]
      exact ih m _ (by omega) (by omega)

theorem ticksLeft_le (s : State) : ticksLeft s ≤ s.chipIn.length + s.job.ccaLeft + 3 := by
  unfold ticksLeft
  split <;> omega

/-- A SEND goes on from one iteration to the next while the state records answers: no bound cuts it short. -/
theorem resume_goes (s : State) (h1 : (txTick s).txPhase ≠ .off) (h2 : (txTick s).chipIn ≠ []) :
    resume s = resume (txTick s) := by
  have hl := txTick_ticksLeft s h1 h2
  have hs := ticksLeft_le s
  have ht := ticksLeft_le (txTick s)
  show txRun (s.chipIn.length + s.job.ccaLeft + 2 + 1) s = _
  rw [txRun_goes _ s h1 h2]
  exact txRun_enough _ _ _ (by omega) ht

theorem resume_stops (s : State) (h : (txTick s).txPhase = .off ∨ (txTick s).chipIn = []) :
    resume s = txTick s := txRun_stops _ s h

/-! ### The step around a SEND -/

theorem step_atRest (s : State) (h : s.txPhase = .off) :
    step s = match fetch s with
      | .idle => .next s
      | .refused r => .refused r
      | .run i rest => exec i (withMoves rest s) := by
  unfold step
  rw [h]
  cases fetch s <;> rfl

theorem step_sending (s : State) (h : s.txPhase ≠ .off) (hf : ∀ rest, fetch s ≠ .run .irqEdge rest) :
    step s = .next (resume s) := by
  unfold step
  split
  · contradiction
  · contradiction
  · contradiction
  · rename_i a b c
    first | exact absurd a (hf _) | exact absurd b (hf _)
  · rfl

theorem step_edge (s : State) (rest : List Move) (hf : fetch s = .run .irqEdge rest) :
    step s = .next (takeEdge (withMoves rest s)) := by
  unfold step
  rw [hf]
  cases s.txPhase <;> rfl

/-- A step that goes on with a SEND is one iteration, or that and the next step. -/
theorem step_iteration (s : State) (h : s.txPhase ≠ .off) (hf : ∀ rest, fetch s ≠ .run .irqEdge rest)
    (hp : (txTick s).txPhase ≠ .off) (hft : fetch (txTick s) = fetch s) :
    step s = if (txTick s).chipIn = [] then .next (txTick s) else step (txTick s) := by
  rw [step_sending s h hf]
  split
  · rename_i hc
    rw [resume_stops s (Or.inr hc)]
  · rename_i hc
    rw [step_sending _ hp (by rw [hft]; exact hf), resume_goes s hp hc]

/-! ### The clear-channel wait -/

/-- `s` as the SEND whose operands and side fields `x` holds waits in it, `left` iterations to go. -/
def waiting (x : State) (left : Nat) (s : State) : State :=
  withSide { x with txPhase := .cca, job := { x.job with ccaLeft := left } } s

/-- `s` as that SEND is about to set up in it. -/
def settingUp (x : State) (left : Nat) (s : State) : State :=
  withSide { x with txPhase := .setup, job := { x.job with ccaLeft := left } } s

theorem drawClear_state (s : State) : drawClear s = ((nextClear s).clear, afterClearDraw s) := rfl

/-- An RX_POLL that answers next is a poll of an initialised block and its result. -/
theorem rxPoll_next {s v : State} (h : exec .rxPoll s = .next v) :
    s.initialized = true ∧ v = respondPoll (poll s).1 (poll s).2 := by
  have h : execRxPoll s = .next v := h
  unfold execRxPoll at h
  split at h
  · injection h with h
    exact ⟨by assumption, h.symm⟩
  · simp at h

theorem rxPoll_of_initialized (s : State) (h : s.initialized = true) :
    exec .rxPoll s = .next (respondPoll (poll s).1 (poll s).2) := execRxPoll_initialized s h

theorem withSide_respondPoll (x : State) (e : PollEnd) (s : State) : withSide x (respondPoll e s) = withSide x s := by
  cases e <;> rfl

theorem respondPoll_chipIn (e : PollEnd) (s : State) : (respondPoll e s).chipIn = s.chipIn := by
  cases e <;> rfl

theorem ccaTick_limit (s : State) (h : s.job.ccaLeft = 0) : ccaTick s = { s with txPhase := .setup } := if_pos h

theorem ccaTick_clear (s : State) (h0 : s.job.ccaLeft ≠ 0) (h : (nextClear s).clear = true) :
    ccaTick s = { afterClearDraw s with txPhase := .setup } := by
  rw [ccaTick, if_neg h0, if_pos (show (drawClear s).1 = true from h), drawClear_state]

/-- An iteration on a channel that is not clear is the RX_POLL, its boolean and condition discarded. -/
theorem ccaTick_busy (s v : State) (h0 : s.job.ccaLeft ≠ 0) (h : (nextClear s).clear = false)
    (hv : exec .rxPoll (afterClearDraw s) = .next v) :
    ccaTick s = { v with ret := s.ret, cond := s.cond, job := { s.job with ccaLeft := s.job.ccaLeft - 1 } } := by
  have hr : (poll (afterClearDraw s)).2.ret = s.ret ∧ (poll (afterClearDraw s)).2.cond = s.cond := by
    rw [poll_frame]
    exact ⟨rfl, rfl⟩
  obtain ⟨_, rfl⟩ := rxPoll_next hv
  rw [ccaTick, if_neg h0, if_neg (show ¬ (drawClear s).1 = true by simp [drawClear_state, h]), drawClear_state,
    ← hr.1, ← hr.2]
  cases (poll (afterClearDraw s)).1 <;> rfl

theorem waiting_busy (x : State) (n : Nat) (s v : State) (h : (nextClear s).clear = false)
    (hv : exec .rxPoll (afterClearDraw s) = .next v) : txTick (waiting x (n + 1) s) = waiting x n v := by
  obtain ⟨hi, rfl⟩ := rxPoll_next hv
  have hb : poll (afterClearDraw (waiting x (n + 1) s)) =
      ((poll (afterClearDraw s)).1, waiting x (n + 1) (poll (afterClearDraw s)).2) := poll_blind _ (afterClearDraw s)
  rw [txTick_cca _ rfl, ccaTick_busy (waiting x (n + 1) s) _ (Nat.succ_ne_zero n) h
    (rxPoll_of_initialized _ (show (afterClearDraw s).initialized = true from hi)), hb]
  cases (poll (afterClearDraw s)).1 <;> rfl

theorem channelPolls_uses {n : Nat} {s w : State} (h : ChannelPolls n s w) : w.chipIn.length ≤ s.chipIn.length := by
  induction h with
  | none => exact Nat.le_refl _
  | busy _ hv _ ih =>
    obtain ⟨_, rfl⟩ := rxPoll_next hv
    rw [respondPoll_chipIn] at ih
    exact Nat.le_trans ih (poll_uses _)

/-- The waiting SEND goes through the iterations of its wait, if answers are left after them. -/
theorem waiting_polls {n : Nat} {s w : State} (h : ChannelPolls n s w) (x : State) (left : Nat) (hw : w.chipIn ≠ []) :
    resume (waiting x (left + n) s) = resume (waiting x left w) := by
  induction h with
  | none => rfl
  | @busy n s v w hb hv hp ih =>
    have hc : v.chipIn ≠ [] := by
      have h1 := channelPolls_uses hp
      have h2 := List.length_pos_iff.mpr hw
      exact List.length_pos_iff.mp (by omega)
    have ht := waiting_busy x (left + n) s v hb hv
    have hg := resume_goes (waiting x (left + n + 1) s)
    rw [ht] at hg
    rw [← ih hw]
    exact hg nofun hc

/-- The waiting SEND gets to its setup where its wait ends, if answers are left there. -/
theorem waiting_ends {limit : Nat} {s u : State} (h : ChannelWait limit s u) (x : State) (hu : u.chipIn ≠ []) :
    ∃ left, resume (waiting x limit s) = resume (settingUp x left u) := by
  cases h with
  | limit hp =>
    refine ⟨0, ?_⟩
    have h1 := waiting_polls hp x 0 hu
    rw [Nat.zero_add] at h1
    rw [h1]
    exact resume_goes (waiting x 0 u) nofun hu
  | @clear n w hn hp hc =>
    refine ⟨limit - n, ?_⟩
    have h1 := waiting_polls hp x (limit - n) hu
    rw [show limit - n + n = limit by omega] at h1
    obtain ⟨k, hk⟩ : ∃ k, limit - n = k + 1 := ⟨limit - n - 1, by omega⟩
    have ht : txTick (waiting x (k + 1) w) = settingUp x (k + 1) (afterClearDraw w) :=
      ccaTick_clear (waiting x (k + 1) w) (Nat.succ_ne_zero k) hc
    have hg := resume_goes (waiting x (k + 1) w)
    rw [ht] at hg
    rw [h1, hk]
    exact hg nofun hu

/-- An RX_POLL does the same, with the same boolean, whatever the fields of a transmit command hold. -/
theorem rxPoll_withSide (x : State) {s v : State} (h : exec .rxPoll s = .next v) :
    ∃ y, exec .rxPoll (withSide x s) = .next (withSide y v) ∧ (withSide y v).ret = v.ret := by
  obtain ⟨hi, rfl⟩ := rxPoll_next h
  have hb : poll (withSide x s) = ((poll s).1, withSide x (poll s).2) := poll_blind x s
  rw [rxPoll_of_initialized (withSide x s) hi, hb]
  exact ⟨respondPoll (poll s).1 (withSide x (poll s).2), by cases (poll s).1 <;> rfl, by cases (poll s).1 <;> rfl⟩

/-- So do the iterations of a wait. -/
theorem channelPolls_withSide {n : Nat} {s w : State} (h : ChannelPolls n s w) (x : State) :
    ∃ y, ChannelPolls n (withSide x s) (withSide y w) := by
  induction h generalizing x with
  | none => exact ⟨x, .none _⟩
  | busy hb hv _ ih =>
    obtain ⟨y, e, _⟩ := rxPoll_withSide x hv
    obtain ⟨z, hz⟩ := ih y
    exact ⟨z, .busy hb e hz⟩

/-- What a wait leaves alone: the transmit side, the flags INIT sets, and the configuration. -/
theorem channelPolls_frame {n : Nat} {s w : State} (h : ChannelPolls n s w) :
    w.cfg = s.cfg ∧ w.counter = s.counter ∧ w.frame = s.frame ∧ w.lastSent = s.lastSent ∧ w.pl = s.pl ∧ w.st = s.st := by
  induction h with
  | none => exact ⟨rfl, rfl, rfl, rfl, rfl, rfl⟩
  | @busy n s v w hb hv hp ih =>
    obtain ⟨_, rfl⟩ := rxPoll_next hv
    have e : ∀ (p : PollEnd) (q : State), (respondPoll p q).cfg = q.cfg ∧ (respondPoll p q).counter = q.counter ∧
        (respondPoll p q).frame = q.frame ∧ (respondPoll p q).lastSent = q.lastSent ∧
        (respondPoll p q).pl = q.pl ∧ (respondPoll p q).st = q.st := by
      intro p q
      cases p <;> exact ⟨rfl, rfl, rfl, rfl, rfl, rfl⟩
    obtain ⟨e1, e2, e3, e4, e5, e6⟩ := e (poll (afterClearDraw s)).1 (poll (afterClearDraw s)).2
    rw [e1, e2, e3, e4, e5, e6, poll_frame] at ih
    exact ih

theorem channelWait_frame {limit : Nat} {s u : State} (h : ChannelWait limit s u) :
    u.cfg = s.cfg ∧ u.counter = s.counter ∧ u.frame = s.frame ∧ u.lastSent = s.lastSent ∧ u.pl = s.pl ∧ u.st = s.st := by
  cases h with
  | limit hp => exact channelPolls_frame hp
  | clear _ hp _ => exact (channelPolls_frame hp :)

end Sys2Proof.Machine
end

