-- ==== Sys2Proof/Laws/Sending.lean ====
section
/-! SUPPORT. What a SEND does past its clear-channel wait, phase by phase, on recorded answers, and as a whole. -/

namespace Sys2Proof.Machine

/-! ### Setup -/

/-- TxSetup on recorded answers: its whole effect. -/
theorem setupTick_recorded (s : State) (polls rest : List Config.ChipAnswer) (ready : Bool)
    (hc : s.chipIn = polls ++ rest) (h : ModePolls s.cfg (answerBytes polls) ready) :
    ∃ regs fifo, setupTick s = { s with
      frame := overlay s.frame (Config.sync :: s.job.payload)
      total := BitVec.ofNat 8 (totalBits s.job.payload.length s.job.v)
      acc := 0, accN := 0, rep := 0, txActive := false, txPhase := .fill, chipMode := .standby
      rxFlag := s.rxFlag || (polls.any (fun a => a.edge) && s.irqArmed), chipIn := rest, drawn := s.drawn + polls.length
      bus := s.bus ++ setModeWire s.cfg s.cfg.modeStandby (answerBytes polls) ++
        regWrWire s.cfg s.cfg.aLen s.cfg.lenUnbounded ++ fifoWireBytes s.cfg [s.cfg.preamble0, s.cfg.preamble1]
      chipRegs := regs, fifoOut := fifo } ∧
      (∀ n : Nat, n ≠ s.cfg.aLen.toNat → n ≠ s.cfg.aMode.toNat → regs.read n = s.chipRegs.read n) ∧
      (s.cfg.aFifo ≠ s.cfg.aLen → s.cfg.aFifo ≠ s.cfg.aMode →
        fifo = s.fifoOut ++ [s.cfg.preamble0, s.cfg.preamble1]) := by
  unfold setupTick
  rw [setMode_recorded .standby s polls rest ready hc h]
  dsimp only
  rw [regWr_state, fifoWr_state]
  refine ⟨_, _, rfl, fun n hn hm => ?_, fun h1 h2 => ?_⟩
  · simp only [loadFrame, chipTakes]
    split <;> split <;> simp only [Memory.read_write_other _ _ hn, Memory.read_write_other _ _ hm]
  · simp only [loadFrame, chipTakes, if_neg (Ne.symm h1), if_neg (Ne.symm h2)]

/-! ### The fill loop -/

/-- FifoLevel clear: one pass. -/
theorem fillTick_pass (s : State) (hr : s.rep.toNat < Config.repeatCount)
    (hf : flagSet s.cfg .fifoLevel (nextAnswer s) = false) : fillTick s = { s with
      acc := (packFrom s.acc s.accN (frameBits s)).2.1, accN := (packFrom s.acc s.accN (frameBits s)).2.2,
      rep := s.rep + 1, rxFlag := s.rxFlag || ((nextAnswer s).edge && s.irqArmed),
      chipIn := s.chipIn.tail, drawn := s.drawn + 1,
      bus := s.bus ++ regRdWire s.cfg s.cfg.fifoLevel.addr (nextAnswer s).byte ++
        (passBytes s).flatMap (fun b => fifoWireBytes s.cfg [b]),
      fifoOut := s.fifoOut ++ passBytes s } := by
  rw [fillTick, if_pos hr, if_neg (by rw [flagRd_value, hf]; simp), txPass_state, flagRd_update]
  rfl

/-- FifoLevel set, the chip in Transmit: nothing but the read. -/
theorem fillTick_wait (s : State) (hr : s.rep.toNat < Config.repeatCount)
    (hf : flagSet s.cfg .fifoLevel (nextAnswer s) = true) (ha : s.txActive = true) :
    fillTick s = (flagRd .fifoLevel s).2 := by
  rw [fillTick, if_pos hr, if_pos (by rw [flagRd_value, hf]), activate, if_pos]
  rw [flagRd_update]
  exact ha

/-- FifoLevel set for the first time: the chip is switched to Transmit. -/
theorem fillTick_switch (s : State) (hr : s.rep.toNat < Config.repeatCount)
    (hf : flagSet s.cfg .fifoLevel (nextAnswer s) = true) (ha : s.txActive = false) :
    fillTick s = { (setMode .transmit (flagRd .fifoLevel s).2).2 with txActive := true } := by
  rw [fillTick, if_pos hr, if_pos (by rw [flagRd_value, hf]), activate, if_neg]
  rw [flagRd_update]
  simp [ha]

/-- All passes made: the fill loop ends. -/
theorem fillTick_full (s : State) (hr : s.rep.toNat = Config.repeatCount) :
    fillTick s = { s with txPhase := .waitSent } := by
  rw [fillTick, if_neg (by omega)]

theorem passCount_cons_clear (cfg : Config.Params) (a : Config.ChipAnswer) (l : List Config.ChipAnswer)
    (h : flagSet cfg .fifoLevel a = false) : passCount cfg (a :: l) = passCount cfg l + 1 := by
  simp [passCount, h]

theorem passCount_cons_set (cfg : Config.Params) (a : Config.ChipAnswer) (l : List Config.ChipAnswer)
    (h : flagSet cfg .fifoLevel a = true) : passCount cfg (a :: l) = passCount cfg l := by
  simp [passCount, h]

theorem passCount_of_clear (cfg : Config.Params) (l : List Config.ChipAnswer)
    (h : ∀ a ∈ l, flagSet cfg .fifoLevel a = false) : passCount cfg l = l.length := by
  unfold passCount
  rw [List.filter_eq_self.mpr]
  intro a ha
  simp [h a ha]

/-- Checks that end with one that lets a pass through make at least one pass. -/
theorem passCount_pos (cfg : Config.Params) (l : List Config.ChipAnswer) (h : l ≠ [])
    (hl : ∀ a, l.getLast? = some a → flagSet cfg .fifoLevel a = false) : 1 ≤ passCount cfg l := by
  have hm := List.getLast_mem h
  have hf := hl _ (List.getLast?_eq_some_getLast h)
  refine List.length_pos_iff.mpr (List.ne_nil_of_mem (a := l.getLast h) ?_)
  simp [hm, hf]

/-- The fill loop on recorded checks, none of them set before the chip is in Transmit: so many passes, each continuing
the stream, and the bus bytes of `fillWire`. `frame` is the frame's bits, and `r` passes have been made. -/
theorem fill_checks (frame : List Bool) (r : Nat) (checks : List Config.ChipAnswer) (s : State)
    (rest : List Config.ChipAnswer) (hfr : frameBits s = frame) (hr : s.rep.toNat = r)
    (hp : s.txPhase = .fill) (hc : s.chipIn = checks ++ rest) (hne : rest ≠ [])
    (hacc : (s.acc, s.accN) = (packed frame r).2)
    (hset : ∀ a ∈ checks, flagSet s.cfg .fifoLevel a = true → s.txActive = true)
    (hlast : ∀ a, checks.getLast? = some a → flagSet s.cfg .fifoLevel a = false)
    (hrep : r + passCount s.cfg checks ≤ Config.repeatCount) :
    ∃ out rp, (packed frame r).1 ++ out = (packed frame (r + passCount s.cfg checks)).1 ∧
      rp.toNat = r + passCount s.cfg checks ∧
      resume s = resume { s with
        acc := (packed frame (r + passCount s.cfg checks)).2.1
        accN := (packed frame (r + passCount s.cfg checks)).2.2
        rep := rp, rxFlag := s.rxFlag || (checks.any (fun a => a.edge) && s.irqArmed), chipIn := rest
        drawn := s.drawn + checks.length
        bus := s.bus ++ fillWire s.cfg (completed frame) r checks
        fifoOut := s.fifoOut ++ out } := by
  induction checks generalizing s r with
  | nil =>
    refine ⟨[], s.rep, by simp [passCount], by simp [passCount, hr], ?_⟩
    simp only [passCount, List.filter_nil, List.length_nil, Nat.add_zero, ← hacc, List.any_nil, Bool.false_and,
      Bool.or_false, fillWire, List.append_nil]
    rw [List.nil_append] at hc
    rw [← hc]
  | cons a checks ih =>
    have hn : nextAnswer s = a := by simp [nextAnswer, hc]
    have hlast' : ∀ b, checks.getLast? = some b → flagSet s.cfg .fifoLevel b = false := by
      intro b hb
      refine hlast b ?_
      rw [List.getLast?_cons, hb]
      rfl
    have hset' : ∀ b ∈ checks, flagSet s.cfg .fifoLevel b = true → s.txActive = true :=
      fun b hb => hset b (List.mem_cons_of_mem a hb)
    have hgo := resume_goes s
    rw [txTick_fill s hp] at hgo
    cases hf : flagSet s.cfg .fifoLevel a with
    | false =>
      rw [passCount_cons_clear _ _ _ hf] at hrep ⊢
      have ht := fillTick_pass s (by omega) (by rw [hn]; exact hf)
      have hps := packed_succ frame r
      rw [hfr, hn, hc, List.cons_append, List.tail_cons, show passBytes s = completed frame r by
        rw [passBytes, hfr, completed, ← hacc]] at ht
      rw [← hacc] at hps
      have hrn : (s.rep + 1).toNat = r + 1 := by
        simp only [Config.repeatCount] at hrep
        simp [BitVec.toNat_add]
        omega
      rw [ht] at hgo
      obtain ⟨out, rp, h1, h2, h3⟩ := ih (r + 1) (fillTick s) (by rw [ht]; exact hfr) (by rw [ht]; exact hrn)
        (by rw [ht]; exact hp) (by rw [ht]) (by rw [ht, hps]) (by rw [ht]; exact hset') (by rw [ht]; exact hlast')
        (by
          rw [ht]
          show r + 1 + passCount s.cfg checks ≤ _
          omega)
      rw [ht] at h1 h2 h3
      rw [show r + (passCount s.cfg checks + 1) = r + 1 + passCount s.cfg checks by omega]
      refine ⟨completed frame r ++ out, rp, ?_, h2, (hgo (by simp [hp]) (by simp [hne])).trans (h3.trans ?_)⟩
      · rw [← List.append_assoc, ← h1, hps]
      · congr 2
        · simp only [List.any_cons, Bool.or_assoc, ← Bool.and_or_distrib_right]
        · simp only [List.length_cons, Nat.add_assoc, Nat.add_comm 1]
        · simp only [fillWire, hf, List.append_assoc, Bool.false_eq_true, if_false]
        · simp only [List.append_assoc]
    | true =>
      have hne' : checks ≠ [] := by
        rintro rfl
        have := hlast a rfl
        rw [hf] at this
        simp at this
      have hpc := passCount_pos s.cfg checks hne' hlast'
      rw [passCount_cons_set _ _ _ hf] at hrep ⊢
      have ht := fillTick_wait s (by omega) (by rw [hn]; exact hf) (hset a (by simp) hf)
      rw [flagRd_update, hn, hc, List.cons_append, List.tail_cons] at ht
      rw [ht] at hgo
      obtain ⟨out, rp, h1, h2, h3⟩ := ih r (fillTick s) (by rw [ht]; exact hfr) (by rw [ht]; exact hr)
        (by rw [ht]; exact hp) (by rw [ht]) (by rw [ht]; exact hacc) (by rw [ht]; exact hset')
        (by rw [ht]; exact hlast') (by rw [ht]; exact hrep)
      rw [ht] at h1 h2 h3
      refine ⟨out, rp, h1, h2, (hgo (by simp [hp]) (by simp [hne])).trans (h3.trans ?_)⟩
      congr 2
      · simp only [List.any_cons, Bool.or_assoc, ← Bool.and_or_distrib_right]
      · simp only [List.length_cons, Nat.add_assoc, Nat.add_comm 1]
      · simp only [fillWire, hf, if_true, List.append_assoc, flagLoc]

/-- The bus bytes of some passes depend on the bytes of those passes only. -/
theorem fillWire_congr {cfg : Config.Params} {f g : Nat → List Byte} (checks : List Config.ChipAnswer) (r : Nat)
    (h : ∀ k, k < r + passCount cfg checks → f k = g k) : fillWire cfg f r checks = fillWire cfg g r checks := by
  induction checks generalizing r with
  | nil => rfl
  | cons a checks ih =>
    cases hf : flagSet cfg .fifoLevel a with
    | false =>
      rw [passCount_cons_clear _ _ _ hf] at h
      rw [fillWire, fillWire, hf, h r (by omega), ih (r + 1) (fun k hk => h k (by omega))]
      rfl
    | true =>
      rw [passCount_cons_set _ _ _ hf] at h
      rw [fillWire, fillWire, hf, ih r h]
      rfl

/-- The first check that sees FifoLevel set: the switch to Transmit, on recorded polls. -/
theorem fillTick_switched (s : State) (full : Config.ChipAnswer) (polls rest : List Config.ChipAnswer) (ready : Bool)
    (hr : s.rep.toNat < Config.repeatCount) (ha : s.txActive = false) (hc : s.chipIn = full :: (polls ++ rest))
    (hf : flagSet s.cfg .fifoLevel full = true) (hm : ModePolls s.cfg (answerBytes polls) ready) :
    fillTick s = { s with
      txActive := true, chipMode := .transmit, chipIn := rest, drawn := s.drawn + 1 + polls.length
      bus := s.bus ++ regRdWire s.cfg s.cfg.fifoLevel.addr full.byte ++
        setModeWire s.cfg s.cfg.modeTransmit (answerBytes polls)
      chipRegs := (chipTakes s.cfg.aMode s.cfg.modeTransmit s).chipRegs
      fifoOut := (chipTakes s.cfg.aMode s.cfg.modeTransmit s).fifoOut
      rxFlag := s.rxFlag || full.edge && s.irqArmed || (polls.any (fun a => a.edge) && s.irqArmed) } := by
  have hn : nextAnswer s = full := by simp [nextAnswer, hc]
  have ht : s.chipIn.tail = polls ++ rest := by rw [hc]; rfl
  rw [fillTick_switch s hr (by rw [hn]; exact hf) ha, flagRd_update, ht,
    setMode_recorded .transmit { s with
      chipIn := polls ++ rest, drawn := s.drawn + 1,
      bus := s.bus ++ regRdWire s.cfg (flagLoc s.cfg .fifoLevel).addr (nextAnswer s).byte,
      rxFlag := s.rxFlag || ((nextAnswer s).edge && s.irqArmed) } polls rest ready rfl hm, hn]
  rfl

/-- All passes made, answers left: on to the completion wait. -/
theorem fill_ends (s : State) (hp : s.txPhase = .fill) (hr : s.rep.toNat = Config.repeatCount) (hc : s.chipIn ≠ []) :
    resume s = resume { s with txPhase := .waitSent } := by
  have hgo := resume_goes s
  rw [txTick_fill s hp, fillTick_full s hr] at hgo
  exact hgo nofun hc

/-- The fill loop with FifoLevel clear at all REPEAT checks: every pass is made, and nothing is switched. -/
theorem fill_unswitched (frame : List Bool) (s : State) (checks tail : List Config.ChipAnswer)
    (hfr : frameBits s = frame) (hrep : s.rep = 0) (hacc : s.acc = 0) (haccN : s.accN = 0) (hp : s.txPhase = .fill)
    (hc : s.chipIn = checks ++ tail) (hne : tail ≠ []) (hlen : checks.length = Config.repeatCount)
    (hf : ∀ a ∈ checks, flagSet s.cfg .fifoLevel a = false) : resume s = resume { s with
      acc := (packed frame Config.repeatCount).2.1, accN := (packed frame Config.repeatCount).2.2, rep := 330
      txPhase := .waitSent, rxFlag := s.rxFlag || (checks.any (fun a => a.edge) && s.irqArmed), chipIn := tail
      drawn := s.drawn + checks.length, bus := s.bus ++ fillWire s.cfg (completed frame) 0 checks
      fifoOut := s.fifoOut ++ (packed frame Config.repeatCount).1 } := by
  have hpc := passCount_of_clear s.cfg checks hf
  obtain ⟨out, rp, h1, h2, h3⟩ := fill_checks frame 0 checks s tail hfr (by rw [hrep]; rfl) hp hc hne
    (by rw [hacc, haccN]; rfl) (fun a ha h => by rw [hf a ha] at h; simp at h)
    (fun a ha => hf a (List.mem_of_getLast? ha)) (by omega)
  rw [hpc, hlen, Nat.zero_add] at h1 h2 h3
  rw [packed_zero, List.nil_append] at h1
  have hr330 : rp = 330 := BitVec.eq_of_toNat_eq (by rw [h2]; rfl)
  rw [h3]
  refine (fill_ends _ (by exact hp) (by exact h2) hne).trans ?_
  rw [h1, hr330, hlen]

/-- The fill loop on recorded answers that let it end: REPEAT passes as one stream, the switch to Transmit, and the bus
bytes of both. -/
theorem fill_course (c : SendCourse) (frame : List Bool) (s : State) (tail : List Config.ChipAnswer) (h : c.Ok s.cfg)
    (hfr : frameBits s = frame) (hrep : s.rep = 0) (hact : s.txActive = false) (hacc : s.acc = 0) (haccN : s.accN = 0)
    (hp : s.txPhase = .fill) (hc : s.chipIn = c.early ++ (c.full :: c.transmit ++ (c.late ++ tail))) (hne : tail ≠ []) :
    ∃ regs fifo, resume s = resume { s with
        acc := (packed frame Config.repeatCount).2.1, accN := (packed frame Config.repeatCount).2.2, rep := 330
        txPhase := .waitSent, txActive := true, chipMode := .transmit
        rxFlag := s.rxFlag || ((c.early ++ (c.full :: c.transmit ++ c.late)).any (fun a => a.edge) && s.irqArmed)
        chipIn := tail, drawn := s.drawn + (c.early ++ (c.full :: c.transmit ++ c.late)).length
        bus := s.bus ++ (fillWire s.cfg (completed frame) 0 c.early ++ switchWire s.cfg c ++
          fillWire s.cfg (completed frame) c.early.length c.late)
        chipRegs := regs, fifoOut := fifo } ∧
      (∀ n : Nat, n ≠ s.cfg.aMode.toNat → regs.read n = s.chipRegs.read n) ∧
      (s.cfg.aFifo ≠ s.cfg.aMode → fifo = s.fifoOut ++ (packed frame Config.repeatCount).1) := by
  have hpc := passCount_of_clear s.cfg c.early h.early
  have hpass := h.passes
  have hset : ∀ a ∈ c.early, flagSet s.cfg .fifoLevel a = true → s.txActive = true := by
    intro a ha hf
    rw [h.early a ha] at hf
    simp at hf
  obtain ⟨out1, rp1, h1, h2, h3⟩ := fill_checks frame 0 c.early s (c.full :: c.transmit ++ (c.late ++ tail)) hfr
    (by rw [hrep]; rfl) hp hc (by simp) (by rw [hacc, haccN]; rfl) hset
    (fun a ha => h.early a (List.mem_of_getLast? ha)) (by omega)
  rw [hpc, Nat.zero_add] at h1 h2 h3
  rw [packed_zero, List.nil_append] at h1
  rw [h3]
  obtain ⟨ready, hm⟩ := h.transmit
  have hpos := passCount_pos s.cfg c.late h.late h.lastPass
  generalize hs1 : ({ s with
    acc := _, accN := _, rep := _, rxFlag := _, chipIn := _, drawn := _, bus := _, fifoOut := _ } : State) = s1
  have ht := fillTick_switched s1 c.full c.transmit (c.late ++ tail) ready (by rw [← hs1]; show rp1.toNat < _; omega)
    (by rw [← hs1]; exact hact) (by rw [← hs1]; rfl) (by rw [← hs1]; exact h.full) (by rw [← hs1]; exact hm)
  have hgo := resume_goes s1
  rw [txTick_fill s1 (by rw [← hs1]; exact hp), ht] at hgo
  rw [hgo (by rw [← hs1]; simp [hp]) (by simp [h.late])]
  generalize hs2 : ({ s1 with
    txActive := _, chipMode := _, chipIn := _, drawn := _, bus := _, chipRegs := _, fifoOut := _, rxFlag := _ } :
    State) = s2
  obtain ⟨out2, rp2, k1, k2, k3⟩ := fill_checks frame c.early.length c.late s2 tail
    (by rw [← hs2, ← hs1]; exact hfr) (by rw [← hs2, ← hs1]; exact h2) (by rw [← hs2, ← hs1]; exact hp)
    (by rw [← hs2]) hne (by rw [← hs2, ← hs1]) (by rw [← hs2]; intro a _ _; rfl)
    (by rw [← hs2, ← hs1]; exact h.lastPass) (by rw [← hs2, ← hs1]; exact Nat.le_of_eq hpass)
  have hcfg : s2.cfg = s.cfg := by rw [← hs2, ← hs1]
  rw [hcfg, hpass] at k1 k2 k3
  have hr330 : rp2 = 330 := BitVec.eq_of_toNat_eq (by rw [k2]; rfl)
  refine ⟨(chipTakes s.cfg.aMode s.cfg.modeTransmit s1).chipRegs,
    (chipTakes s.cfg.aMode s.cfg.modeTransmit s1).fifoOut ++ out2, ?_, fun n hn => ?_, fun hf => ?_⟩
  · rw [k3]
    refine (fill_ends _ (by rw [← hs2, ← hs1]; exact hp) (by exact k2) hne).trans ?_
    rw [← hs2, ← hs1]
    simp only [switchWire, hr330, List.any_append, List.any_cons,
      List.length_append, List.length_cons, List.append_assoc, Bool.or_assoc, Bool.and_or_distrib_right]
    congr 2
    omega
  · rw [chipTakes_chipRegs, ← hs1]
    dsimp only
    split
    · rfl
    · exact Memory.read_write_other _ _ hn
  · rw [chipTakes_fifoOut, ← hs1]
    dsimp only
    rw [if_neg (Ne.symm hf), List.append_assoc, h1, k1]

/-! ### The completion wait and the end -/

/-- The completion wait on recorded tests that let it end. -/
theorem wait_course (unsent : List Config.ChipAnswer) (sent : Config.ChipAnswer) (s : State)
    (tail : List Config.ChipAnswer) (hp : s.txPhase = .waitSent) (hc : s.chipIn = unsent ++ sent :: tail)
    (hne : tail ≠ []) (ha : s.txActive = true) (hu : ∀ a ∈ unsent, flagSet s.cfg .packetSent a = false)
    (hs : flagSet s.cfg .packetSent sent = true) : resume s = resume { s with
      txPhase := .restore, chipIn := tail, drawn := s.drawn + (unsent ++ [sent]).length
      bus := s.bus ++ sentWire s.cfg (unsent ++ [sent])
      rxFlag := s.rxFlag || ((unsent ++ [sent]).any (fun a => a.edge) && s.irqArmed) } := by
  induction unsent generalizing s with
  | nil =>
    have hn : nextAnswer s = sent := by simp [nextAnswer, hc]
    have hgo := resume_goes s
    rw [txTick_waitSent s hp, waitTick, if_pos (by rw [flagRd_value, hn, hs, ha]; rfl), flagRd_update, hn, hc] at hgo
    rw [hgo nofun hne]
    simp [flagLoc, sentWire]
  | cons a unsent ih =>
    have hn : nextAnswer s = a := by simp [nextAnswer, hc]
    have hgo := resume_goes s
    rw [txTick_waitSent s hp, waitTick, if_neg (by rw [flagRd_value, hn, hu a (by simp)]; simp)] at hgo
    have ht : (flagRd .packetSent s).2 = _ := flagRd_update .packetSent s
    rw [hn, hc, List.cons_append, List.tail_cons] at ht
    rw [hgo (by rw [ht]; simp [hp]) (by rw [ht]; simp),
      ih (flagRd .packetSent s).2 (by rw [ht]; exact hp) (by rw [ht])
        (by rw [ht]; exact ha) (by rw [ht]; exact fun b hb => hu b (List.mem_cons_of_mem a hb)) (by rw [ht]; exact hs), ht]
    simp only [flagLoc, sentWire, List.cons_append, List.any_cons, List.flatMap_cons, List.length_cons, List.append_assoc,
      Bool.or_assoc, Bool.and_or_distrib_right, Nat.add_assoc, Nat.add_comm 1]

/-- A SEND whose iterations are reads of one flag and nothing else uses up all recorded answers and stays. -/
theorem resume_reads (f : ChipFlag) (answers : List Config.ChipAnswer) (s : State) (hc : s.chipIn = answers)
    (hne : answers ≠ []) (hp : s.txPhase ≠ .off)
    (ht : ∀ t, ChipTraffic s t → nextAnswer t ∈ answers → txTick t = (flagRd f t).2) : resume s = { s with
      chipIn := [], drawn := s.drawn + answers.length
      bus := s.bus ++ answers.flatMap (fun a => regRdWire s.cfg (flagLoc s.cfg f).addr a.byte)
      rxFlag := s.rxFlag || (answers.any (fun a => a.edge) && s.irqArmed) } := by
  induction answers generalizing s with
  | nil => exact absurd rfl hne
  | cons a l ih =>
    have hn : nextAnswer s = a := by simp [nextAnswer, hc]
    have h1 : txTick s = (flagRd f s).2 := ht s (.refl s) (by simp [hn])
    have hk := flagRd_traffic f s
    rw [← h1] at hk
    rw [flagRd_update, hn, hc, List.tail_cons] at h1
    by_cases hl : l = []
    · subst hl
      rw [resume_stops s (Or.inr (by rw [h1])), h1]
      simp
    · rw [resume_goes s (by rw [h1]; exact hp) (by rw [h1]; exact hl), ih (txTick s) (by rw [h1]) hl (by rw [h1]; exact hp)
        (fun t h hm => ht t (hk.trans h) (List.mem_cons_of_mem a hm)), h1]
      simp only [List.any_cons, List.flatMap_cons, List.length_cons, List.append_assoc, Bool.or_assoc,
        Bool.and_or_distrib_right, Nat.add_assoc, Nat.add_comm 1]

/-- With `tx_active` 0 the completion wait uses up all recorded answers and stays. -/
theorem wait_stuck (later : List Config.ChipAnswer) (s : State) (hp : s.txPhase = .waitSent) (hc : s.chipIn = later)
    (hne : later ≠ []) (ha : s.txActive = false) : resume s = { s with
      chipIn := [], drawn := s.drawn + later.length, bus := s.bus ++ sentWire s.cfg later
      rxFlag := s.rxFlag || (later.any (fun a => a.edge) && s.irqArmed) } :=
  resume_reads .packetSent later s hc hne (by rw [hp]; nofun) (fun t h _ => by
    rw [txTick_waitSent t (by rw [h.frame]; exact hp), waitTick_stuck t (by rw [h.frame]; exact ha)])

/-- TxRestore on recorded answers: its whole effect. -/
theorem restoreTick_recorded (s : State) (polls rest : List Config.ChipAnswer) (ready : Bool)
    (hc : s.chipIn = polls ++ rest) (h : ModePolls s.cfg (answerBytes polls) ready) :
    ∃ regs fifo, restoreTick s = { s with
      lastSent := overlay s.lastSent (s.frame.bytes.take (1 + s.job.payload.length))
      lastSentLen := 1 + s.job.payload.length, txPhase := .off
      counter := if s.job.fromPkt then nextCounter s.counter else s.counter, chipMode := .standby
      rxFlag := s.rxFlag || (polls.any (fun a => a.edge) && s.irqArmed), chipIn := rest, drawn := s.drawn + polls.length
      bus := s.bus ++ setModeWire s.cfg s.cfg.modeStandby (answerBytes polls) ++
        regWrWire s.cfg s.cfg.aLen s.cfg.lenDefault
      chipRegs := regs, fifoOut := fifo, ret := .bool true, cond := none } ∧
      (∀ n : Nat, n ≠ s.cfg.aLen.toNat → n ≠ s.cfg.aMode.toNat → regs.read n = s.chipRegs.read n) ∧
      (s.cfg.aFifo ≠ s.cfg.aLen → regs.read s.cfg.aLen.toNat = some s.cfg.lenDefault) ∧
      (s.cfg.aFifo ≠ s.cfg.aLen → s.cfg.aFifo ≠ s.cfg.aMode → fifo = s.fifoOut) := by
  unfold restoreTick
  rw [setMode_recorded .standby s polls rest ready hc h]
  dsimp only
  rw [regWr_state]
  refine ⟨_, _, rfl, fun n hn hm => ?_, fun h1 => ?_, fun h1 h2 => ?_⟩
  · simp only [snapshot, chipTakes]
    split <;> split <;> simp only [Memory.read_write_other _ _ hn, Memory.read_write_other _ _ hm]
  · simp only [snapshot, if_neg (Ne.symm h1), Memory.read_write_same]
  · simp only [snapshot, chipTakes, if_neg (Ne.symm h1), if_neg (Ne.symm h2)]

/-! ### Lengths -/

theorem length_assemble (cfg : Config.Params) (type : PktType) (ctr : Byte) (a : DevAddr) (command : Byte)
    (extra : List Byte) : (assemble cfg type ctr a command extra).length = typeLen type := by
  cases type <;> simp [assemble, fields, commandBytes, typeLen, Config.lenWs, Config.lenRc]

theorem totalBits_le {len v : Nat} (h1 : 1 ≤ len) (h : v ≤ 8) : totalBits len v ≤ 8 * (1 + len) := by
  unfold totalBits
  split <;> omega

theorem length_repetitionBits (payload : List Byte) {v : Nat} (h1 : 1 ≤ payload.length) (h : v ≤ 8) :
    (repetitionBits payload v).length = totalBits payload.length v := by
  have := totalBits_le h1 h
  rw [repetitionBits, List.length_take, length_bits, List.length_cons]
  omega

/-- The frame that TxSetup builds has the bits of one repetition. -/
theorem loaded_frameBits (buf : Buf 11) (payload : List Byte) {v : Nat} (h1 : 1 ≤ payload.length) (h : payload.length ≤ 10)
    (hv : v ≤ 8) :
    (bits (overlay buf (Config.sync :: payload)).bytes).take (BitVec.ofNat 8 (totalBits payload.length v)).toNat =
      repetitionBits payload v := by
  have h0 := totalBits_le h1 hv
  have h2 : (BitVec.ofNat 8 (totalBits payload.length v)).toNat = totalBits payload.length v := by
    rw [BitVec.toNat_ofNat]
    omega
  have h3 : (overlay buf (Config.sync :: payload)).bytes = _ :=
    overlay_bytes buf (Config.sync :: payload) (by rw [List.length_cons]; omega)
  rw [h2, h3, bits_append, List.take_append_of_le_length (by rw [length_bits, List.length_cons]; omega), repetitionBits]

/-! ### The whole course -/

/-- A SEND about to set up, with a chip that answers as `SendCourse.Ok` says, ends, and how. -/
theorem send_course (c : SendCourse) (s : State) (rest : List Config.ChipAnswer) (h : c.Ok s.cfg)
    (hp : s.txPhase = .setup) (hpos : 1 ≤ s.job.payload.length) (hlen : s.job.payload.length ≤ 10) (hv : s.job.v ≤ 8)
    (hc : s.chipIn = c.answers ++ rest) :
    ∃ acc regs fifo, resume s = { s with
        frame := overlay s.frame (Config.sync :: s.job.payload)
        total := BitVec.ofNat 8 (totalBits s.job.payload.length s.job.v), acc := acc
        accN := Config.repeatCount * totalBits s.job.payload.length s.job.v % 8
        lastSent := overlay s.lastSent (Config.sync :: s.job.payload), lastSentLen := 1 + s.job.payload.length
        counter := if s.job.fromPkt then nextCounter s.counter else s.counter
        txPhase := .off, rep := 330, txActive := true, chipMode := .standby
        rxFlag := s.rxFlag || (c.answers.any (fun a => a.edge) && s.irqArmed), chipIn := rest
        drawn := s.drawn + c.answers.length, bus := s.bus ++ sendWire s.cfg s.job.payload s.job.v c
        chipRegs := regs, fifoOut := fifo, ret := .bool true, cond := none } ∧
      (∀ n : Nat, n ≠ s.cfg.aLen.toNat → n ≠ s.cfg.aMode.toNat → regs.read n = s.chipRegs.read n) ∧
      (s.cfg.aFifo ≠ s.cfg.aLen → regs.read s.cfg.aLen.toNat = some s.cfg.lenDefault) ∧
      (s.cfg.aFifo ≠ s.cfg.aLen → s.cfg.aFifo ≠ s.cfg.aMode →
        fifo = s.fifoOut ++ [s.cfg.preamble0, s.cfg.preamble1] ++ sendStream s.job.payload s.job.v) := by
  obtain ⟨ready1, hm1⟩ := h.standby
  obtain ⟨ready2, hm2⟩ := h.restored
  have hne2 : c.restored ≠ [] := fun e => hm2.some (by rw [e]; rfl)
  have hfl := length_repetitionBits s.job.payload hpos hv
  obtain ⟨hb1, _, hb3⟩ := packed_bytes (repetitionBits s.job.payload s.job.v) Config.repeatCount
  -- setup
  obtain ⟨regs1, fifo1, e1, r1, f1⟩ := setupTick_recorded s c.standby _ ready1
    (by rw [hc, SendCourse.answers, List.append_assoc]) hm1
  have hgo := resume_goes s
  rw [txTick_setup s hp, e1] at hgo
  rw [hgo nofun (by simp)]
  generalize hs1 : ({ s with
    frame := _, total := _, acc := _, accN := _, rep := _, txActive := _, txPhase := _, chipMode := _, rxFlag := _,
    chipIn := _, drawn := _, bus := _, chipRegs := _, fifoOut := _ } : State) = s1
  -- fill
  obtain ⟨regs2, fifo2, e2, r2, f2⟩ := fill_course c (repetitionBits s.job.payload s.job.v) s1
    (c.unsent ++ c.sent :: (c.restored ++ rest)) (by rw [← hs1]; exact h)
    (by rw [← hs1]; exact loaded_frameBits s.frame s.job.payload hpos hlen hv) (by rw [← hs1]) (by rw [← hs1])
    (by rw [← hs1]) (by rw [← hs1]) (by rw [← hs1])
    (by rw [← hs1]; simp only [List.append_assoc, List.cons_append]) (by simp)
  rw [e2]
  generalize hs2 : ({ s1 with
    acc := _, accN := _, rep := _, txPhase := _, txActive := _, chipMode := _, rxFlag := _, chipIn := _, drawn := _,
    bus := _, chipRegs := _, fifoOut := _ } : State) = s2
  -- completion wait
  rw [wait_course c.unsent c.sent s2 (c.restored ++ rest) (by rw [← hs2]) (by rw [← hs2]) (by simp [hne2])
    (by rw [← hs2]) (by rw [← hs2, ← hs1]; exact h.unsent) (by rw [← hs2, ← hs1]; exact h.sent)]
  generalize hs3 : ({ s2 with txPhase := _, chipIn := _, drawn := _, bus := _, rxFlag := _ } : State) = s3
  -- restore
  obtain ⟨regs4, fifo4, e4, r4, l4, f4⟩ := restoreTick_recorded s3 c.restored rest ready2 (by rw [← hs3])
    (by rw [← hs3, ← hs2, ← hs1]; exact hm2)
  have ht : txTick s3 = restoreTick s3 := txTick_restore s3 (by rw [← hs3])
  rw [resume_stops s3 (Or.inl (by rw [ht, e4])), ht, e4]
  have hcfg : s3.cfg = s.cfg := by rw [← hs3, ← hs2, ← hs1]
  have hcr : s3.chipRegs = regs2 := by rw [← hs3, ← hs2]
  have hfo : s3.fifoOut = fifo2 := by rw [← hs3, ← hs2]
  have hcfg1 : s1.cfg = s.cfg := by rw [← hs1]
  have hcr1 : s1.chipRegs = regs1 := by rw [← hs1]
  have hfo1 : s1.fifoOut = fifo1 := by rw [← hs1]
  rw [hcfg, hcr] at r4
  rw [hcfg] at l4
  rw [hcfg, hfo] at f4
  rw [hcfg1, hcr1] at r2
  rw [hcfg1, hfo1] at f2
  refine ⟨(packed (repetitionBits s.job.payload s.job.v) Config.repeatCount).2.1, regs4, fifo4, ?_,
    fun n hn hm => (r4 n hn hm).trans ((r2 n hm).trans (r1 n hn hm)), l4, fun hL hM => ?_⟩
  · rw [← hs3, ← hs2, ← hs1]
    have hpre : (overlay s.frame (Config.sync :: s.job.payload)).bytes.take (1 + s.job.payload.length) =
        Config.sync :: s.job.payload := by
      have e := overlay_bytes s.frame (Config.sync :: s.job.payload) (by rw [List.length_cons]; omega)
      rw [e, Nat.add_comm 1, ← List.length_cons (a := Config.sync), List.take_left]
    have hchunk : ∀ k, k < Config.repeatCount → completed (repetitionBits s.job.payload s.job.v) k =
        passChunk (sendStream s.job.payload s.job.v) (totalBits s.job.payload.length s.job.v) k := by
      intro k hk
      rw [← hfl]
      exact completed_eq_passChunk _ k _ hk
    have hpass := h.passes
    have hfill1 := fillWire_congr (cfg := s.cfg) c.early 0 (fun k hk => hchunk k (by
      rw [passCount_of_clear _ _ h.early] at hk
      omega))
    have hfill2 := fillWire_congr (cfg := s.cfg) c.late c.early.length (fun k hk => hchunk k (by omega))
    rw [hfl] at hb3
    congr 1
    · exact congrArg (overlay s.lastSent) hpre
    · simp only [SendCourse.answers, List.any_append, List.any_cons, List.any_nil, Bool.or_false, Bool.or_assoc,
        Bool.and_or_distrib_right]
    · simp only [SendCourse.answers, List.length_append, List.length_cons, List.length_nil]
      omega
    · simp only [sendWire, setupWire, hfill1, hfill2, List.append_assoc]
  · rw [f4 hL hM, f2 hM, f1 hL hM, hb1]
    rfl

end Sys2Proof.Machine
end

