-- ==== Sys2Proof/Tests/Slice0.lean ====
section
/-! SUPPORT. Tests of the model. Words are written out from R96 and R99; expected results are the spec's own test
vectors (V1 to V48, P1, P2 of spec/95_test_vectors.md) unless a comment says otherwise. After the tests, one witness for
the hypotheses of each obligation that has any. -/

namespace Sys2Proof.Tests

-- One proof at a time: many proofs on threads of their own can run out of memory for stacks.
set_option Elab.async false

open Sys2Proof Sys2Proof.Machine

/-! ### Well-formedness: an ill-formed term for each check -/

theorem test_wf_send : (Instr.send [] 0).wf = false ∧ (Instr.send (List.replicate 11 0) 0).wf = false ∧
    (Instr.send [0xAB] 9).wf = false ∧ (Instr.send [0xAB] 8).wf = true := by decide
theorem test_wf_units : (Instr.destuff []).wf = false ∧ (Instr.destuff (List.replicate 12 0)).wf = false ∧
    (Instr.stuff []).wf = false ∧ (Instr.stuff (List.replicate 11 0)).wf = false ∧
    (Instr.destuff (List.replicate 11 0)).wf = true ∧ (Instr.stuff (List.replicate 10 0)).wf = true := by decide
theorem test_wf_fifo : (Instr.fifoWr []).wf = false ∧ (Instr.fifoRd 0).wf = false ∧
    (Instr.fifoRd 257).wf = false ∧
    (Instr.fifoRd 256).wf = true := by decide
theorem test_wf_fifoWr_long : (Instr.fifoWr (List.replicate 257 0)).wf = false := by decide +kernel
theorem test_wf_counts : (Instr.revBuf (List.replicate 256 0)).wf = false ∧
    (Instr.pktCrc (List.replicate 256 0) .windowSensor).wf = false ∧
    (Instr.sendPkt .unknown 0 0 (List.replicate 256 0)).wf = false ∧
    (Instr.assemble .windowSensor 0 0 0 (List.replicate 256 0)).wf = false := by decide +kernel

/-! ### Decoding: a word for every constructor -/

theorem test_decode_init : decodeTableWord 8 0x00 = some .init := by decide
theorem test_decode_rxPoll : decodeTableWord 8 0x01 = some .rxPoll := by decide
theorem test_decode_rxGet : decodeTableWord 8 0x02 = some .rxGet := by decide
theorem test_decode_send : decodeOperation [0x03, 0x01, 0xFB, 0x80, 0x01] = .ok (.send [0xFB, 0x80] 1, []) := by decide
theorem test_decode_sendPkt : decodeOperation [0x04, 0x00, 0x01, 0x4F, 0x5E, 0x41, 0x00] =
    .ok (.sendPkt .windowSensor 0x014F5E 0x41 [], []) := by decide
theorem test_decode_lastGet : decodeTableWord 8 0x05 = some .lastGet := by decide
theorem test_decode_destuff : decodeOperation [0x08, 0x01, 0xFB, 0x80, 0x02] = .ok (.destuff [0xFB, 0x80], [0x02]) := by
  decide
theorem test_decode_stuff : decodeOperation [0x09, 0x00, 0xFF] = .ok (.stuff [0xFF], []) := by decide
theorem test_decode_crcStep : decodeOperation [0x0A, 0xBD, 0xB7, 0x7E] = .ok (.crcStep 0xBDB7 0x7E, []) := by decide
theorem test_decode_pktCrc : decodeOperation [0x0B, 0x01, 0x02, 0xA0, 0x20] =
    .ok (.pktCrc [0xA0, 0x20] .remoteControl, []) := by decide
theorem test_decode_rev8 : decodeTableWord 16 0xF20C = some (.rev8 0xF2) := by decide
theorem test_decode_revBuf : decodeOperation [0x0D, 0x02, 0x05, 0x04] = .ok (.revBuf [0x05, 0x04], []) := by decide
theorem test_decode_classify : decodeTableWord 16 0x200E = some (.classify 0x20) := by decide
theorem test_decode_assemble : decodeOperation [0x0F, 0x01, 0x01, 0x12, 0x34, 0x56, 0x21, 0x01, 0x07] =
    .ok (.assemble .remoteControl 0x01 0x123456 0x21 [0x07], []) := by decide
theorem test_decode_txPass : decodeTableWord 8 0x10 = some .txPass := by decide
theorem test_decode_regWr : decodeTableWord 24 0x0A3818 = some (.regWr 0x38 0x0A) := by decide
theorem test_decode_regRd : decodeTableWord 16 0x3819 = some (.regRd 0x38) := by decide
theorem test_decode_fifoWr : decodeOperation [0x1A, 0x01, 0xC3, 0x3C] = .ok (.fifoWr [0xC3, 0x3C], []) := by decide
theorem test_decode_fifoRd : decodeTableWord 16 0x091B = some (.fifoRd 10) := by decide
theorem test_decode_setMode : decodeTableWord 16 0x011C = some (.setMode .receive) := by decide
theorem test_decode_flagRd : decodeTableWord 16 0x021D = some (.flagRd .fifoLevel) := by decide
theorem test_decode_irqEdge : decodeTableWord 8 0x1F = some .irqEdge := by decide
theorem test_decode_busWrite : decodeTableWord 8 0xB8 = some (.busWrite 0x38) := by decide
theorem test_decode_busRead : decodeTableWord 8 0x38 = some (.busRead 0x38) ∧
    decodeBusByte true [0x01] = .ok (.busRead 0x01, []) := by decide
/-- Codes R102 leaves unassigned, operand bytes that stand for nothing, and operations cut short. -/
theorem test_decode_refused : decodeTableWord 8 0x06 = none ∧ decodeTableWord 8 0x1E = none ∧
    decodeTableWord 16 0x031C = none ∧ decodeTableWord 16 0x041D = none ∧ decodeTableWord 16 0x8019 = none ∧
    decodeOperation [0x0B, 0x02, 0x00] = .error (.reservedOperand 0x0B) ∧
    decodeOperation [0x09, 0x01, 0xFF] = .error (.truncated 0x09) ∧ decodeOperation [] = .error .empty := by decide

/-! ### A small machine: the illustrative parameters of V28, V40 and P1 -/

/-- Parameters for the tests. -/
def cfg : Config.Params where
  dtRc := 0x40
  preamble0 := 0xC3
  preamble1 := 0x3C
  radioConfig := [(0x10, 0x01), (0x11, 0x02)]
  aFifo := 0x00
  aLen := 0x20
  lenDefault := 10
  lenUnbounded := 0
  aProbe := 0x21
  probeVals := [0xAA, 0x55]
  modeReady := ⟨0x30, 0x80⟩
  payloadReady := ⟨0x31, 0x04⟩
  fifoLevel := ⟨0x31, 0x20⟩
  packetSent := ⟨0x31, 0x08⟩
  aRssi := 0x24
  aMode := 0x01
  modeStandby := 0x04
  modeReceive := 0x10
  modeTransmit := 0x0C
  modeReadyTimeout := 3
  ccaLimit := 0
  fifoSize := 66
  fifoThresh := 15
  rwWrite := true

/-- A chip answer with no edge before it. -/
def ans (b : Byte) : Config.ChipAnswer := ⟨false, b⟩

/-- Reset, with the test parameters and these chip answers. -/
def cold (answers : List Config.ChipAnswer) : State := { State.reset with cfg := cfg, chipIn := answers }

/-- After INIT, with these chip answers. -/
def ready (answers : List Config.ChipAnswer) : State :=
  { cold answers with initialized := true, irqArmed := true }

/-- Listening, with `rx_flag` set. -/
def listening (answers : List Config.ChipAnswer) : State :=
  { ready answers with chipMode := .receive, rxFlag := true }

/-- The next state, if there is one, passes a check. -/
def nextIs (o : Host.Outcome State Fault Refusal) (check : State → Bool) : Bool :=
  match o with
  | .next t => check t
  | .fault _ => false
  | .refused _ => false

/-- The outcome is this refusal. -/
def refusedWith (o : Host.Outcome State Fault Refusal) (r : Refusal) : Bool :=
  match o with
  | .next _ => false
  | .fault _ => false
  | .refused q => q == r

/-- The next state's result is this. -/
def returns (o : Host.Outcome State Fault Refusal) (r : Ret) : Bool := nextIs o (fun t => t.ret == r)

/-! ### The units -/

theorem test_crcStep : returns (exec (.crcStep 0xBDB7 0x7E) (cold [])) (.half 0x5B70) = true := by decide
theorem test_pktCrc : returns (exec (.pktCrc [0xA0, 0x20, 0x01, 0x4F, 0x5E, 0x41] .windowSensor) (cold []))
    (.half 0xBC5D) = true := by decide +kernel
theorem test_pktCrc_rc : returns (exec (.pktCrc [0x01, 0x40, 0x12, 0x34, 0x56, 0x21, 0x07] .remoteControl) (cold []))
    (.half 0xCC96) = true := by decide +kernel
theorem test_rev8 : returns (exec (.rev8 0xF2) (cold [])) (.byte 0x4F) = true := by decide +kernel
theorem test_revBuf : returns (exec (.revBuf [0x05, 0x04, 0x80, 0xF2, 0x7A, 0x82, 0x3D, 0xBA]) (cold []))
    (.bytes [0xA0, 0x20, 0x01, 0x4F, 0x5E, 0x41, 0xBC, 0x5D]) = true := by decide
/-- V13 and V11: a drop in the middle, and none once the output is full. -/
theorem test_destuff : returns (exec (.destuff [0x05, 0x04, 0x80, 0xF2, 0x7A, 0x82, 0x3D, 0xBA, 0x7E, 0x05]) (cold []))
    (.stuffed [0x05, 0x04, 0x80, 0xF2, 0x7A, 0x82, 0x3D, 0xBA, 0x7C] 1) = true := by decide +kernel
theorem test_destuff_full : returns (exec (.destuff [0x1F, 0x00]) (cold [])) (.stuffed [0x1F] 0) = true := by decide
/-- V21 and V23: a run over a byte boundary, and the ninth insertion. -/
theorem test_stuff : returns (exec (.stuff [0x7D, 0xF7]) (cold [])) (.stuffed [0x7C, 0xF9, 0xC0] 2) = true := by decide +kernel
theorem test_stuff_overflow : refusedWith (exec (.stuff (List.replicate 6 0xFF)) (cold [])) .stuffOverflow = true := by
  decide +kernel
theorem test_classify : returns (exec (.classify 0x40) (cold [])) (.kind .remoteControl 9) = true ∧
    returns (exec (.classify 0x30) (cold [])) (.kind .unknown 0) = true := by decide
theorem test_assemble : returns (exec (.assemble .windowSensor 0x01 0x014F5E 0x41 [0x99]) (cold []))
    (.bytes [0x01, 0x20, 0x01, 0x4F, 0x5E, 0x41, 0x55, 0xD9]) = true := by decide +kernel
theorem test_assemble_rc : returns (exec (.assemble .remoteControl 0x01 0x123456 0x21 []) (cold []))
    (.bytes [0x01, 0x40, 0x12, 0x34, 0x56, 0x21, 0x00, 0x73, 0xE2]) = true := by decide +kernel
/-- The second pass of V32. -/
theorem test_txPass : nextIs (exec .txPass { cold [] with
      frame := overlay (Buf.zero 11) [0x7E, 0xAB, 0xC0], total := 19, acc := 0x06, accN := 3 })
    (fun t => t.ret == .bytes [0xCF, 0xD5] && t.acc == 0x1E && t.accN == 6 && t.fifoOut == [0xCF, 0xD5]) = true := by
  decide

/-! ### Chip I/O -/

/-- V40. -/
theorem test_regWr : nextIs (exec (.regWr 0x38 0x0A) (cold []))
    (fun t => t.bus == [.out 0xB8, .out 0x0A] && t.chipRegs == [(0x38, 0x0A)] && t.fifoOut == []) = true := by decide
theorem test_regRd : nextIs (exec (.regRd 0x38) (cold [ans 0x77]))
    (fun t => t.bus == [.out 0x38, .inp 0x77] && t.ret == .byte 0x77 && t.drawn == 1) = true := by decide
theorem test_fifoWr : nextIs (exec (.fifoWr [0xC3, 0x3C]) (cold []))
    (fun t => t.bus == [.out 0x80, .out 0xC3, .out 0x3C] && t.fifoOut == [0xC3, 0x3C]) = true := by decide
theorem test_fifoRd : returns (exec (.fifoRd 2) (cold [ans 1, ans 2, ans 3])) (.bytes [1, 2]) = true := by decide
/-- V41. -/
theorem test_setMode : nextIs (exec (.setMode .standby) (cold [ans 0, ans 0, ans 0x80, ans 0x80]))
    (fun t => t.ret == .bool true && t.drawn == 3 && t.chipRegs == [(0x01, 0x04)]) = true := by decide
theorem test_setMode_timeout : nextIs (exec (.setMode .receive) (cold [ans 0, ans 0, ans 0, ans 0x80]))
    (fun t => t.ret == .bool false && t.drawn == 3 && t.chipMode == .receive) = true := by decide
theorem test_flagRd : returns (exec (.flagRd .packetSent) (cold [ans 0x08])) (.bit true) = true ∧
    returns (exec (.flagRd .packetSent) (cold [ans 0xF7])) (.bit false) = true := by decide
theorem test_busWrite : nextIs (exec (.busWrite 0x38) (cold [])) (fun t => t.bus == [.out 0xB8]) = true := by decide
theorem test_busRead : nextIs (exec (.busRead 0x38) (cold [])) (fun t => t.bus == [.out 0x38]) = true := by decide
/-- V43, third and first line. -/
theorem test_init : nextIs (exec .init (cold [ans 0xAA, ans 0x55, ans 0x80]))
    (fun t => t.ret == .bool true && t.initialized && t.irqArmed && !t.rxFlag && t.chipMode == .standby &&
      t.chipRegs == [(0x01, 0x04), (0x10, 0x01), (0x11, 0x02), (0x20, 10), (0x21, 0x55)]) = true := by decide
theorem test_init_probe : nextIs (exec .init (cold [ans 0x00, ans 0x55]))
    (fun t => t.ret == .bool false && t.cond == some .initFailure && !t.initialized && !t.irqArmed && t.drawn == 1) =
      true := by decide

/-! ### Reception -/

/-- The draws of P1 step 5, with this window. -/
def windowDraws (window : List Byte) : List Config.ChipAnswer :=
  [ans 0x04, ans 0x80] ++ window.map ans ++ [ans 0x5A, ans 0x80, ans 0x5C]

/-- V1, P1 step 5: the golden frame. -/
theorem test_rxPoll_accept : nextIs (exec .rxPoll
      (listening (windowDraws [0x05, 0x04, 0x80, 0xF2, 0x7A, 0x82, 0x3D, 0xBA, 0x7E, 0x05])))
    (fun t => t.ret == .bool true && t.dec.bytes.take 8 == [0xA0, 0x20, 0x01, 0x4F, 0x5E, 0x41, 0xBC, 0x5D] &&
      t.decLen == 8 && t.decType == .windowSensor && t.rssi == 0x5C && !t.rxFlag && t.chipMode == .receive &&
      t.rxState == .idle && t.chipIn == []) = true := by decide +kernel
/-- V36: the CRC does not match; `dec` stays. -/
theorem test_rxPoll_reject : nextIs (exec .rxPoll
      (listening ([ans 0x04, ans 0x80] ++ [0x05, 0x04, 0x80, 0xF2, 0x7A, 0x82, 0x3D, 0xBB, 0x00, 0x00].map ans ++
        [ans 0x80, ans 0x5C])))
    (fun t => t.ret == .bool false && t.cond == some .decodeRejected && t.decLen == 0 && t.decType == .unknown &&
      t.rssi == 0x5C && t.chipMode == .receive && t.chipIn == []) = true := by decide +kernel
theorem test_rxGet : returns (exec .rxGet { cold [] with
      dec := overlay (Buf.zero 9) [0xA0, 0x20, 0x01], decLen := 8, decType := .windowSensor, rssi := 0x5C })
    (.packet [0xA0, 0x20, 0x01, 0, 0, 0, 0, 0] 8 .windowSensor 0x5C) = true := by decide
/-- V44. -/
theorem test_irqEdge : nextIs (exec .irqEdge (ready [])) (fun t => t.rxFlag) = true ∧
    nextIs (exec .irqEdge (cold [])) (fun t => !t.rxFlag) = true := by decide

/-! ### Transmission -/

/-- V30: what SEND has queued after the first two passes, FifoLevel clear at both. -/
theorem test_send : nextIs (exec (.send [0xFB, 0x80] 1) (ready [ans 0x80, ans 0, ans 0]))
    (fun t => t.fifoOut == [0xC3, 0x3C, 0x7E, 0xFB, 0xBF, 0x7D] && t.acc == 0x03 && t.accN == 2 && t.rep == 2 &&
      t.txPhase == .fill && t.total == 17) = true := by decide
theorem test_send_range : refusedWith (exec (.send [0xFB] 9) (ready [])) .operandRange = true := by decide
/-- The first row of V26 on its way to the chip, up to the first pass. -/
theorem test_sendPkt : nextIs (exec (.sendPkt .windowSensor 0x014F5E 0x41 [])
      { ready [ans 0x80, ans 0] with counter := 0xA0 })
    (fun t => t.fifoOut == [0xC3, 0x3C, 0x7E, 0x05, 0x04, 0x80, 0xF2, 0x7A, 0x82, 0x3D, 0xBA] && t.total == 72 &&
      t.rep == 1 && t.counter == 0xA0) = true := by decide +kernel
/-- V46. -/
theorem test_sendPkt_unknown : nextIs (exec (.sendPkt .unknown 0 0 []) (cold []))
    (fun t => t.ret == .bool false && t.cond == some .callerInputError && t.bus == []) = true := by decide
/-- The end of P2: TxRestore takes the snapshot and moves the counter (V45: 255 to 1). -/
theorem test_restore : nextIs (step { ready [ans 0x80] with
      txPhase := .restore, counter := 255, frame := overlay (Buf.zero 11) [0x7E, 0x05, 0x04],
      job := ⟨[0x05, 0x04], 0, 0, true⟩ })
    (fun t => t.ret == .bool true && t.counter == 1 && t.lastSentLen == 3 && t.txPhase == .off &&
      t.lastSent.bytes.take 3 == [0x7E, 0x05, 0x04]) = true := by decide
theorem test_lastGet : returns (exec .lastGet (cold [])) (.snapshot [] 0) = true := by decide
/-- A step runs what is asked; a host may not ask for a primitive. -/
theorem test_step : nextIs (step (State.withFetchWord (cold [ans 0x77]) 16 0x3819))
      (fun t => t.ret == .byte 0x77) = true ∧
    refusedWith (step { cold [] with moves := [⟨.host, [0x19, 0x38]⟩] }) .notIssuable = true := by decide +kernel

/-! ### Witnesses: the hypotheses of each obligation hold together somewhere, at the boundary of each clause -/

theorem exists_of_nextIs {o : Host.Outcome State Fault Refusal} {check : State → Bool} (h : nextIs o check = true) :
    ∃ t, o = .next t ∧ check t = true := by
  cases o with
  | next t => exact ⟨t, rfl, h⟩
  | fault r => simp [nextIs] at h
  | refused r => simp [nextIs] at h

theorem eq_of_nextIs {o : Host.Outcome State Fault Refusal} {u : State} (h : nextIs o (fun t => t == u) = true) :
    o = .next u := by
  obtain ⟨t, rfl, ht⟩ := exists_of_nextIs h
  rw [eq_of_beq ht]

theorem test_witness_DecodeInvertsEncode : (Instr.send (List.replicate 10 0) 8).wf = true ∧
    (Instr.fifoRd 256).wf = true ∧ (Instr.busRead 0x1F).wf = true := by decide

theorem test_witness_IllegalHostEncodingsHaveNoEffect : (9 > 8 ∨ [0xAB].length = 0 ∨ [0xAB].length > 10) ∧
    (0 > 8 ∨ ([] : List Byte).length = 0 ∨ ([] : List Byte).length > 10) ∧
    (0 > 8 ∨ (List.replicate 11 0xAB).length = 0 ∨ (List.replicate 11 0xAB).length > 10) ∧
    0x1E ∈ ([0x06, 0x07, 0x11, 0x12, 0x13, 0x14, 0x15, 0x16, 0x17, 0x1E] : List Byte) := by decide

theorem test_witness_BusAddressByteFields : 0 < 7 ∧ 6 < 7 := by decide
theorem test_witness_Rev8MirrorsBits : 0 < 8 ∧ 7 < 8 := by decide
theorem test_witness_RevBufMirrorsEachByte : 1 < ([0x05, 0x04] : List Byte).length ∧ 7 < 8 := by decide
theorem test_witness_CrcDetectsAnyByteChange : (0xA0 : Byte) ≠ 0xA1 := by decide
theorem test_witness_ClassifyTable : (cold []).cfg.dtRc ≠ 0x20 ∧ (0x21 : Byte) ≠ 0x20 ∧
    (0x21 : Byte) ≠ (cold []).cfg.dtRc := by decide
theorem test_witness_FrameBitCount : 0 ≤ 8 ∧ 8 ≤ 8 := by decide

/-- No insertion on the longest input, eight, and a ninth. -/
theorem test_witness_StuffCompletesUpToEightInsertions :
    1 ≤ (List.replicate 10 (0x00 : Byte)).length ∧ (List.replicate 10 (0x00 : Byte)).length ≤ 10 ∧
    stuffLoop (bits (List.replicate 10 0x00)) = some ⟨bits (List.replicate 10 0x00), 0, 0⟩ ∧
    stuffLoop (bits (List.replicate 5 0xFF)) = some ⟨bits [0xFB, 0xEF, 0xBE, 0xFB, 0xEF, 0xBE], 0, 8⟩ ∧
    stuffLoop (bits (List.replicate 6 0xFF)) = none := by decide +kernel

theorem test_witness_ShortInputsAlwaysStuff : 1 ≤ [0xFF].length ∧ (List.replicate 5 (0xFF : Byte)).length ≤ 5 := by decide

/-- V17, and V19 for the clause of no insertion. -/
theorem test_witness_DestuffInvertsStuff :
    exec (.stuff [0xFF]) (cold []) = .next { cold [] with ret := .stuffed [0xFB, 0x80] 1, cond := none } ∧
    exec (.stuff [0x00]) (cold []) = .next { cold [] with ret := .stuffed [0x00, 0x00] 0, cond := none } :=
  ⟨eq_of_nextIs (by decide +kernel), eq_of_nextIs (by decide +kernel)⟩

/-- V22: all six output bytes are data. -/
theorem test_witness_StuffedStreamHasNoSixOnes : exec (.stuff (List.replicate 5 0xFF)) (cold []) =
    .next { cold [] with ret := .stuffed [0xFB, 0xEF, 0xBE, 0xFB, 0xEF, 0xBE] 8, cond := none } :=
  eq_of_nextIs (by decide +kernel)

theorem test_witness_DestuffShortensByOneByte : 1 ≤ ([0xAB] : List Byte).length ∧
    (List.replicate 11 (0xAB : Byte)).length ≤ 11 := by decide

theorem test_witness_DestuffIsPrefixDetermined : (bits [0xFB, 0x80]).take 15 = (bits [0xFB, 0x81]).take 15 ∧
    exec (.destuff [0xFB, 0x80]) (cold []) = .next { cold [] with ret := .stuffed [0xFF] 1, cond := none } ∧
    exec (.destuff [0xFB, 0x81]) (cold []) = .next { cold [] with ret := .stuffed [0xFF] 1, cond := none } :=
  ⟨by decide, eq_of_nextIs (by decide +kernel), eq_of_nextIs (by decide +kernel)⟩

theorem test_witness_RegWrWritesOneRegister : (0x00 : ChipAddr) = (cold []).cfg.aFifo ∧
    (0x38 : ChipAddr) ≠ (cold []).cfg.aFifo ∧ (0x39 : Nat) ≠ (0x38 : ChipAddr).toNat := by decide
theorem test_witness_FifoWrQueuesItsBytes : ([0xC3] : List Byte) ≠ [] := by decide
theorem test_witness_FifoRdReturnsTheNextBytes : 1 ≤ 2 ∧ 2 ≤ (cold [ans 1, ans 2]).chipIn.length ∧
    1 ≤ (cold [ans 1]).chipIn.length := by decide

/-- Ready at the first poll, ready at the last, never ready. -/
theorem test_witness_SetModePollsModeReady : ∀ case ∈ ([([ans 0x80], true), ([ans 0, ans 0, ans 0x80], true),
      ([ans 0, ans 0, ans 0], false)] : List (List Config.ChipAnswer × Bool)),
    (cold case.1).chipIn = case.1 ++ [] ∧ 1 ≤ case.1.length ∧ case.1.length ≤ cfg.modeReadyTimeout ∧
    (∀ a ∈ case.1.dropLast, flagSet cfg .modeReady a = false) ∧
    (∀ a ∈ case.1.getLast?, flagSet cfg .modeReady a = case.2) ∧
    (case.2 = false → case.1.length = cfg.modeReadyTimeout) := by decide

theorem test_witness_SetModeAlwaysCompletes : (cold []).cfg.aMode ≠ (cold []).cfg.aFifo := by decide

theorem modePolls_of {polls : List Byte} {ready : Bool}
    (h : polls ≠ [] ∧ (∀ b ∈ polls.dropLast, flagBit cfg.modeReady b = false) ∧
      (∀ b ∈ polls.getLast?, flagBit cfg.modeReady b = ready) ∧ polls.length ≤ max 1 cfg.modeReadyTimeout ∧
      (ready = false → polls.length = max 1 cfg.modeReadyTimeout)) : ModePolls cfg polls ready :=
  ⟨h.1, h.2.1, fun b hb => h.2.2.1 b hb, h.2.2.2.1, h.2.2.2.2⟩

/-- ModeReady at the first poll, and at the third, the last one the bound allows (P3 step 4). -/
theorem test_witness_InitSucceedsWithAResponsiveChip : ∀ polls ∈ [[ans 0x80], [ans 0, ans 0, ans 0x80]],
    (cold ([ans 0xAA, ans 0x55] ++ (polls ++ []))).chipIn = [ans 0xAA, ans 0x55] ++ (polls ++ []) ∧
    [ans 0xAA, ans 0x55].map (fun a => a.byte) = cfg.probeVals ∧ ModePolls cfg (answerBytes polls) true ∧
    cfg.aLen ≠ cfg.aFifo := by
  intro polls h
  rcases List.mem_cons.mp h with rfl | h
  · exact ⟨rfl, by decide, modePolls_of (by decide), by decide⟩
  · obtain rfl := List.mem_singleton.mp h
    exact ⟨rfl, by decide, modePolls_of (by decide), by decide⟩

theorem test_witness_InitFailsForTwoCauses :
    ((cold [ans 0xAA, ans 0x54]).chipIn = [ans 0xAA] ++ ans 0x54 :: [] ∧
      cfg.probeVals = [ans 0xAA].map (fun a => a.byte) ++ 0x55 :: [] ∧ (ans 0x54).byte ≠ 0x55) ∧
    ((cold [ans 0xAA, ans 0x55, ans 0, ans 0, ans 0]).chipIn = [ans 0xAA, ans 0x55] ++ [ans 0, ans 0, ans 0] ++ [] ∧
      [ans 0xAA, ans 0x55].map (fun a => a.byte) = cfg.probeVals ∧
      [ans 0, ans 0, ans 0].length = cfg.modeReadyTimeout ∧ 1 ≤ [ans 0, ans 0, ans 0].length ∧
      ∀ a ∈ [ans 0, ans 0, ans 0], flagSet cfg .modeReady a = false) := by decide

theorem test_witness_CommandsBeforeInit : (cold []).initialized = false := rfl

theorem test_witness_RxPollRearmsTheChip : (ready []).initialized = true ∧ (ready []).chipMode ≠ .receive ∧
    (ready []).cfg.aMode ≠ (ready []).cfg.aFifo := by decide

theorem test_witness_RxPollWithNothingReady : (listening [ans 0xFB]).initialized = true ∧
    (listening [ans 0xFB]).chipMode = .receive ∧ (listening [ans 0xFB]).rxFlag = true ∧
    flagSet cfg .payloadReady (nextAnswer (listening [ans 0xFB])) = false := by decide

theorem test_witness_RxPollHandlingNothingKeepsThePacket : (ready []).initialized = true ∧
    (ready []).chipMode ≠ .receive ∧ (ready []).rxFlag = false := by decide

/-- R269, R271 and D5: an edge before the PayloadReady read belongs to this poll; one before the last draw of handling is
kept for the next. -/
theorem test_rxPoll_edge :
    (let w := windowDraws [0x05, 0x04, 0x80, 0xF2, 0x7A, 0x82, 0x3D, 0xBA, 0x7E, 0x05];
      nextIs (exec .rxPoll (listening (⟨true, 0x04⟩ :: w.tail))) (fun t => !t.rxFlag) = true ∧
      nextIs (exec .rxPoll (listening (w.dropLast ++ [⟨true, 0x5C⟩]))) (fun t => t.rxFlag) = true) := by decide +kernel

/-- The frames of V35, V36 and V28: accepted, rejected, accepted as RemoteControl. -/
theorem test_witness_RxPollHandlesAWindow : ∀ case ∈ ([
      ([0x05, 0x04, 0x80, 0xF2, 0x7A, 0x82, 0x3D, 0xBA, 0x00, 0x00], true),
      ([0x05, 0x04, 0x80, 0xF2, 0x7A, 0x82, 0x3D, 0xBB, 0x00, 0x00], false),
      ([0x80, 0x02, 0x48, 0x2C, 0x6A, 0x84, 0xE0, 0x33, 0x69, 0x00], true)] : List (List Byte × Bool)),
    (listening (windowDraws case.1)).initialized = true ∧ (listening (windowDraws case.1)).chipMode = .receive ∧
    (listening (windowDraws case.1)).rxFlag = true ∧
    flagSet cfg .payloadReady (nextAnswer (listening (windowDraws case.1))) = true ∧
    nextIs (exec .rxPoll (listening (windowDraws case.1))) (fun t => t.ret == .bool case.2) = true := by decide +kernel

theorem test_witness_SentPacketIsReceived :
    let s := listening (windowDraws [0x05, 0x04, 0x80, 0xF2, 0x7A, 0x82, 0x3D, 0xBA, 0x7E, 0x05])
    s.cfg.dtRc ≠ 0x20 ∧ s.initialized = true ∧ s.chipMode = .receive ∧ s.rxFlag = true ∧
    flagSet s.cfg .payloadReady (nextAnswer s) = true ∧
    stuff (revBuf (assemble s.cfg .windowSensor 0xA0 0x014F5E 0x41 [])) =
      some ([0x05, 0x04, 0x80, 0xF2, 0x7A, 0x82, 0x3D, 0xBA, 0x00], 0) ∧
    ∃ t, exec .rxPoll s = .next t ∧ decide ((bits [0x05, 0x04, 0x80, 0xF2, 0x7A, 0x82, 0x3D, 0xBA, 0x00]).take
      (8 * typeLen .windowSensor + 0) <+: bits t.raw.bytes) = true :=
  ⟨by decide, by decide, by decide, by decide, by decide, by decide +kernel,
    exists_of_nextIs (check := fun t => decide ((bits [0x05, 0x04, 0x80, 0xF2, 0x7A, 0x82, 0x3D, 0xBA, 0x00]).take
      (8 * typeLen .windowSensor + 0) <+: bits t.raw.bytes)) (by decide +kernel)⟩

theorem test_witness_EdgeSetsOnlyTheFlag : (ready []).irqArmed = true ∧ (cold []).irqArmed = false ∧
    exec .irqEdge (ready []) = .next { ready [] with rxFlag := true } :=
  ⟨rfl, rfl, eq_of_nextIs (by decide)⟩

/-- Waiting for a clear channel, in Receive with `rx_flag` set, one iteration to go and the channel not clear. -/
def inWait (answers : List Config.ChipAnswer) : State :=
  { listening answers with
    cfg := { cfg with ccaLimit := 1 }, clearIn := [⟨false, false⟩], txPhase := .cca, job := ⟨[0xAB], 0, 1, false⟩ }

/-- An RX_POLL, a SEND with a clear-channel wait, and a step that goes on in one, each accepting the frame of V35. -/
theorem test_witness_OnlyAnAcceptedFrameChangesThePacket :
    let draws := windowDraws [0x05, 0x04, 0x80, 0xF2, 0x7A, 0x82, 0x3D, 0xBA, 0x00, 0x00]
    (∃ t, exec .rxPoll (listening draws) = .next t ∧ (t.decLen != 0) = true) ∧
    (∃ t, exec (.send [0xAB] 0) { inWait draws with txPhase := .off } = .next t ∧ (t.decLen != 0) = true) ∧
    (inWait draws).txPhase ≠ .off ∧ (inWait draws).initialized = true ∧
    ∃ t, step (inWait draws) = .next t ∧ (t.decLen != 0) = true :=
  ⟨exists_of_nextIs (check := fun t => t.decLen != 0) (by decide +kernel),
    exists_of_nextIs (check := fun t => t.decLen != 0) (by decide +kernel), nofun, rfl,
    exists_of_nextIs (check := fun t => t.decLen != 0) (by decide +kernel)⟩

theorem test_witness_TxPassContinuesTheStream :
    ({ cold [] with accN := 7, total := 88 } : State).accN ≤ 7 ∧
    ({ cold [] with accN := 7, total := 88 } : State).total.toNat ≤ 88 ∧
    (cold []).accN ≤ 7 ∧ (cold []).total.toNat ≤ 88 := by decide

/-- P2's chip, ready at once: FifoLevel clear at the first check, set at the next, the chip switched, set once more, then
clear; PacketSent clear twice. -/
def switched : SendCourse where
  standby := [ans 0x80]
  early := [ans 0]
  full := ans 0x20
  transmit := [ans 0x80]
  late := ans 0x20 :: List.replicate 329 (ans 0)
  unsent := [ans 0, ans 0]
  sent := ans 0x08
  restored := [ans 0x80]

theorem switched_ok : switched.Ok cfg where
  standby := ⟨true, modePolls_of (by decide)⟩
  early := by decide
  full := rfl
  transmit := ⟨true, modePolls_of (by decide)⟩
  late := List.cons_ne_nil _ _
  passes := by decide +kernel
  lastPass := fun a h => by
    have : switched.late.getLast? = some (ans 0) := by decide +kernel
    rw [this] at h
    cases h
    rfl
  unsent := by decide
  sent := rfl
  restored := ⟨true, modePolls_of (by decide)⟩

/-- A slow chip: Standby's wait times out, FifoLevel is first seen set before the last pass, Transmit's wait times out, and
Standby's last wait takes two polls. -/
def slow : SendCourse where
  standby := [ans 0, ans 0, ans 0]
  early := List.replicate 329 (ans 0)
  full := ans 0x20
  transmit := [ans 0, ans 0, ans 0]
  late := [ans 0]
  unsent := []
  sent := ans 0x08
  restored := [ans 0, ans 0x80]

theorem slow_ok : slow.Ok cfg where
  standby := ⟨false, modePolls_of (by decide)⟩
  early := fun a ha => by rw [List.eq_of_mem_replicate ha]; rfl
  full := rfl
  transmit := ⟨false, modePolls_of (by decide)⟩
  late := List.cons_ne_nil _ _
  passes := by decide +kernel
  lastPass := fun a h => by
    cases h
    rfl
  unsent := nofun
  sent := rfl
  restored := ⟨true, modePolls_of (by decide)⟩

/-- CCA_LIMIT of 0: no wait. -/
theorem wait_none (answers : List Config.ChipAnswer) :
    ChannelWait (ready answers).cfg.ccaLimit (ready answers) (ready answers) := .limit (.none _)

/-- A SEND about to wait, at most so many iterations, with these draws of ChannelClear. -/
def waits (limit : Nat) (clearIn : List Config.ClearAnswer) (answers : List Config.ChipAnswer) : State :=
  { ready answers with cfg := { cfg with ccaLimit := limit }, clearIn := clearIn }

/-- The channel is clear at the second draw, after an RX_POLL that commands Receive and takes one answer. -/
theorem wait_clear {s : State} {answers : List Config.ChipAnswer} (h0 : (nextClear s).clear = false)
    (h : nextIs (exec .rxPoll (afterClearDraw s)) (fun v => (nextClear v).clear && v.chipIn == answers) = true) :
    ∃ u, ChannelWait 2 s u ∧ u.chipIn = answers := by
  obtain ⟨v, e, hv⟩ := exists_of_nextIs h
  rw [Bool.and_eq_true, beq_iff_eq] at hv
  exact ⟨_, .clear (by decide) (.busy h0 e (.none v)) hv.1, hv.2⟩

/-- The wait runs to its limit of one. -/
theorem wait_limit {s : State} {answers : List Config.ChipAnswer} (h0 : (nextClear s).clear = false)
    (h : nextIs (exec .rxPoll (afterClearDraw s)) (fun v => v.chipIn == answers) = true) :
    ∃ u, ChannelWait 1 s u ∧ u.chipIn = answers := by
  obtain ⟨v, e, hv⟩ := exists_of_nextIs h
  exact ⟨_, .limit (.busy h0 e (.none v)), beq_iff_eq.mp hv⟩

/-- Both courses, with no wait, a wait that a clear channel ends and one that ends at its limit. -/
theorem test_witness_SendCompletes : ∀ c ∈ [switched, slow],
    (ready c.answers).initialized = true ∧ 1 ≤ [0xFB, 0x80].length ∧ [0xFB, 0x80].length ≤ 10 ∧ 1 ≤ 8 ∧
    c.Ok (ready c.answers).cfg ∧ (ready c.answers).chipIn = c.answers ++ [] ∧
    ChannelWait (ready c.answers).cfg.ccaLimit (ready c.answers) (ready c.answers) ∧
    (∃ u, ChannelWait 2 (waits 2 [⟨false, false⟩, ⟨true, true⟩] (ans 0x80 :: c.answers)) u ∧ u.chipIn = c.answers) ∧
    (∃ u, ChannelWait 1 (waits 1 [⟨false, false⟩] (ans 0x80 :: c.answers)) u ∧ u.chipIn = c.answers) ∧
    cfg.aFifo ≠ cfg.aLen ∧ cfg.aFifo ≠ cfg.aMode := by
  intro c hc
  simp only [List.mem_cons, List.not_mem_nil, or_false] at hc
  rcases hc with rfl | rfl
  · exact ⟨rfl, by decide, by decide, by decide, switched_ok, (List.append_nil _).symm, wait_none _,
      wait_clear rfl (by decide +kernel), wait_limit rfl (by decide +kernel), by decide, by decide⟩
  · exact ⟨rfl, by decide, by decide, by decide, slow_ok, (List.append_nil _).symm, wait_none _,
      wait_clear rfl (by decide +kernel), wait_limit rfl (by decide +kernel), by decide, by decide⟩

theorem test_witness_SendStreamIsTheRepeatedFrame :
    ∃ t, exec (.send [0xFB, 0x80] 1) (ready switched.answers) = .next t ∧ 0 < 330 * totalBits 2 1 / 8 :=
  ⟨_, rfl, by decide⟩

/-- The second and third rows of V26: no insertion and five. -/
theorem test_witness_SendPktCompletes : (ready switched.answers).initialized = true ∧
    stuff (revBuf (assemble (ready switched.answers).cfg .windowSensor (ready switched.answers).counter 0x014F5E 0x41 [])) =
      some ([0x80, 0x04, 0x80, 0xF2, 0x7A, 0x82, 0xAA, 0x9B, 0x00], 0) ∧
    stuff (revBuf (assemble (ready switched.answers).cfg .windowSensor (ready switched.answers).counter 0xFFFFFF 0x41 [])) =
      some ([0x80, 0x04, 0xFB, 0xEF, 0xBE, 0xF8, 0x14, 0xD1, 0xE0], 5) ∧
    ChannelWait (ready switched.answers).cfg.ccaLimit (ready switched.answers) (ready switched.answers) ∧
    switched.Ok (ready switched.answers).cfg ∧ (ready switched.answers).chipIn = switched.answers ++ [] ∧
    cfg.aFifo ≠ cfg.aLen ∧ cfg.aFifo ≠ cfg.aMode :=
  ⟨rfl, by decide +kernel, by decide +kernel, wait_none _, switched_ok, (List.append_nil _).symm, by decide, by decide⟩

/-- V27. -/
theorem test_witness_SendPktOverflowRefused : ({ ready [] with counter := 0x3E } : State).initialized = true ∧
    stuffLoop (bits (revBuf (assemble cfg .windowSensor 0x3E 0xFFFFFF 0xF9 []))) = none := by decide +kernel

theorem test_witness_NoClearChannelWaitNoReception : (ready switched.answers).cfg.ccaLimit = 0 ∧
    (∃ t, exec (.send [0xFB, 0x80] 1) (ready switched.answers) = .next t) ∧
    (∃ t, exec (.sendPkt .unknown 0 0 []) (ready []) = .next t) ∧
    (∃ t, step { ready [ans 0] with txPhase := .fill } = .next t) ∧
    ∃ t, step { ready [ans 0x80] with txPhase := .cca } = .next t ∧
      ({ ready [ans 0x80] with txPhase := .cca } : State).job.ccaLeft = 0 :=
  ⟨rfl, ⟨_, rfl⟩, ⟨_, rfl⟩, ⟨_, rfl⟩, ⟨_, rfl, rfl⟩⟩

/-- No iteration left, a draw that says clear, a draw that does not; with and without answers left after it. -/
theorem test_witness_ClearChannelIterationIsAPoll :
    (∀ s ∈ [inWait [], inWait [ans 0xFB], inWait [ans 0xFB, ans 0x80]], s.txPhase = .cca ∧ s.initialized = true ∧
      fetch s = .idle ∧ s.job.ccaLeft = 0 + 1 ∧ (nextClear s).clear = false ∧
      nextIs (exec .rxPoll (afterClearDraw s)) (fun _ => true) = true) ∧
    (nextClear { inWait [] with clearIn := [⟨true, true⟩] }).clear = true ∧
    ({ inWait [] with job := ⟨[0xAB], 0, 0, false⟩ } : State).job.ccaLeft = 0 := by decide +kernel

theorem test_witness_UnboundedWaitsStayWaits :
    (let s : State := { ready [ans 0x20, ans 0x20] with txPhase := .fill, rep := 329, txActive := true };
      s.moves = [] ∧ s.txPhase = .fill ∧ s.rep.toNat < 330 ∧ s.txActive = true ∧ s.chipIn ≠ [] ∧
      ∀ a ∈ s.chipIn, flagSet s.cfg .fifoLevel a = true) ∧
    (let s : State := { ready [ans 0x20, ans 0x80, ans 0x20] with txPhase := .fill, rep := 0 };
      s.moves = [] ∧ s.txPhase = .fill ∧ s.rep.toNat < 330 ∧ s.txActive = false ∧
      s.chipIn = ans 0x20 :: ([ans 0x80] ++ [ans 0x20]) ∧ flagSet s.cfg .fifoLevel (ans 0x20) = true ∧
      ModePolls s.cfg (answerBytes [ans 0x80]) true ∧ ∀ a ∈ [ans 0x20], flagSet s.cfg .fifoLevel a = true) ∧
    (let s : State := { ready [ans 0x20] with txPhase := .waitSent };
      s.moves = [] ∧ s.txPhase = .waitSent ∧ s.chipIn ≠ [] ∧ ∀ a ∈ s.chipIn, flagSet s.cfg .packetSent a = false) ∧
    (let s : State := { ready (List.replicate 330 (ans 0) ++ [ans 0x08]) with txPhase := .fill };
      s.moves = [] ∧ s.txPhase = .fill ∧ s.rep = 0 ∧ s.txActive = false ∧
      s.chipIn = List.replicate 330 (ans 0) ++ [ans 0x08] ∧ (List.replicate 330 (ans 0)).length = 330 ∧
      [ans 0x08] ≠ [] ∧ ∀ a ∈ List.replicate 330 (ans 0), flagSet s.cfg .fifoLevel a = false) :=
  ⟨by decide, ⟨rfl, rfl, by decide, rfl, rfl, by decide, modePolls_of (by decide), by decide⟩, by decide,
    rfl, rfl, rfl, rfl, rfl, List.length_replicate, by decide, fun a ha => by rw [List.eq_of_mem_replicate ha]; rfl⟩

/-- FifoLevel clear at every check, with PacketSent read as 0 and as 1, and a state of that wait. -/
theorem test_witness_SendNeverSwitchedNeverEnds :
    let later := [ans 0, ans 0x08]
    let s := ready ([ans 0x80] ++ (List.replicate 330 (ans 0) ++ later))
    s.initialized = true ∧ 1 ≤ [0xFB, 0x80].length ∧ [0xFB, 0x80].length ≤ 10 ∧ 1 ≤ 8 ∧ ChannelWait s.cfg.ccaLimit s s ∧
    ModePolls s.cfg (answerBytes [ans 0x80]) true ∧ (List.replicate 330 (ans 0)).length = 330 ∧
    (∀ a ∈ List.replicate 330 (ans 0), flagSet s.cfg .fifoLevel a = false) ∧
    s.chipIn = [ans 0x80] ++ (List.replicate 330 (ans 0) ++ later) ∧ later ≠ [] ∧
    stuff (revBuf (assemble s.cfg .windowSensor s.counter 0x014F5E 0x41 [])) =
      some ([0x80, 0x04, 0x80, 0xF2, 0x7A, 0x82, 0xAA, 0x9B, 0x00], 0) ∧
    ({ s with txPhase := .waitSent } : State).txPhase = .waitSent ∧
    ({ s with txPhase := .waitSent } : State).txActive = false :=
  ⟨rfl, by decide, by decide, by decide, wait_none _, modePolls_of (by decide), List.length_replicate,
    fun a ha => by rw [List.eq_of_mem_replicate ha]; rfl, rfl, nofun, by decide +kernel, rfl, rfl⟩

/-- R305 c: PacketSent read as 1 does not end a SEND whose chip was never switched to Transmit; switched, it does. -/
theorem test_waitSent : nextIs (step { ready [ans 0x08] with txPhase := .waitSent }) (fun t => t.txPhase == .waitSent) = true ∧
    nextIs (step { ready [ans 0x08] with txPhase := .waitSent, txActive := true }) (fun t => t.txPhase == .restore) = true := by
  decide

/-- The step of `test_restore`. -/
theorem test_witness_CounterMovesOnlyOnASuccessfulSendPkt : ∃ t,
    step { ready [ans 0x80] with txPhase := .restore, job := ⟨[0x05, 0x04], 0, 0, true⟩ } = .next t ∧
      (t.counter != (ready []).counter) = true :=
  exists_of_nextIs (check := fun t => t.counter != (ready []).counter) (by decide +kernel)

/-- A host command with another after it, and a bus byte alone. -/
theorem test_witness_StepRunsTheDecodedOperation :
    (cold []).txPhase = .off ∧
    ({ cold [] with moves := [⟨.host, [0x02, 0x05]⟩] } : State).moves = ⟨.host, [0x02, 0x05]⟩ :: [] ∧
    decode (portFormat .host) cfg.rwWrite [0x02, 0x05] = .ok (.rxGet, [0x05]) ∧ portAdmits .host .rxGet = true ∧
    decode (portFormat .bus) cfg.rwWrite [0xB8] = .ok (.busWrite 0x38, []) ∧
    portAdmits .bus (.busWrite 0x38) = true := by decide

theorem test_witness_NothingRunsUnasked : (cold []).txPhase = .off ∧ (cold []).moves = [] ∧ (cold []).irqArmed = false :=
  ⟨rfl, rfl, rfl⟩

theorem test_witness_HostIssuesOnlyHostCommands : decodeOperation [0x10] = .ok (.txPass, []) ∧
    decodeOperation [0x1F] = .ok (.irqEdge, []) ∧
    ∀ p v type a c extra, Instr.txPass ≠ .init ∧ Instr.txPass ≠ .rxPoll ∧ Instr.txPass ≠ .rxGet ∧
      Instr.txPass ≠ .send p v ∧ Instr.txPass ≠ .sendPkt type a c extra ∧ Instr.txPass ≠ .lastGet :=
  ⟨rfl, rfl, fun _ _ _ _ _ _ => ⟨nofun, nofun, nofun, nofun, nofun, nofun⟩⟩

/-- A host command waits: nothing starts. -/
theorem test_witness_NothingStartsDuringASend :
    let s : State := { ready [] with txPhase := .fill, moves := [⟨.host, [0x02]⟩] }
    s.txPhase ≠ .off ∧ fetch s = .run .rxGet [] := by decide

theorem test_witness_EdgeDuringASendOnlySetsTheFlag :
    ({ ready [] with txPhase := .waitSent, moves := [⟨.signal, [0x1F]⟩] } : State).txPhase ≠ .off ∧
    ({ ready [] with txPhase := .waitSent, moves := [⟨.signal, [0x1F]⟩] } : State).moves =
      ⟨.signal, [0x1F]⟩ :: [] := by decide

/-- A SEND in its fill loop meets the invariant, and so does the machine at rest before INIT. -/
theorem test_witness_StepKeepsTheInvariant :
    Inv { ready [ans 0] with txPhase := .fill, job := ⟨[0xAB], 0, 0, false⟩ } ∧ Inv (cold []) :=
  have ok : cfg.Ok :=
    ⟨by decide, by decide, by decide, by decide, by decide, by decide, by decide, by decide, by decide⟩
  ⟨⟨ok, rfl, by decide, by decide, by decide, Or.inl ⟨rfl, rfl⟩, by decide, by decide, rfl, rfl, nofun,
      fun _ => ⟨rfl, rfl⟩⟩,
    ⟨ok, rfl, by decide, by decide, by decide, Or.inl ⟨rfl, rfl⟩, by decide, by decide, rfl, rfl, nofun,
      fun h => absurd rfl h⟩⟩

theorem test_witness_StepKeepsTheConfiguration : ∃ t, step (cold []) = .next t := ⟨_, rfl⟩

end Sys2Proof.Tests
end

section
/-! PROOFS. The state at reset (spec/10_state.md R45, spec/00_scope.md R9), and which operation a step runs. -/

namespace Sys2Proof.Config

/-! ### The configuration at reset meets the constraints of R9 -/

theorem skip_ne (hole k : Nat) : skip hole k ≠ hole := by
  unfold skip
  split <;> omega

theorem skip_le (hole k : Nat) : skip hole k ≤ k + 1 := by
  unfold skip
  split <;> omega

/-- Numbers below 256 that differ are different bytes. -/
theorem ofNat_ne {m n : Nat} (hm : m < 256) (hn : n < 256) (h : m ≠ n) : BitVec.ofNat 8 m ≠ BitVec.ofNat 8 n :=
  fun e => h (by simpa [Nat.mod_eq_of_lt hm, Nat.mod_eq_of_lt hn] using congrArg BitVec.toNat e)

theorem flagLoc_mask_ne (loc : ChipAddr × Fin 255) : (flagLoc loc).mask ≠ 0 :=
  ofNat_ne (n := 0) (by have := loc.2.isLt; omega) (by omega) (Nat.succ_ne_zero _)

/-- A byte moves when a number from 1 to 255 is added. -/
theorem ne_add_ofNat_succ (b : Byte) {k : Nat} (h : k < 255) : b ≠ b + BitVec.ofNat 8 (k + 1) := fun e =>
  ofNat_ne (n := 0) (by omega) (by omega) (Nat.succ_ne_zero k) (left_eq_add.mp e)

theorem params_ok : params.Ok where
  dtRc := by
    have hpick := dtRcPick.isLt
    have hle := skip_le dtWs.toNat dtRcPick.val
    exact ofNat_ne (n := dtWs.toNat) (by omega) dtWs.isLt (skip_ne _ _)
  modeReady := flagLoc_mask_ne _
  payloadReady := flagLoc_mask_ne _
  fifoLevel := flagLoc_mask_ne _
  packetSent := flagLoc_mask_ne _
  standbyReceive := ne_add_ofNat_succ _ modeReceivePick.isLt
  standbyTransmit := by
    have hpick := modeTransmitPick.isLt
    have hle := skip_le modeReceivePick.val modeTransmitPick.val
    exact ne_add_ofNat_succ _ (by omega)
  receiveTransmit := fun e => by
    have hrec := modeReceivePick.isLt
    have hpick := modeTransmitPick.isLt
    have hle := skip_le modeReceivePick.val modeTransmitPick.val
    have hne := skip_ne modeReceivePick.val modeTransmitPick.val
    exact ofNat_ne (by omega) (by omega) (by omega) (add_left_cancel e)
  timeout := Nat.succ_pos _

end Sys2Proof.Config

namespace Sys2Proof.Machine

/-- Settles O54: each reset value by evaluation. -/
theorem resetValues : Obligations.ResetValues := by
  unfold Obligations.ResetValues
  exact ⟨rfl, rfl, rfl, rfl, rfl, rfl, rfl, rfl, rfl, rfl, rfl, rfl, rfl, rfl⟩

/-- Settles O55: the parameters by `Config.params_ok`, the other clauses by evaluation. -/
theorem invariantAtReset : Obligations.InvariantAtReset where
  params := Config.params_ok
  chipRegs := reset_chipRegs_wf
  counter := by decide
  accN := Nat.zero_le 7
  total := Nat.zero_le 88
  packet := Or.inl ⟨rfl, rfl⟩
  lastSent := Nat.zero_le 11
  rep := Nat.zero_le _
  rxState := rfl
  armed := rfl
  rxFlag := nofun
  busy := fun h => absurd rfl h

/-! ### The step -/

theorem fetch_run {s : State} {port : Port} {bytes rest : List Byte} {ms : List Move} {i : Instr}
    (hm : s.moves = ⟨port, bytes⟩ :: ms) (hd : decode (portFormat port) s.cfg.rwWrite bytes = .ok (i, rest))
    (ha : portAdmits port i = true) : fetch s = .run i (restMoves port rest ms) := by
  unfold fetch
  simp only [hm, hd, ha, if_true]

/-- Settles O49, by what `fetch` answers. -/
theorem stepRunsTheDecodedOperation : Obligations.StepRunsTheDecodedOperation := by
  intro s port bytes rest ms i hoff hm hd ha
  rw [step_atRest s hoff, fetch_run hm hd ha]
  rfl

end Sys2Proof.Machine
end

section
/-! PROOFS. What a poll and an operation can do, said once: `poll_cases`, `exec_ran`. -/

namespace Sys2Proof.Machine

/-! ### What chip traffic guards, under whatever else of the block moves -/

/-- From `s` to `t` the handler ran at most while armed, and the configuration, the arming and the form of the chip's
registers were kept. A conjunction over these four fields alone, so that it still holds where others moved too. -/
def Guarded (s t : State) : Prop :=
  t.cfg = s.cfg ∧ t.irqArmed = s.irqArmed ∧ (t.rxFlag = true → s.rxFlag = true ∨ s.irqArmed = true) ∧
    (s.chipRegs.wf = true → t.chipRegs.wf = true)

theorem Guarded.cfg {s t : State} (h : Guarded s t) : t.cfg = s.cfg := h.1

theorem Guarded.refl (s : State) : Guarded s s := ⟨rfl, rfl, Or.inl, id⟩

theorem Guarded.trans {s t u : State} (h : Guarded s t) (k : Guarded t u) : Guarded s u := by
  obtain ⟨hcfg, harmed, hflag, hregs⟩ := h
  obtain ⟨kcfg, karmed, kflag, kregs⟩ := k
  exact ⟨kcfg.trans hcfg, karmed.trans harmed, fun hu => (kflag hu).elim hflag (fun ha => Or.inr (harmed ▸ ha)),
    fun hs => kregs (hregs hs)⟩

theorem ChipTraffic.guarded {s t : State} (h : ChipTraffic s t) : Guarded s t :=
  ⟨h.cfg, h.irqArmed, h.flagSet, h.regsKept⟩

theorem setMode_guarded (m : Mode) (s : State) : Guarded s (setMode m s).2 := (setMode_traffic m s).guarded

theorem recordRssi_guarded (s : State) : Guarded s (recordRssi s) := (rssiRd_traffic s).guarded

theorem startHandling_guarded (s : State) : Guarded s (startHandling s) := ⟨rfl, rfl, nofun, id⟩

theorem readWindow_guarded (s : State) : Guarded s (readWindow s) :=
  (setMode_guarded .standby s).trans (fifoRd_traffic Config.maxFrame (freeze s)).guarded

theorem judged_guarded (verdict : Option (PktType × Nat)) (s : State) : Guarded s (judged verdict s) := by
  cases verdict with
  | none => exact .refl s
  | some p => exact recordRssi_guarded { s with
      rxState := .accepted, dec := overlay s.dec (s.ds.bytes.take p.2), decLen := p.2, decType := deviceOf p.1 }

theorem Guarded.withRxState {s t : State} (h : Guarded s t) (x : RxState) : Guarded s { t with rxState := x } := h

theorem endHandling_guarded (s : State) : Guarded s (endHandling s) :=
  ((setMode_guarded .receive s).trans (recordRssi_guarded _)).withRxState .idle

theorem handle_guarded (s : State) : Guarded s (handle s).2 := by
  rw [handle_eq]
  exact ((readWindow_guarded s).trans (judged_guarded _ _)).trans (endHandling_guarded _)

/-! ### The decoded packet through a poll -/

/-- `t` has the decoded packet of `s`. -/
def SamePacket (s t : State) : Prop := t.dec = s.dec ∧ t.decLen = s.decLen ∧ t.decType = s.decType

theorem SamePacket.refl (s : State) : SamePacket s s := ⟨rfl, rfl, rfl⟩

theorem SamePacket.trans {s t u : State} (h : SamePacket s t) (k : SamePacket t u) : SamePacket s u :=
  ⟨k.1.trans h.1, k.2.1.trans h.2.1, k.2.2.trans h.2.2⟩

theorem SamePacket.not_changed {s t : State} (h : SamePacket s t) :
    ¬ (t.dec ≠ s.dec ∨ t.decLen ≠ s.decLen ∨ t.decType ≠ s.decType) := by
  obtain ⟨hdec, hlen, htype⟩ := h
  simp [hdec, hlen, htype]

theorem ChipTraffic.samePacket {s t : State} (h : ChipTraffic s t) : SamePacket s t := by
  rw [h.frame]
  exact .refl s

/-- The decoded packet's type and length belong together. -/
def TypedPacket (s : State) : Prop := ∃ type, s.decType = deviceOf type ∧ s.decLen = typeLen type

theorem TypedPacket.of_same {s t : State} (h : TypedPacket s) (k : SamePacket s t) : TypedPacket t := by
  obtain ⟨type, htype, hlen⟩ := h
  obtain ⟨_, klen, ktype⟩ := k
  exact ⟨type, ktype.trans htype, klen.trans hlen⟩

theorem setMode_samePacket (m : Mode) (s : State) : SamePacket s (setMode m s).2 := (setMode_traffic m s).samePacket

theorem recordRssi_samePacket (s : State) : SamePacket s (recordRssi s) := (rssiRd_traffic s).samePacket

theorem readWindow_samePacket (s : State) : SamePacket s (readWindow s) :=
  (setMode_samePacket .standby s).trans (fifoRd_traffic Config.maxFrame (freeze s)).samePacket

theorem SamePacket.withRxState {s t : State} (h : SamePacket s t) (x : RxState) :
    SamePacket s { t with rxState := x } := h

theorem endHandling_samePacket (s : State) : SamePacket s (endHandling s) :=
  ((setMode_samePacket .receive s).trans (recordRssi_samePacket _)).withRxState .idle

theorem judged_none_samePacket (s : State) : SamePacket s (judged none s) := .refl s

theorem publish_typedPacket (type : PktType) (s : State) : TypedPacket (publish type (typeLen type) s) :=
  .of_same ⟨type, rfl, rfl⟩ (recordRssi_samePacket _)

/-- Handling a frame rejects it and keeps the decoded packet, or accepts it and publishes one. -/
theorem handle_packet (s : State) :
    ((handle s).1 = .rejected ∧ SamePacket s (handle s).2) ∨ ((handle s).1 = .accepted ∧ TypedPacket (handle s).2) := by
  rw [handle_eq]
  cases hv : judge s.cfg (readWindow s).ds.bytes with
  | none =>
    have hjudged := (readWindow_samePacket s).trans (judged_none_samePacket _)
    exact Or.inl ⟨rfl, hjudged.trans (endHandling_samePacket _)⟩
  | some p =>
    obtain ⟨type, len⟩ := p
    obtain rfl := judge_len hv
    exact Or.inr ⟨rfl, (publish_typedPacket type _).of_same (endHandling_samePacket _)⟩

/-- A poll handles a frame, or it handles none and is chip traffic in the mode it leaves. -/
theorem poll_cases (s : State) :
    ((poll s).1 = .nothing ∧ ∃ m, ChipTraffic { s with chipMode := m } (poll s).2) ∨
      poll s = handle (startHandling (flagRd .payloadReady s).2) := by
  unfold poll
  split
  · unfold observe
    split
    · split
      · exact Or.inr rfl
      · exact Or.inl ⟨rfl, s.chipMode, flagRd_traffic .payloadReady s⟩
    · exact Or.inl ⟨rfl, s.chipMode, .refl s⟩
  · exact Or.inl ⟨rfl, .receive, setMode_traffic .receive s⟩

theorem poll_guarded (s : State) : Guarded s (poll s).2 := by
  rcases poll_cases s with ⟨_, m, h⟩ | h
  · exact h.guarded
  · rw [h]
    exact ((flagRd_traffic .payloadReady s).guarded.trans (startHandling_guarded _)).trans (handle_guarded _)

/-- A poll leaves `rx_state` as it is or Idle (R32). -/
theorem poll_rxState (s : State) : (poll s).2.rxState = s.rxState ∨ (poll s).2.rxState = .idle := by
  rcases poll_cases s with ⟨_, m, h⟩ | h
  · rw [h.frame]
    exact Or.inl rfl
  · rw [h, handle_eq]
    exact Or.inr rfl

/-- A poll keeps the decoded packet, or accepts a frame and publishes one (R190). -/
theorem poll_packet (s : State) :
    SamePacket s (poll s).2 ∨ ((poll s).1 = .accepted ∧ TypedPacket (poll s).2) := by
  rcases poll_cases s with ⟨_, m, h⟩ | h
  · exact Or.inl h.samePacket
  · rw [h]
    refine (handle_packet _).imp (fun hr => ?_) id
    exact (flagRd_traffic .payloadReady s).samePacket.trans hr.2

theorem respondPoll_frame (e : PollEnd) (s : State) :
    respondPoll e s = { s with ret := (respondPoll e s).ret, cond := (respondPoll e s).cond } := by
  cases e <;> rfl

/-! ### What one operation can do -/

/-- What an operation that is neither INIT nor RX_POLL and starts no SEND moves: the mode, `pl`, the packer and its
result, besides chip traffic. -/
structure UnitEffect (s t : State) : Prop where
  frame : t = { s with
    chipMode := t.chipMode, pl := t.pl, acc := t.acc, accN := t.accN, chipIn := t.chipIn, drawn := t.drawn,
    bus := t.bus, chipRegs := t.chipRegs, fifoOut := t.fifoOut, rxFlag := t.rxFlag, ret := t.ret, cond := t.cond }
  guarded : Guarded s t
  accN : s.accN ≤ 7 → t.accN ≤ 7

theorem ChipTraffic.unitEffect {s t : State} {m : Mode} (h : ChipTraffic { s with chipMode := m } t) :
    UnitEffect s t := by
  have g := h.guarded
  obtain ⟨_, _, _, _, _, _, rfl⟩ := h.exists_update
  exact ⟨rfl, g, id⟩

theorem UnitEffect.respond {s t : State} (h : UnitEffect s t) (r : Ret) : UnitEffect s (respond r t) := by
  obtain ⟨hf, g, ha⟩ := h
  exact ⟨congrArg (Machine.respond r) hf, g, ha⟩

theorem txPass_unitEffect (s : State) : UnitEffect s (txPass s) where
  frame := by rw [txPass_state]
  guarded := (fifoWrEach_traffic (passBytes s) s).guarded
  accN := fun h => by
    have hn : (txPass s).accN = _ := (packFrom_stream (frameBits s) s.acc s.accN h).2.2
    omega

theorem storePl_unitEffect (bytes : List Byte) (s : State) : UnitEffect s (storePl bytes s) :=
  ⟨rfl, .refl s, id⟩

/-- The operation is one of the two that start a SEND. -/
def StartsSend (i : Instr) : Prop := (∃ p v, i = .send p v) ∨ ∃ type a c extra, i = .sendPkt type a c extra

/-- From `s` the operation `i` ran, and `t` is what it left: all that an operation can do. -/
inductive Ran (i : Instr) (s : State) : State → Prop
  | init : i = .init → Ran i s (runInit s)
  | rxPoll : i = .rxPoll → Ran i s (respondPoll (poll s).1 (poll s).2)
  | send {payload : List Byte} {v : Nat} (fromPkt : Bool) (pl : Buf 9) (st : Buf 10) : StartsSend i →
      s.initialized = true → sendInRange payload v = true →
      Ran i s (resume (startSend payload v fromPkt { s with pl := pl, st := st }))
  | other {t : State} : UnitEffect s t → Ran i s t

/-- An operation that gives its result after such an effect. -/
theorem Ran.of_answer {i : Instr} {s t u : State} {r : Ret} (hu : UnitEffect s u)
    (h : Host.Outcome.next (respond r u) = (.next t : Host.Outcome State Fault Refusal)) : Ran i s t := by
  cases h
  exact .other (hu.respond r)

theorem execSend_ran {payload : List Byte} {v : Nat} {s t : State} (h : execSend payload v s = .next t) :
    Ran (.send payload v) s t := by
  unfold execSend at h
  split at h
  · rename_i hi
    split at h
    · rename_i hr
      cases h
      exact .send false s.pl s.st (Or.inl ⟨_, _, rfl⟩) hi hr
    · cases h
  · cases h

theorem sendInRange_iff {payload : List Byte} {v : Nat} :
    sendInRange payload v = true ↔ 1 ≤ payload.length ∧ payload.length ≤ 10 ∧ v ≤ 8 := by
  simp [sendInRange, and_assoc]

/-- STUFF's result on an assembled packet is in SEND's range (R95). -/
theorem sendInRange_stuffed {type : PktType} {payload out : List Byte} {ins : Nat}
    (hlen : payload.length = typeLen type) (h : stuff (revBuf payload) = some (out, ins)) :
    sendInRange (out.take (stuffedSize payload.length ins).1) (stuffedSize payload.length ins).2 = true := by
  obtain ⟨_, hins, hout, _⟩ := stuff_result h
  obtain ⟨h8, h9⟩ := typeLen_range type
  rw [revBuf, List.length_map] at hout
  rw [sendInRange_iff, List.length_take]
  unfold stuffedSize
  split
  · dsimp only
    omega
  · dsimp only
    omega

theorem sendPacket_ran {d : DeviceType} {type : PktType} {a : DevAddr} {c : Byte} {extra : List Byte} {s t : State}
    (hi : s.initialized = true) (h : sendPacket type a c extra s = .next t) : Ran (.sendPkt d a c extra) s t := by
  unfold sendPacket at h
  split at h
  · rename_i r hr
    cases h
    exact .send true _ _ (Or.inr ⟨_, _, _, _, rfl⟩) hi
      (sendInRange_stuffed (length_assemble s.cfg type s.counter a c extra) hr)
  · cases h

theorem execSendPkt_ran {d : DeviceType} {a : DevAddr} {c : Byte} {extra : List Byte} {s t : State}
    (h : execSendPkt d a c extra s = .next t) : Ran (.sendPkt d a c extra) s t := by
  unfold execSendPkt at h
  split at h
  · cases h
    exact .other ⟨rfl, .refl s, id⟩
  · split at h
    · rename_i hi
      exact sendPacket_ran hi h
    · cases h

/-- Every operation that answers did one of the four things. -/
theorem exec_ran {i : Instr} {s t : State} (h : exec i s = .next t) : Ran i s t := by
  have here : UnitEffect s s := (ChipTraffic.refl s).unitEffect
  cases i with
  | init => cases h; exact .init rfl
  | rxPoll =>
    obtain ⟨_, rfl⟩ := rxPoll_next h
    exact .rxPoll rfl
  | send payload v => exact execSend_ran h
  | sendPkt d a c extra => exact execSendPkt_ran h
  | destuff input =>
    change execDestuff input s = _ at h
    unfold execDestuff at h
    split at h
    · exact .of_answer here h
    · cases h
  | stuff input =>
    change execStuff input s = _ at h
    unfold execStuff at h
    split at h
    · split at h
      · exact .of_answer here h
      · cases h
    · cases h
  | fifoWr bytes =>
    change execFifoWr bytes s = _ at h
    unfold execFifoWr at h
    split at h
    · cases h
    · exact .of_answer (fifoWr_traffic bytes s).unitEffect h
  | fifoRd n =>
    change execFifoRd n s = _ at h
    unfold execFifoRd at h
    split at h
    · cases h
    · exact .of_answer (fifoRd_traffic n s).unitEffect h
  | rxGet | lastGet | crcStep _ _ | pktCrc _ _ | rev8 _ | revBuf _ | classify _ => exact .of_answer here h
  | assemble => exact .of_answer (storePl_unitEffect _ s) h
  | txPass => exact .of_answer (txPass_unitEffect s) h
  | regWr a v => exact .of_answer (regWr_traffic a v s).unitEffect h
  | regRd a => exact .of_answer (regRd_traffic a s).unitEffect h
  | setMode m => exact .of_answer (setMode_traffic m s).unitEffect h
  | flagRd f => exact .of_answer (flagRd_traffic f s).unitEffect h
  | busWrite a | busRead a => exact .of_answer (busAddr_traffic _ a s).unitEffect h
  | irqEdge => cases h; exact .other (takeEdgeIf_traffic true s).unitEffect

end Sys2Proof.Machine
end

section
/-! PROOFS. What an iteration of a SEND and a step can do (`txTick_effect`, `step_cases`), and what every step keeps of
the configuration, of what is asked and of the counter. -/

namespace Sys2Proof.Machine

/-! ### What goes on with a SEND -/

/-- A relation from a SEND's state to where a step leaves it: it holds if one iteration meets it, and if it comes back
over an iteration after which the SEND goes on. -/
theorem resume_induction {R : State → State → Prop} (stop : ∀ s, R s (txTick s))
    (go : ∀ s t, (txTick s).txPhase ≠ .off → R (txTick s) t → R s t) (s : State) : R s (resume s) := by
  have run : ∀ n s, R s (txRun n s) := by
    intro n
    induction n with
    | zero => exact stop
    | succ n ih =>
      intro s
      unfold txRun
      split
      · exact stop s
      · rename_i hgo
        exact go s _ (fun hoff => hgo (Or.inl hoff)) (ih _)
  exact run _ s

/-- From `s` to `t` no operation started and nothing was configured: what is asked, INIT's two flags, the configuration,
and the buffers that SEND_PKT fills before its SEND are as they were. -/
structure SendKept (s t : State) : Prop where
  moves : t.moves = s.moves
  initialized : t.initialized = s.initialized
  irqArmed : t.irqArmed = s.irqArmed
  cfg : t.cfg = s.cfg
  pl : t.pl = s.pl
  st : t.st = s.st

theorem SendKept.refl (s : State) : SendKept s s := ⟨rfl, rfl, rfl, rfl, rfl, rfl⟩

theorem SendKept.trans {s t u : State} (h : SendKept s t) (k : SendKept t u) : SendKept s u :=
  ⟨k.moves.trans h.moves, k.initialized.trans h.initialized, k.irqArmed.trans h.irqArmed, k.cfg.trans h.cfg,
    k.pl.trans h.pl, k.st.trans h.st⟩

/-- What an iteration of the clear-channel wait does: it ends the wait, or makes a poll. -/
theorem ccaTick_cases (s : State) :
    ccaTick s = { s with txPhase := .setup } ∨ ccaTick s = { afterClearDraw s with txPhase := .setup } ∨
      (s.job.ccaLeft ≠ 0 ∧ (nextClear s).clear = false ∧
        ccaTick s = { (poll (afterClearDraw s)).2 with job := { s.job with ccaLeft := s.job.ccaLeft - 1 } }) := by
  by_cases h0 : s.job.ccaLeft = 0
  · exact Or.inl (ccaTick_limit s h0)
  · cases hc : (nextClear s).clear with
    | true => exact Or.inr (Or.inl (ccaTick_clear s h0 hc))
    | false =>
      refine Or.inr (Or.inr ⟨h0, rfl, ?_⟩)
      rw [ccaTick, if_neg h0, drawClear_state, if_neg (by simp [hc])]

/-- `t` has the counter of `s`, or it ends a SEND_PKT that returned true and moved it (R247). -/
def CounterCourse (s t : State) : Prop :=
  t.counter = s.counter ∨
    (t.counter = nextCounter s.counter ∧ t.ret = .bool true ∧ t.txPhase = .off ∧ t.job.fromPkt = true)

theorem CounterCourse.of_eq {s u t : State} (h : u.counter = s.counter) (k : CounterCourse u t) :
    CounterCourse s t := by
  unfold CounterCourse at k ⊢
  rwa [h] at k

theorem restoreTick_counter (s : State) : CounterCourse s (restoreTick s) := by
  have hc : (restoreTick s).counter = if s.job.fromPkt then nextCounter s.counter else s.counter := by
    unfold restoreTick
    dsimp only
    rw [regWr_state, (setMode_traffic .standby s).frame]
    rfl
  have hj : (restoreTick s).job = s.job := by
    obtain ⟨_, _, _, _, _, _, _, _, _, _, e⟩ := restoreTick_frame s
    rw [e]
  unfold CounterCourse
  rw [hc, hj]
  cases s.job.fromPkt with
  | true => exact Or.inr ⟨rfl, rfl, rfl, rfl⟩
  | false => exact Or.inl rfl

/-- What one iteration of a SEND does to the fields that the host sees. -/
structure TickEffect (s t : State) : Prop where
  kept : SendKept s t
  counter : CounterCourse s t
  packet : s.txPhase ≠ .cca → SamePacket s t ∧ t.txPhase ≠ .cca

theorem txTick_effect (s : State) : TickEffect s (txTick s) := by
  cases hp : s.txPhase with
  | off =>
    rw [txTick_off s hp]
    exact ⟨.refl s, Or.inl rfl, fun h => ⟨.refl s, h⟩⟩
  | cca =>
    rw [txTick_cca s hp]
    have hpacket {t : State} : s.txPhase ≠ .cca → SamePacket s t ∧ t.txPhase ≠ .cca := fun h => absurd hp h
    rcases ccaTick_cases s with e | e | ⟨_, _, e⟩
    · rw [e]
      exact ⟨⟨rfl, rfl, rfl, rfl, rfl, rfl⟩, Or.inl rfl, hpacket⟩
    · rw [e]
      exact ⟨⟨rfl, rfl, rfl, rfl, rfl, rfl⟩, Or.inl rfl, hpacket⟩
    · rw [e, poll_frame]
      exact ⟨⟨rfl, rfl, rfl, rfl, rfl, rfl⟩, Or.inl rfl, hpacket⟩
  | setup =>
    obtain ⟨_, _, _, _, _, _, _, _, e, _⟩ := setupTick_frame s
    rw [txTick_setup s hp, e]
    exact ⟨⟨rfl, rfl, rfl, rfl, rfl, rfl⟩, Or.inl rfl, fun _ => ⟨⟨rfl, rfl, rfl⟩, nofun⟩⟩
  | fill =>
    obtain ⟨_, _, _, _, _, _, _, _, _, _, _, _, e, hphase⟩ := fillTick_frame s hp
    rw [txTick_fill s hp, e]
    exact ⟨⟨rfl, rfl, rfl, rfl, rfl, rfl⟩, Or.inl rfl, fun _ => ⟨⟨rfl, rfl, rfl⟩, by
      rcases hphase with ⟨rfl, _⟩ | ⟨rfl, _⟩ <;> nofun⟩⟩
  | waitSent =>
    obtain ⟨_, _, _, _, _, e, hphase, _⟩ := waitTick_frame s hp
    rw [txTick_waitSent s hp, e]
    exact ⟨⟨rfl, rfl, rfl, rfl, rfl, rfl⟩, Or.inl rfl, fun _ => ⟨⟨rfl, rfl, rfl⟩, by
      rcases hphase with rfl | rfl <;> nofun⟩⟩
  | restore =>
    have hcounter := restoreTick_counter s
    obtain ⟨_, _, _, _, _, _, _, _, _, _, e⟩ := restoreTick_frame s
    rw [txTick_restore s hp]
    rw [e] at hcounter ⊢
    exact ⟨⟨rfl, rfl, rfl, rfl, rfl, rfl⟩, hcounter, fun _ => ⟨⟨rfl, rfl, rfl⟩, nofun⟩⟩

theorem resume_kept (s : State) : SendKept s (resume s) :=
  resume_induction (fun s => (txTick_effect s).kept) (fun s _ _ h => (txTick_effect s).kept.trans h) s

/-- Settles O52: unless the edge is next, a step goes on with the SEND. -/
theorem nothingStartsDuringASend : Obligations.NothingStartsDuringASend := by
  intro s hbusy hedge
  have h := resume_kept s
  exact ⟨resume s, step_sending s hbusy hedge, h.moves, h.initialized, h.irqArmed, h.cfg, h.pl, h.st⟩

/-! ### What a step can do -/

/-- While a SEND is in progress, a step takes the edge or goes on with the SEND. -/
theorem step_busy {s t : State} (hbusy : s.txPhase ≠ .off) (h : step s = .next t) :
    (∃ rest, t = takeEdge (withMoves rest s)) ∨ t = resume s := by
  by_cases hedge : ∃ rest, fetch s = .run .irqEdge rest
  · obtain ⟨rest, hf⟩ := hedge
    rw [step_edge s rest hf] at h
    cases h
    exact Or.inl ⟨rest, rfl⟩
  · rw [step_sending s hbusy (fun rest hf => hedge ⟨rest, hf⟩)] at h
    cases h
    exact Or.inr rfl

/-- A step leaves the state, runs an operation taken from what is asked, or goes on with a SEND. -/
theorem step_cases {s t : State} (h : step s = .next t) :
    t = s ∨ (∃ i rest, Ran i (withMoves rest s) t) ∨ (s.txPhase ≠ .off ∧ t = resume s) := by
  by_cases hoff : s.txPhase = .off
  · rw [step_atRest s hoff] at h
    cases hf : fetch s with
    | idle =>
      rw [hf] at h
      cases h
      exact Or.inl rfl
    | refused r =>
      rw [hf] at h
      cases h
    | run i rest =>
      rw [hf] at h
      exact Or.inr (Or.inl ⟨i, rest, exec_ran h⟩)
  · rcases step_busy hoff h with ⟨rest, rfl⟩ | rfl
    · exact Or.inr (Or.inl ⟨.irqEdge, rest, .other (takeEdgeIf_traffic true _).unitEffect⟩)
    · exact Or.inr (Or.inr ⟨hoff, rfl⟩)

/-- What INIT moves. -/
theorem runInit_frame (s : State) : runInit s = { s with
    rxState := (runInit s).rxState, irqArmed := (runInit s).irqArmed, initialized := (runInit s).initialized,
    chipMode := (runInit s).chipMode, chipIn := (runInit s).chipIn, drawn := (runInit s).drawn,
    bus := (runInit s).bus, chipRegs := (runInit s).chipRegs, fifoOut := (runInit s).fifoOut,
    rxFlag := (runInit s).rxFlag, ret := (runInit s).ret, cond := (runInit s).cond } := by
  have hprobe := probe_traffic s.cfg.probeVals s
  have hmode := setMode_traffic .standby (probe s.cfg.probeVals s).2
  have hprog := programChip_traffic (setMode .standby (probe s.cfg.probeVals s).2).2
  unfold runInit
  split
  · split
    · rw [hprog.frame, hmode.frame, hprobe.frame]
      rfl
    · rw [hmode.frame, hprobe.frame]
      rfl
  · rw [hprobe.frame]
    rfl

theorem Ran.cfg {i : Instr} {s t : State} (h : Ran i s t) : t.cfg = s.cfg := by
  cases h with
  | init => rw [runInit_frame]
  | rxPoll => rw [respondPoll_frame, poll_frame]
  | send => exact (resume_kept _).cfg
  | other h => exact h.guarded.cfg

/-- Settles O57, by the three things a step can do. -/
theorem stepKeepsTheConfiguration : Obligations.StepKeepsTheConfiguration := by
  intro s t h
  rcases step_cases h with rfl | ⟨i, rest, hran⟩ | ⟨_, rfl⟩
  · rfl
  · exact hran.cfg
  · exact (resume_kept s).cfg

/-! ### The counter -/

theorem resume_counter (s : State) : CounterCourse s (resume s) := by
  refine resume_induction (fun s => (txTick_effect s).counter) (fun s t hgo h => ?_) s
  rcases (txTick_effect s).counter with hc | ⟨_, _, hoff, _⟩
  · exact .of_eq hc h
  · exact absurd hoff hgo

theorem Ran.counter {i : Instr} {s t : State} (h : Ran i s t) : CounterCourse s t := by
  cases h with
  | init => rw [runInit_frame]; exact Or.inl rfl
  | rxPoll => rw [respondPoll_frame, poll_frame]; exact Or.inl rfl
  | send fromPkt pl st => exact .of_eq rfl (resume_counter _)
  | other h => rw [h.frame]; exact Or.inl rfl

/-- Settles O48: a step that moves the counter ends a SEND_PKT. -/
theorem counterMovesOnlyOnASuccessfulSendPkt : Obligations.CounterMovesOnlyOnASuccessfulSendPkt := by
  intro s t h hmoved
  have hcourse : CounterCourse s t := by
    rcases step_cases h with rfl | ⟨i, rest, hran⟩ | ⟨_, rfl⟩
    · exact Or.inl rfl
    · exact .of_eq rfl hran.counter
    · exact resume_counter s
  exact hcourse.resolve_left hmoved

end Sys2Proof.Machine
end

section
/-! PROOFS. Which steps change the decoded packet (spec/10_state.md R22, spec/44_receive.md R190). -/

namespace Sys2Proof.Machine

/-- A publication in a wait is one in the same wait of a SEND with other side fields. -/
theorem PublishedInWait.withSide {limit : Nat} {s t : State} (h : PublishedInWait limit s t) (x : State) :
    PublishedInWait limit (withSide x s) t := by
  obtain ⟨n, w, v, hn, hpolls, hclear, hpoll, hret, hpacket⟩ := h
  obtain ⟨y, hpolls⟩ := channelPolls_withSide hpolls x
  obtain ⟨z, hpoll, hz⟩ := rxPoll_withSide y hpoll
  exact ⟨n, _, _, hn, hpolls, hclear, hpoll, hz.trans hret, hpacket⟩

/-- A publication later in the wait is one in the wait with the iteration before it. -/
theorem PublishedInWait.busy {limit : Nat} {s v t : State} (hclear : (nextClear s).clear = false)
    (hpoll : exec .rxPoll (afterClearDraw s) = .next v) (h : PublishedInWait limit v t) :
    PublishedInWait (limit + 1) s t := by
  obtain ⟨n, w, u, hn, hpolls, hrest⟩ := h
  exact ⟨n + 1, w, u, Nat.succ_lt_succ hn, .busy hclear hpoll hpolls, hrest⟩

/-- A poll that accepts in the wait's first iteration publishes in it. -/
theorem PublishedInWait.now {limit : Nat} {s v t : State} (hlimit : limit ≠ 0) (hclear : (nextClear s).clear = false)
    (hpoll : exec .rxPoll (afterClearDraw s) = .next v) (hret : v.ret = .bool true) (h : SamePacket v t) :
    PublishedInWait limit s t :=
  ⟨0, s, v, Nat.pos_of_ne_zero hlimit, .none s, hclear, hpoll, hret, h⟩

theorem SamePacket.symm {s t : State} (h : SamePacket s t) : SamePacket t s := ⟨h.1.symm, h.2.1.symm, h.2.2.symm⟩

theorem respondPoll_samePacket (e : PollEnd) (s : State) : SamePacket s (respondPoll e s) := by
  cases e <;> exact .refl s

/-- From an initialised `s`, `t` has the packet of `s`, or one published in the clear-channel wait that `s` is in. -/
def PacketCourse (s t : State) : Prop :=
  s.initialized = true → SamePacket s t ∨ (s.txPhase = .cca ∧ PublishedInWait s.job.ccaLeft s t)

/-- One iteration of the wait that makes a poll: the poll published, or what follows did, or nothing did. -/
theorem ccaTick_packetCourse {s t : State} (hp : s.txPhase = .cca) (hleft : s.job.ccaLeft ≠ 0)
    (hclear : (nextClear s).clear = false)
    (h : PacketCourse { (poll (afterClearDraw s)).2 with job := { s.job with ccaLeft := s.job.ccaLeft - 1 } } t) :
    PacketCourse s t := by
  intro hi
  have hframe := poll_frame (afterClearDraw s)
  have hpoll := rxPoll_of_initialized (afterClearDraw s) hi
  rcases h (by rw [hframe]; exact hi) with hsame | ⟨_, hpub⟩
  · rcases poll_packet (afterClearDraw s) with hkept | ⟨hacc, _⟩
    · exact Or.inl (hkept.trans hsame)
    · refine Or.inr ⟨hp, .now hleft hclear hpoll (by rw [hacc]; rfl) ?_⟩
      exact (respondPoll_samePacket _ _).symm.trans hsame
  · refine Or.inr ⟨hp, ?_⟩
    have hnext := hpub.withSide (respondPoll (poll (afterClearDraw s)).1 (poll (afterClearDraw s)).2)
    rw [show withSide _ _ = respondPoll (poll (afterClearDraw s)).1 (poll (afterClearDraw s)).2 by
      cases (poll (afterClearDraw s)).1 <;> rfl] at hnext
    have hbusy := hnext.busy hclear hpoll
    rwa [Nat.sub_add_cancel (Nat.pos_of_ne_zero hleft)] at hbusy

theorem txTick_packetCourse {s t : State} (h : PacketCourse (txTick s) t) : PacketCourse s t := by
  by_cases hp : s.txPhase = .cca
  · rw [txTick_cca s hp] at h
    rcases ccaTick_cases s with e | e | ⟨hleft, hclear, e⟩
    · rw [e] at h
      exact fun hi => Or.inl ((h hi).resolve_right (fun hpub => nomatch hpub.1))
    · rw [e] at h
      exact fun hi => Or.inl ((h hi).resolve_right (fun hpub => nomatch hpub.1))
    · rw [e] at h
      exact ccaTick_packetCourse hp hleft hclear h
  · have heffect := txTick_effect s
    obtain ⟨hsame, hphase⟩ := heffect.packet hp
    intro hi
    rcases h (heffect.kept.initialized.trans hi) with hlater | ⟨hcca, _⟩
    · exact Or.inl (hsame.trans hlater)
    · exact absurd hcca hphase

theorem resume_packetCourse (s : State) : PacketCourse s (resume s) :=
  resume_induction (fun s => txTick_packetCourse (fun _ => Or.inl (.refl (txTick s))))
    (fun _ _ _ h => txTick_packetCourse h) s

/-- Where an operation does not keep the decoded packet, it is an RX_POLL that returned true, or a SEND in whose wait a
poll published. -/
theorem Ran.packet {i : Instr} {s t : State} (h : Ran i s t) :
    SamePacket s t ∨ (i = .rxPoll ∧ t.ret = .bool true) ∨ (StartsSend i ∧ PublishedInWait s.cfg.ccaLimit s t) := by
  cases h with
  | init =>
    rw [runInit_frame]
    exact Or.inl (.refl s)
  | rxPoll hi =>
    rcases poll_packet s with hkept | ⟨hacc, _⟩
    · exact Or.inl (hkept.trans (respondPoll_samePacket _ _))
    · exact Or.inr (Or.inl ⟨hi, by rw [hacc]; rfl⟩)
  | send fromPkt pl st hsend hi _ =>
    rcases resume_packetCourse (startSend _ _ fromPkt { s with pl := pl, st := st }) hi with hkept | ⟨_, hpub⟩
    · exact Or.inl hkept
    · exact Or.inr (Or.inr ⟨hsend, hpub.withSide s⟩)
  | other h =>
    rw [h.frame]
    exact Or.inl (.refl s)

/-- Settles O38: the operations by `Ran.packet`, a SEND that goes on by `resume_packetCourse`. -/
theorem onlyAnAcceptedFrameChangesThePacket : Obligations.OnlyAnAcceptedFrameChangesThePacket := by
  refine ⟨fun i s t h hchanged => ?_, fun s t hbusy hi h hchanged => ?_⟩
  · exact (exec_ran h).packet.resolve_left (fun hsame => hsame.not_changed hchanged)
  · rcases step_busy hbusy h with ⟨rest, rfl⟩ | rfl
    · exact absurd hchanged (SamePacket.not_changed (s := s) (.refl s))
    · exact (resume_packetCourse s hi).resolve_left (fun hsame => hsame.not_changed hchanged)

end Sys2Proof.Machine
end

section
/-! PROOFS. The invariant: one lemma for each part of an operation, one for each iteration of a SEND, one for a step. -/

namespace Sys2Proof.Machine

/-! ### Operations -/

theorem ChipTraffic.inv {s t : State} (h : ChipTraffic s t) (hs : Inv s) : Inv t := by
  obtain ⟨_, _, hflag, hregs⟩ := h.guarded
  rw [h.frame]
  exact { hs with chipRegs := hregs hs.chipRegs, rxFlag := fun ht => (hflag ht).elim hs.rxFlag id }

theorem ChipTraffic.busy {s t : State} (h : ChipTraffic s t) (hp : s.txPhase ≠ .off) : t.txPhase ≠ .off := by
  rw [h.frame]
  exact hp

theorem setMode_inv (m : Mode) {s : State} (hs : Inv s) : Inv (setMode m s).2 :=
  (setMode_traffic m s).inv { hs with }

theorem respond_inv (r : Ret) {s : State} (hs : Inv s) : Inv (respond r s) := { hs with }

theorem raise_inv (c : Condition) {s : State} (hs : Inv s) : Inv (raise c s) := { hs with }

/-- A poll keeps the invariant. -/
theorem poll_inv {s : State} (hs : Inv s) : Inv (poll s).2 := by
  obtain ⟨_, _, hflag, hregs⟩ := poll_guarded s
  have hidle : (poll s).2.rxState = .idle := (poll_rxState s).elim (fun h => h.trans hs.rxState) id
  have hpacket : ((poll s).2.decType = .unknown ∧ (poll s).2.decLen = 0) ∨ TypedPacket (poll s).2 := by
    rcases poll_packet s with ⟨_, hlen, htype⟩ | ⟨_, htyped⟩
    · rw [TypedPacket, hlen, htype]
      exact hs.packet
    · exact Or.inr htyped
  rw [poll_frame]
  exact { hs with
    chipRegs := hregs hs.chipRegs, packet := hpacket, rxState := hidle
    rxFlag := fun ht => (hflag ht).elim hs.rxFlag id }

theorem armReceive_inv {s : State} (hs : Inv s) : Inv (armReceive s) :=
  { hs with rxState := rfl, armed := rfl, rxFlag := nofun, busy := fun hp => ⟨rfl, (hs.busy hp).2⟩ }

theorem runInit_inv {s : State} (hs : Inv s) : Inv (runInit s) := by
  have hprobe := (probe_traffic s.cfg.probeVals s).inv hs
  have hmode := setMode_inv .standby hprobe
  unfold runInit
  split
  · split
    · exact respond_inv _ (armReceive_inv ((programChip_traffic _).inv hmode))
    · exact raise_inv _ hmode
  · exact raise_inv _ hprobe

theorem UnitEffect.inv {s t : State} (h : UnitEffect s t) (hs : Inv s) : Inv t := by
  obtain ⟨_, _, hflag, hregs⟩ := h.guarded
  rw [h.frame]
  exact { hs with
    chipRegs := hregs hs.chipRegs, accN := h.accN hs.accN, rxFlag := fun ht => (hflag ht).elim hs.rxFlag id }

/-! ### A SEND in progress -/

theorem startSend_inv {payload : List Byte} {v : Nat} (fromPkt : Bool) {s : State} (hs : Inv s)
    (hi : s.initialized = true) (hr : sendInRange payload v = true) : Inv (startSend payload v fromPkt s) :=
  { hs with busy := fun _ => ⟨hi, hr⟩ }

/-- The frame of a SEND in range has at most 88 bits (R10, R212). -/
theorem totalBits_le_88 {payload : List Byte} {v : Nat} (h : sendInRange payload v = true) :
    totalBits payload.length v ≤ 88 := by
  obtain ⟨hpos, hlen, hv⟩ := sendInRange_iff.mp h
  have hle := totalBits_le hpos hv
  omega

/-- Where the phase goes within a SEND, the invariant stays. -/
theorem Inv.withPhase {s : State} (hs : Inv s) (hp : s.txPhase ≠ .off) (phase : TxPhase) :
    Inv { s with txPhase := phase } :=
  { hs with busy := fun _ => hs.busy hp }

theorem loadFrame_inv {s : State} (hs : Inv s) (hp : s.txPhase ≠ .off) : Inv (loadFrame s) :=
  { hs with
    accN := Nat.zero_le 7
    total := (Nat.mod_le _ _).trans (totalBits_le_88 (hs.busy hp).2)
    rep := Nat.zero_le _ }

theorem setupTick_inv {s : State} (hs : Inv s) (hp : s.txPhase ≠ .off) : Inv (setupTick s) := by
  have hmode := setMode_inv .standby hs
  have hphase : (setMode .standby s).2.txPhase ≠ .off := (setMode_traffic .standby s).busy hp
  unfold setupTick
  dsimp only
  generalize (setMode .standby s).2 = u at hmode hphase ⊢
  have hreg := regWr_traffic u.cfg.aLen u.cfg.lenUnbounded u
  have hloaded : Inv (loadFrame (regWr u.cfg.aLen u.cfg.lenUnbounded u)) :=
    loadFrame_inv (hreg.inv hmode) (hreg.busy hphase)
  have hphase : (loadFrame (regWr u.cfg.aLen u.cfg.lenUnbounded u)).txPhase ≠ .off := hreg.busy hphase
  generalize loadFrame (regWr u.cfg.aLen u.cfg.lenUnbounded u) = w at hloaded hphase ⊢
  have hfifo := fifoWr_traffic [w.cfg.preamble0, w.cfg.preamble1] w
  exact (hfifo.inv hloaded).withPhase (hfifo.busy hphase) .fill

/-- An iteration of the fill loop keeps the invariant: a pass, a check that writes nothing, the switch to Transmit, or
the end of the loop. -/
theorem fillTick_inv {s : State} (hs : Inv s) (hp : s.txPhase ≠ .off) : Inv (fillTick s) := by
  have hread := (flagRd_traffic .fifoLevel s).inv hs
  by_cases hr : s.rep.toNat < Config.repeatCount
  · cases hf : flagSet s.cfg .fifoLevel (nextAnswer s) with
    | false =>
      have hn := (packFrom_stream (frameBits s) s.acc s.accN hs.accN).2.2
      have hrep : (s.rep + 1).toNat ≤ Config.repeatCount := by
        rw [BitVec.toNat_add]
        exact (Nat.mod_le _ _).trans hr
      rw [flagRd_update] at hread
      rw [fillTick_pass s hr hf]
      exact { hread with accN := by dsimp only; omega, rep := hrep }
    | true =>
      cases ha : s.txActive with
      | true =>
        rw [fillTick_wait s hr hf ha]
        exact hread
      | false =>
        rw [fillTick_switch s hr hf ha]
        exact { setMode_inv .transmit hread with }
  · rw [fillTick_full s (Nat.le_antisymm hs.rep (Nat.le_of_not_lt hr))]
    exact hs.withPhase hp .waitSent

theorem waitTick_inv {s : State} (hs : Inv s) (hp : s.txPhase ≠ .off) : Inv (waitTick s) := by
  have hread := (flagRd_traffic .packetSent s).inv hs
  unfold waitTick
  split
  · exact hread.withPhase ((flagRd_traffic .packetSent s).busy hp) .restore
  · exact hread

theorem nextCounter_ne_zero (c : Byte) : nextCounter c ≠ 0 := by
  unfold nextCounter
  split
  · decide
  · bv_omega

theorem finishSend_inv {s : State} (hs : Inv s) : Inv (finishSend s) :=
  { hs with
    counter := by
      show (if s.job.fromPkt then nextCounter s.counter else s.counter) ≠ 0
      split
      · exact nextCounter_ne_zero _
      · exact hs.counter
    busy := fun h => absurd rfl h }

theorem snapshot_inv {s : State} (hs : Inv s) (hp : s.txPhase ≠ .off) : Inv (snapshot s) := by
  obtain ⟨_, hlen, _⟩ := sendInRange_iff.mp (hs.busy hp).2
  exact { hs with lastSent := by show 1 + s.job.payload.length ≤ 11; omega }

theorem restoreTick_inv {s : State} (hs : Inv s) (hp : s.txPhase ≠ .off) : Inv (restoreTick s) := by
  have hmode := setMode_inv .standby hs
  have hphase : (setMode .standby s).2.txPhase ≠ .off := (setMode_traffic .standby s).busy hp
  unfold restoreTick
  dsimp only
  generalize (setMode .standby s).2 = u at hmode hphase ⊢
  have hreg := regWr_traffic u.cfg.aLen u.cfg.lenDefault u
  exact finishSend_inv (snapshot_inv (hreg.inv hmode) (hreg.busy hphase))

theorem afterClearDraw_inv {s : State} (hs : Inv s) : Inv (afterClearDraw s) :=
  (takeEdgeIf_traffic (nextClear s).edge (popClear s)).inv { hs with }

theorem ccaTick_inv {s : State} (hs : Inv s) (hp : s.txPhase ≠ .off) : Inv (ccaTick s) := by
  have hdrawn := afterClearDraw_inv hs
  rcases ccaTick_cases s with e | e | ⟨_, _, e⟩
  · rw [e]
    exact hs.withPhase hp .setup
  · rw [e]
    exact hdrawn.withPhase hp .setup
  · have hpoll := poll_inv hdrawn
    have hkept : (poll (afterClearDraw s)).2.initialized = s.initialized := by
      rw [poll_frame]
      rfl
    rw [e]
    exact { hpoll with busy := fun _ => ⟨hkept.trans (hs.busy hp).1, (hs.busy hp).2⟩ }

theorem txTick_inv {s : State} (hs : Inv s) : Inv (txTick s) := by
  cases hp : s.txPhase with
  | off => rwa [txTick_off s hp]
  | cca => rw [txTick_cca s hp]; exact ccaTick_inv hs (by simp [hp])
  | setup => rw [txTick_setup s hp]; exact setupTick_inv hs (by simp [hp])
  | fill => rw [txTick_fill s hp]; exact fillTick_inv hs (by simp [hp])
  | waitSent => rw [txTick_waitSent s hp]; exact waitTick_inv hs (by simp [hp])
  | restore => rw [txTick_restore s hp]; exact restoreTick_inv hs (by simp [hp])

theorem resume_inv {s : State} (hs : Inv s) : Inv (resume s) :=
  resume_induction (R := fun s t => Inv s → Inv t) (fun _ => txTick_inv) (fun _ _ _ h hs => h (txTick_inv hs)) s hs

/-- Every operation keeps the invariant. -/
theorem Ran.inv {i : Instr} {s t : State} (h : Ran i s t) (hs : Inv s) : Inv t := by
  cases h with
  | init => exact runInit_inv hs
  | rxPoll =>
    rw [respondPoll_frame]
    exact { poll_inv hs with }
  | send fromPkt pl st _ hi hr => exact resume_inv (startSend_inv fromPkt { hs with } hi hr)
  | other h => exact h.inv hs

/-- Settles O56, by the three things a step can do. -/
theorem stepKeepsTheInvariant : Obligations.StepKeepsTheInvariant := by
  intro s t hs h
  rcases step_cases h with rfl | ⟨i, rest, hran⟩ | ⟨_, rfl⟩
  · exact hs
  · exact hran.inv { hs with }
  · exact resume_inv hs

end Sys2Proof.Machine
end

section
/-! PROOFS. An edge of the receive signal, asked next (spec/20_memory.md R75, spec/60_exceptions.md R269). -/

namespace Sys2Proof.Machine

/-- The operation code of IRQ_EDGE (R99), on its own, in the encoding of the signal's port. -/
theorem decode_signalEdge (rwWrite : Bool) : decode (portFormat .signal) rwWrite [0x1F] = .ok (.irqEdge, []) := by
  show decodeOperation [0x1F] = _
  decide

theorem fetch_signalEdge {s : State} {ms : List Move} (hm : s.moves = ⟨.signal, [0x1F]⟩ :: ms) :
    fetch s = .run .irqEdge ms :=
  fetch_run hm (decode_signalEdge s.cfg.rwWrite) rfl

/-- Settles O53: the edge is what is fetched, and in every phase a step that fetches it runs the handler alone. -/
theorem edgeDuringASendOnlySetsTheFlag : Obligations.EdgeDuringASendOnlySetsTheFlag := by
  intro s ms _ hm
  calc step s = .next (takeEdge (withMoves ms s)) := step_edge s ms (fetch_signalEdge hm)
    _ = .next { s with rxFlag := s.rxFlag || s.irqArmed, moves := ms } := by
      simp only [takeEdge, takeEdgeIf, withMoves, Bool.true_and]

end Sys2Proof.Machine
end

section
/-! PROOFS. The encodings (spec/30_encoding.md R95, R96, R98, R99, R102): the decoder against the encoder, the words of
the opcode table, the bus address byte, the bit count of a frame, and what the host cannot ask for. -/

namespace Sys2Proof

/-! ### The ranges of the counted operands -/

theorem destuffInRange_iff {input : List Byte} : destuffInRange input = true ↔ 1 ≤ input.length ∧ input.length ≤ 11 := by
  simp [destuffInRange]

theorem stuffInRange_iff {input : List Byte} : stuffInRange input = true ↔ 1 ≤ input.length ∧ input.length ≤ 10 := by
  simp [stuffInRange]

theorem fifoWr_wf_iff {bytes : List Byte} :
    (Instr.fifoWr bytes).wf = true ↔ 1 ≤ bytes.length ∧ bytes.length ≤ countMax + 1 := by
  simp [Instr.wf]

theorem fifoRd_wf_iff {n : Nat} : (Instr.fifoRd n).wf = true ↔ 1 ≤ n ∧ n ≤ countMax + 1 := by
  simp [Instr.wf]

/-! ### Operand fields: each reader gives back what its writer wrote -/

theorem takeBytes_append (bytes rest : List Byte) : takeBytes bytes.length (bytes ++ rest) = some (bytes, rest) := by
  rw [takeBytes, if_pos (by simp), List.take_left, List.drop_left]

/-- A number up to 255 survives the count byte. -/
theorem toNat_countByte {n : Nat} (h : n ≤ countMax) : (BitVec.ofNat 8 n).toNat = n := by
  unfold countMax at h
  rw [BitVec.toNat_ofNat]
  omega

theorem counted_encodeCounted {bytes : List Byte} (rest : List Byte) (h : bytes.length ≤ countMax) :
    counted (encodeCounted bytes ++ rest) = some (bytes, rest) := by
  rw [encodeCounted, List.cons_append, counted, toNat_countByte h, takeBytes_append]

theorem countedFromOne_encodeCountedFromOne {bytes : List Byte} (rest : List Byte) (h1 : 1 ≤ bytes.length)
    (h : bytes.length ≤ countMax + 1) :
    countedFromOne (encodeCountedFromOne bytes ++ rest) = some (bytes, rest) := by
  rw [encodeCountedFromOne, List.cons_append, countedFromOne, toNat_countByte (by omega), Nat.sub_add_cancel h1,
    takeBytes_append]

@[simp] theorem devAddrOf_parts (a : DevAddr) : devAddrOf (addrHi a) (addrMid a) (addrLo a) = a := by
  unfold devAddrOf addrHi addrMid addrLo
  rw [BitVec.extractLsb'_append_extractLsb'_eq_extractLsb' (start₂ := 16) (start₁ := 8) rfl,
    BitVec.extractLsb'_append_extractLsb'_eq_extractLsb' (start₂ := 8) (start₁ := 0) rfl, BitVec.extractLsb'_eq_self]

@[simp] theorem hiByte_append_loByte (c : Half) : hiByte c ++ loByte c = c := by
  unfold hiByte loByte
  rw [BitVec.extractLsb'_append_extractLsb'_eq_extractLsb' (start₂ := 8) (start₁ := 0) rfl, BitVec.extractLsb'_eq_self]

/-- The low seven bits of a bit and an address are the address. -/
theorem extractLsb'_cons_addr (b : Bool) (a : ChipAddr) : (BitVec.cons b a).extractLsb' 0 7 = a := by
  simp

@[simp] theorem chipAddrOf_chipAddrByte (a : ChipAddr) : chipAddrOf (chipAddrByte a) = some a := by
  rw [chipAddrOf, chipAddrByte, BitVec.msb_cons, extractLsb'_cons_addr]
  rfl

@[simp] theorem pktTypeOf_pktTypeByte (t : PktType) : pktTypeOf (pktTypeByte t) = some t := by
  cases t <;> rfl

@[simp] theorem deviceTypeOf_deviceTypeByte (t : DeviceType) : deviceTypeOf (deviceTypeByte t) = t := by
  cases t <;> rfl

@[simp] theorem modeOf_modeByte (m : Mode) : modeOf (modeByte m) = some m := by
  cases m <;> rfl

@[simp] theorem chipFlagOf_chipFlagByte (f : ChipFlag) : chipFlagOf (chipFlagByte f) = some f := by
  cases f <;> rfl

/-! ### Operand forms: each decoder gives back the operation whose operand bytes it reads -/

theorem decodeSend_encoded {payload : List Byte} {v : Nat} (op : Byte) (rest : List Byte)
    (h : sendInRange payload v = true) :
    decodeSend op (encodeCountedFromOne payload ++ [BitVec.ofNat 8 v] ++ rest) = .ok (.send payload v, rest) := by
  obtain ⟨hpos, hlen, hv⟩ := Machine.sendInRange_iff.mp h
  rw [decodeSend, List.append_assoc,
    countedFromOne_encodeCountedFromOne _ hpos (by unfold countMax; omega), List.singleton_append]
  dsimp only
  rw [toNat_countByte (by unfold countMax; omega)]

theorem decodeSendPkt_encoded (op : Byte) (t : DeviceType) (a : DevAddr) (command : Byte) {extra : List Byte}
    (rest : List Byte) (h : extra.length ≤ countMax) :
    decodeSendPkt op (deviceTypeByte t :: addrHi a :: addrMid a :: addrLo a :: command ::
      (encodeCounted extra ++ rest)) = .ok (.sendPkt t a command extra, rest) := by
  rw [decodeSendPkt, counted_encodeCounted rest h]
  simp only [deviceTypeOf_deviceTypeByte, devAddrOf_parts]

theorem decodeAssemble_encoded (op : Byte) (t : PktType) (ctr : Byte) (a : DevAddr) (command : Byte)
    {extra : List Byte} (rest : List Byte) (h : extra.length ≤ countMax) :
    decodeAssemble op (pktTypeByte t :: ctr :: addrHi a :: addrMid a :: addrLo a :: command ::
      (encodeCounted extra ++ rest)) = .ok (.assemble t ctr a command extra, rest) := by
  rw [decodeAssemble, counted_encodeCounted rest h, pktTypeOf_pktTypeByte]
  simp only [devAddrOf_parts]

theorem decodePktCrc_encoded (op : Byte) {data : List Byte} (t : PktType) (rest : List Byte)
    (h : data.length ≤ countMax) :
    decodePktCrc op (pktTypeByte t :: (encodeCounted data ++ rest)) = .ok (.pktCrc data t, rest) := by
  rw [decodePktCrc, counted_encodeCounted rest h, pktTypeOf_pktTypeByte]

theorem decodeCrcStep_encoded (op : Byte) (crc : Half) (c : Byte) (rest : List Byte) :
    decodeCrcStep op (hiByte crc :: loByte crc :: c :: rest) = .ok (.crcStep crc c, rest) := by
  rw [decodeCrcStep, hiByte_append_loByte]

theorem decodeBytes_counted (op : Byte) {bytes : List Byte} (rest : List Byte) (make : List Byte → Instr)
    (h : bytes.length ≤ countMax) :
    decodeBytes op (counted (encodeCounted bytes ++ rest)) make = .ok (make bytes, rest) := by
  rw [counted_encodeCounted rest h, decodeBytes]

theorem decodeBytes_countedFromOne (op : Byte) {bytes : List Byte} (rest : List Byte) (make : List Byte → Instr)
    (h1 : 1 ≤ bytes.length) (h : bytes.length ≤ countMax + 1) :
    decodeBytes op (countedFromOne (encodeCountedFromOne bytes ++ rest)) make = .ok (make bytes, rest) := by
  rw [countedFromOne_encodeCountedFromOne rest h1 h, decodeBytes]

theorem decodeByte_some {op b : Byte} (rest : List Byte) {read : Byte → Option Instr} {i : Instr}
    (h : read b = some i) : decodeByte op (b :: rest) read = .ok (i, rest) := by
  rw [decodeByte, h]

/-- An operand byte that `field` reads, the operation made of what it reads. -/
theorem decodeByte_map {α : Type} {field : Byte → Option α} {b : Byte} {x : α} (op : Byte) (rest : List Byte)
    (make : α → Instr) (h : field b = some x) :
    decodeByte op (b :: rest) (fun b => (field b).map make) = .ok (make x, rest) :=
  decodeByte_some rest (by rw [h, Option.map_some])

theorem decodeRegWr_encoded (op : Byte) (a : ChipAddr) (val : Byte) (rest : List Byte) :
    decodeRegWr op (chipAddrByte a :: val :: rest) = .ok (.regWr a val, rest) := by
  rw [decodeRegWr, chipAddrOf_chipAddrByte]

theorem decodeFifoRd_encoded (op : Byte) {n : Nat} (rest : List Byte) (h1 : 1 ≤ n) (h : n ≤ countMax + 1) :
    decodeByte op (BitVec.ofNat 8 (n - 1) :: rest) (fun b => some (.fifoRd (b.toNat + 1))) = .ok (.fifoRd n, rest) :=
  decodeByte_some rest (by rw [toNat_countByte (by omega), Nat.sub_add_cancel h1])

/-- The bit above the address says which of the two transactions the byte opens, whatever RW_WRITE is (R96). -/
theorem decodeBusByte_busAddrByte (rwWrite write : Bool) (a : ChipAddr) (rest : List Byte) :
    decodeBusByte rwWrite (busAddrByte rwWrite write a :: rest) =
      .ok (if write then .busWrite a else .busRead a, rest) := by
  rw [decodeBusByte, busAddrByte, BitVec.msb_cons, extractLsb'_cons_addr]
  cases write <;> simp

/-! ### The whole encoding -/

/-- Settles O1: the operation code selects the operand form, and each form gives its operation back. -/
theorem decodeInvertsEncode : Obligations.DecodeInvertsEncode := by
  intro rwWrite i rest h
  cases i with
  | init | rxPoll | rxGet | lastGet | txPass | irqEdge => rfl
  | send payload v => exact decodeSend_encoded 0x03 rest h
  | sendPkt t a command extra => exact decodeSendPkt_encoded 0x04 t a command rest (of_decide_eq_true h)
  | destuff input =>
    obtain ⟨hpos, hlen⟩ := destuffInRange_iff.mp h
    exact decodeBytes_countedFromOne 0x08 rest .destuff hpos (by unfold countMax; omega)
  | stuff input =>
    obtain ⟨hpos, hlen⟩ := stuffInRange_iff.mp h
    exact decodeBytes_countedFromOne 0x09 rest .stuff hpos (by unfold countMax; omega)
  | crcStep crc c => exact decodeCrcStep_encoded 0x0A crc c rest
  | pktCrc data t => exact decodePktCrc_encoded 0x0B t rest (of_decide_eq_true h)
  | rev8 b | classify b => rfl
  | revBuf bytes => exact decodeBytes_counted 0x0D rest .revBuf (of_decide_eq_true h)
  | assemble t ctr a command extra => exact decodeAssemble_encoded 0x0F t ctr a command rest (of_decide_eq_true h)
  | regWr a val => exact decodeRegWr_encoded 0x18 a val rest
  | regRd a => exact decodeByte_map 0x19 rest .regRd (chipAddrOf_chipAddrByte a)
  | fifoWr bytes =>
    obtain ⟨hpos, hlen⟩ := fifoWr_wf_iff.mp h
    exact decodeBytes_countedFromOne 0x1A rest .fifoWr hpos hlen
  | fifoRd n =>
    obtain ⟨hpos, hlen⟩ := fifoRd_wf_iff.mp h
    exact decodeFifoRd_encoded 0x1B rest hpos hlen
  | setMode m => exact decodeByte_map 0x1C rest .setMode (modeOf_modeByte m)
  | flagRd f => exact decodeByte_map 0x1D rest .flagRd (chipFlagOf_chipFlagByte f)
  | busWrite a => exact decodeBusByte_busAddrByte rwWrite true a rest
  | busRead a => exact decodeBusByte_busAddrByte rwWrite false a rest

/-! ### The words of the opcode table -/

/-- A table word that begins with an operation's encoding, in the format the word is read in, is that operation. -/
theorem decodeTableWord_of_encode {nbits w : Nat} {i : Instr} (rest : List Byte) (hwf : i.wf = true)
    (hformat : wordFormat w = i.format) (hbytes : wordBytes nbits w = encode Config.rwWrite i ++ rest) :
    decodeTableWord nbits w = some i := by
  rw [decodeTableWord, hformat, hbytes, decodeInvertsEncode Config.rwWrite i rest hwf]

/-- Settles O2: each word begins with its operation's encoding, and 0x051C names no mode. -/
theorem tableWordsDecode : Obligations.TableWordsDecode :=
  ⟨decodeTableWord_of_encode _ rfl rfl rfl, decodeTableWord_of_encode _ rfl rfl rfl,
    decodeTableWord_of_encode _ rfl rfl rfl, decodeTableWord_of_encode _ rfl rfl rfl,
    decodeTableWord_of_encode _ rfl rfl rfl, rfl, decodeTableWord_of_encode _ rfl rfl rfl,
    decodeTableWord_of_encode _ rfl rfl rfl, decodeTableWord_of_encode _ rfl rfl rfl,
    decodeTableWord_of_encode _ rfl rfl rfl⟩

/-! ### Illegal host encodings -/

/-- The assigned operation codes of R99. -/
def operationCodes : List Byte :=
  [0x00, 0x01, 0x02, 0x03, 0x04, 0x05, 0x08, 0x09, 0x0A, 0x0B, 0x0C, 0x0D, 0x0E, 0x0F, 0x10, 0x18, 0x19, 0x1A, 0x1B,
    0x1C, 0x1D, 0x1F]

/-- A byte that is no assigned code is refused whatever comes after it (R102). -/
theorem decodeOperation_unassigned {op : Byte} (rest : List Byte) (h : op ∉ operationCodes) :
    decodeOperation (op :: rest) = .error (.unassigned op) := by
  simp only [operationCodes, List.mem_cons, List.not_mem_nil, or_false, not_or] at h
  simp only [decodeOperation, h, if_false]

namespace Machine

/-- SEND outside R211's ranges is refused, before INIT or after it (R102). -/
theorem execSend_outOfRange {payload : List Byte} {v : Nat} (s : State) (h : sendInRange payload v = false) :
    ∃ r, execSend payload v s = .refused r := by
  unfold execSend
  rw [h]
  split
  · exact ⟨_, rfl⟩
  · exact ⟨_, rfl⟩

theorem sendInRange_eq_false {payload : List Byte} {v : Nat} (h : v > 8 ∨ payload.length = 0 ∨ payload.length > 10) :
    sendInRange payload v = false := by
  rw [← Bool.not_eq_true, sendInRange_iff]
  omega

/-- Settles O3: the type check comes first in SEND_PKT, the range check refuses in SEND, and no unassigned code is among
`operationCodes`. -/
theorem illegalHostEncodingsHaveNoEffect : Obligations.IllegalHostEncodingsHaveNoEffect := by
  refine ⟨fun a c extra s => rfl, fun p v s h => execSend_outOfRange s (sendInRange_eq_false h), ?_⟩
  have hfree : ∀ op ∈ ([0x06, 0x07, 0x11, 0x12, 0x13, 0x14, 0x15, 0x16, 0x17, 0x1E] : List Byte),
      op ∉ operationCodes := by decide
  exact fun op hop rest => decodeOperation_unassigned rest (hfree op hop)

/-! ### The bus address byte -/

theorem busAddrByte_selectBit (rwWrite write : Bool) (a : ChipAddr) :
    (busAddrByte rwWrite write a).getLsbD 7 = if write then rwWrite else !rwWrite := by
  rw [busAddrByte, BitVec.getLsbD_cons, if_pos rfl]

theorem busAddrByte_addressBit (rwWrite write : Bool) (a : ChipAddr) {i : Nat} (h : i < 7) :
    (busAddrByte rwWrite write a).getLsbD i = a.getLsbD i := by
  rw [busAddrByte, BitVec.getLsbD_cons, if_neg (Nat.ne_of_lt h)]

/-- Settles O4: the bytes that go out are `busAddrByte`'s, whose bits are said above. -/
theorem busAddressByteFields : Obligations.BusAddressByteFields := by
  intro a s
  exact ⟨busAddrByte s.cfg.rwWrite true a, busAddrByte s.cfg.rwWrite false a, rfl, rfl,
    busAddrByte_selectBit _ true a, busAddrByte_selectBit _ false a,
    fun i h => ⟨busAddrByte_addressBit _ true a h, busAddrByte_addressBit _ false a h⟩⟩

/-! ### The bit count of a frame -/

theorem totalBits_stuffedSize (n : Nat) {ins : Nat} (h : ins ≤ 8) :
    totalBits (stuffedSize n ins).1 (stuffedSize n ins).2 = 8 + 8 * n + ins := by
  unfold stuffedSize
  split
  · next h0 => simp [totalBits, h0]
  · next h0 =>
    simp only [totalBits, Nat.add_sub_cancel]
    split <;> omega

/-- Settles O13: with no insertion every byte is whole; else the last byte holds the inserted bits, all of it at eight. -/
theorem frameBitCount : Obligations.FrameBitCount :=
  fun n _ h => ⟨totalBits_stuffedSize n h, rfl⟩

/-! ### What the host cannot ask for -/

theorem isHostCommand_iff (i : Instr) : isHostCommand i = true ↔
    i = .init ∨ i = .rxPoll ∨ i = .rxGet ∨ (∃ p v, i = .send p v) ∨ (∃ type a c extra, i = .sendPkt type a c extra) ∨
      i = .lastGet := by
  cases i <;> simp [isHostCommand]

theorem fetch_notIssuable {s : State} {port : Port} {bytes rest : List Byte} {ms : List Move} {i : Instr}
    (hm : s.moves = ⟨port, bytes⟩ :: ms) (hd : decode (portFormat port) s.cfg.rwWrite bytes = .ok (i, rest))
    (ha : portAdmits port i = false) : fetch s = .refused .notIssuable := by
  unfold fetch
  simp only [hm, hd, ha, Bool.false_eq_true, if_false]

/-- Settles O51: the host's port admits the six host commands only. -/
theorem hostIssuesOnlyHostCommands : Obligations.HostIssuesOnlyHostCommands := by
  intro s bytes rest ms i hoff hm hd hnot
  obtain ⟨hinit, hpoll, hget, _, _, hlast⟩ := hnot [] 0 .unknown 0 0 []
  have hhost : portAdmits .host i = false := by
    rw [portAdmits, ← Bool.not_eq_true, isHostCommand_iff]
    rintro (h | h | h | ⟨p, v, h⟩ | ⟨type, a, c, extra, h⟩ | h)
    · exact hinit h
    · exact hpoll h
    · exact hget h
    · obtain ⟨_, _, _, hsend, _⟩ := hnot p v .unknown 0 0 []
      exact hsend h
    · obtain ⟨_, _, _, _, hpkt, _⟩ := hnot [] 0 type a c extra
      exact hpkt h
    · exact hlast h
  rw [step_atRest s hoff, fetch_notIssuable hm hd hhost]

end Machine

end Sys2Proof
end

section
/-! PROOFS. The bits SEND queues in the chip's FIFO (spec/30_encoding.md R97, spec/45_transmit.md R216, R217). -/

namespace Sys2Proof.Machine

/-! ### The stream, bit by bit -/

/-- Copies of a list laid end to end, read at an index. -/
theorem getElem?_repeated {α : Type} (l : List α) (n : Nat) {q : Nat} (h : q < n * l.length) :
    (List.replicate n l).flatten[q]? = l[q % l.length]? := by
  induction n generalizing q with
  | zero => omega
  | succ n ih =>
    rw [List.replicate_succ, List.flatten_cons, List.getElem?_append]
    split
    · next hq => rw [Nat.mod_eq_of_lt hq]
    · next hq =>
      rw [Nat.succ_mul] at h
      rw [ih (by omega), ← Nat.mod_eq_sub_mod (by omega)]

theorem totalBits_pos (len v : Nat) : 0 < totalBits len v := by
  unfold totalBits
  split <;> omega

/-- Only whole bytes are queued: what is left over stays in the packer (D9). -/
theorem length_sendStream {payload : List Byte} {v : Nat} (h1 : 1 ≤ payload.length) (hv : v ≤ 8) :
    (sendStream payload v).length = 330 * totalBits payload.length v / 8 := by
  rw [sendStream, length_packBits, length_repeated, length_repetitionBits payload h1 hv, Config.repeatCount]

/-- Bit `q` of the stream is bit `q` modulo `total` of the frame (R216). -/
theorem getElem?_bits_sendStream {payload : List Byte} {v q : Nat} (h1 : 1 ≤ payload.length) (hv : v ≤ 8)
    (hq : q < 8 * (sendStream payload v).length) :
    (bits (sendStream payload v))[q]? = (bits (Config.sync :: payload))[q % totalBits payload.length v]? := by
  have hrep := length_repetitionBits payload h1 hv
  rw [sendStream, length_packBits] at hq
  calc (bits (sendStream payload v))[q]?
      = (List.replicate Config.repeatCount (repetitionBits payload v)).flatten[q]? := by
        rw [sendStream, bits_packBits, List.getElem?_take_of_lt hq]
    _ = (repetitionBits payload v)[q % totalBits payload.length v]? := by
        rw [length_repeated] at hq
        rw [getElem?_repeated _ _ (by omega), hrep]
    _ = (bits (Config.sync :: payload))[q % totalBits payload.length v]? := by
        rw [repetitionBits, List.getElem?_take_of_lt (Nat.mod_lt q (totalBits_pos _ _))]

/-! ### SEND from its start -/

theorem execSend_inRange {payload : List Byte} {v : Nat} {s : State} (hi : s.initialized = true)
    (hr : sendInRange payload v = true) : execSend payload v s = .next (resume (startSend payload v false s)) := by
  rw [execSend, if_pos hi, if_pos hr]

/-- A SEND that starts waits for a clear channel, with CCA_LIMIT iterations to go (R213). -/
theorem startSend_waiting (payload : List Byte) (v : Nat) (fromPkt : Bool) (s : State) :
    startSend payload v fromPkt s = waiting (startSend payload v fromPkt s) s.cfg.ccaLimit s := rfl

/-- A SEND from its start, its clear-channel wait ending in `u`: past the wait it is the SEND that sets up in `u`. -/
theorem startSend_setsUp {s u : State} (payload : List Byte) (v : Nat) (fromPkt : Bool)
    (hw : ChannelWait s.cfg.ccaLimit s u) (hu : u.chipIn ≠ []) :
    ∃ left, resume (startSend payload v fromPkt s) =
      resume (settingUp (startSend payload v fromPkt s) left u) := by
  rw [startSend_waiting]
  exact waiting_ends hw _ hu

theorem SendCourse.answers_ne_nil (c : SendCourse) : c.answers ≠ [] := by
  simp [SendCourse.answers]

/-- What a SEND that completes has queued since its clear-channel wait: the preamble and the stream. -/
theorem resume_startSend_fifoOut {s u : State} {payload : List Byte} {v : Nat} {c : SendCourse}
    {rest : List Config.ChipAnswer} (fromPkt : Bool) (h1 : 1 ≤ payload.length) (h10 : payload.length ≤ 10) (hv : v ≤ 8)
    (hw : ChannelWait s.cfg.ccaLimit s u) (hok : c.Ok s.cfg) (hc : u.chipIn = c.answers ++ rest)
    (hL : s.cfg.aFifo ≠ s.cfg.aLen) (hM : s.cfg.aFifo ≠ s.cfg.aMode) :
    (resume (startSend payload v fromPkt s)).fifoOut =
      u.fifoOut ++ [s.cfg.preamble0, s.cfg.preamble1] ++ sendStream payload v := by
  obtain ⟨hcfg, _⟩ := channelWait_frame hw
  obtain ⟨left, hsets⟩ := startSend_setsUp payload v fromPkt hw (by simp [hc, c.answers_ne_nil])
  rw [← hcfg] at hok hL hM ⊢
  obtain ⟨acc, regs, fifo, hend, _, _, hfifo⟩ :=
    send_course c (settingUp (startSend payload v fromPkt s) left u) rest hok rfl h1 h10 hv hc
  rw [hsets, hend]
  exact hfifo hL hM

/-- Settles O41: the FIFO took the stream of `resume_startSend_fifoOut`, whose length and bits are said above. -/
theorem sendStreamIsTheRepeatedFrame : Obligations.SendStreamIsTheRepeatedFrame := by
  intro s u t payload v c rest hi h1 h10 hv hw hok hc hL hM ht
  rw [show exec (.send payload v) s = execSend payload v s from rfl,
    execSend_inRange hi (sendInRange_iff.mpr ⟨h1, h10, hv⟩)] at ht
  cases ht
  exact ⟨sendStream payload v, resume_startSend_fifoOut false h1 h10 hv hw hok hc hL hM, length_sendStream h1 hv,
    fun q hq => getElem?_bits_sendStream h1 hv hq⟩

end Sys2Proof.Machine
end

section
/-! PROOFS. The chip I/O primitives (spec/40_chip_io.md R121 to R126) and INIT (R129, spec/60_exceptions.md R261). -/

namespace Sys2Proof.Machine

/-! ### Registers, flags and the FIFO -/

/-- Settles O20: one transaction; at A_FIFO the byte joins the FIFO, elsewhere one register is written. -/
theorem regWrWritesOneRegister : Obligations.RegWrWritesOneRegister := by
  intro a v s
  refine ⟨(regWr a v s).chipRegs, (regWr a v s).fifoOut, ?_, ?_⟩
  · change execRegWr a v s = _
    rw [execRegWr, regWr_state]
    rfl
  · split
    · next h => simp [regWr_state, h]
    · next h =>
      exact ⟨by simp [regWr_state, h], regWr_read a v s h,
        fun b hb => regWr_regsKept (List.mem_singleton_self a) v s b (by simpa using hb)⟩

/-- Settles O21: a register read is one draw. -/
theorem regRdReturnsTheDraw : Obligations.RegRdReturnsTheDraw := by
  intro a s
  change execRegRd a s = _
  rw [execRegRd, regRd_state, regRd_value]
  rfl

theorem flagBit_eq_decide (loc : Config.FlagLoc) (v : Byte) : flagBit loc v = decide (v &&& loc.mask ≠ 0) :=
  Bool.eq_iff_iff.mpr (by simp [flagBit])

/-- Settles O22: the read of O21 at the flag's address, its byte tested under the flag's mask. -/
theorem flagRdTestsTheMask : Obligations.FlagRdTestsTheMask := by
  intro f s
  refine ⟨?_, by cases f <;> rfl⟩
  change execFlagRd f s = _
  rw [execFlagRd, flagRd_update, flagRd_value, flagSet, flagBit_eq_decide]
  rfl

/-- Settles O23: one transaction at the FIFO's address; the empty list is refused. -/
theorem fifoWrQueuesItsBytes : Obligations.FifoWrQueuesItsBytes := by
  refine fun bytes s => ⟨fun h => ?_, fun h => if_pos h⟩
  change execFifoWr bytes s = _
  rw [execFifoWr, if_neg h, fifoWr_state]
  rfl

theorem execFifoRd_pos {n : Nat} (h : 1 ≤ n) (s : State) :
    execFifoRd n s = .next (respond (.bytes (fifoRd n s).1) (fifoRd n s).2) := if_neg (by omega)

/-- FIFO_RD where the state records as many answers as are read. -/
theorem fifoRd_recorded {n : Nat} {s : State} (h : n ≤ s.chipIn.length) :
    fifoRd n s = ((s.chipIn.take n).map (fun a => a.byte), { s with
      chipIn := s.chipIn.drop n, drawn := s.drawn + n,
      bus := s.bus ++ .out (busAddrByte s.cfg.rwWrite false s.cfg.aFifo) :: (s.chipIn.take n).map (fun a => .inp a.byte),
      rxFlag := s.rxFlag || ((s.chipIn.take n).any (fun a => a.edge) && s.irqArmed) }) := by
  rw [fifoRd, clockInMany_recorded n (busAddr false s.cfg.aFifo s) h]
  simp [busAddr, onBus]

/-- Settles O24: recorded answers by `fifoRd_recorded`, any others by `fifoRd_bytes`; no byte is refused. -/
theorem fifoRdReturnsTheNextBytes : Obligations.FifoRdReturnsTheNextBytes := by
  refine fun n s => ⟨fun hpos hrecorded => ?_, fun hpos => ?_, fun h => if_pos h⟩
  · change execFifoRd n s = _
    rw [execFifoRd_pos hpos, fifoRd_recorded hrecorded]
    rfl
  · obtain ⟨answers, _, hbytes, hlen, hbus⟩ := fifoRd_bytes n s
    obtain ⟨hregs, hfifo⟩ := fifoRd_chipSide n s
    rw [← hbytes] at hbus
    have hlength : (fifoRd n s).1.length = n := by rw [hbytes, answerBytes, List.length_map, hlen]
    exact ⟨(fifoRd n s).1, _, execFifoRd_pos hpos s, hlength, rfl, hbus, (fifoRd_traffic n s).respond _, hregs, hfifo⟩

/-! ### SET_MODE -/

/-- SET_MODE's polls, counted as R125 counts them. -/
theorem modePolls_answerBytes {cfg : Config.Params} {polls : List Config.ChipAnswer} {ready : Bool}
    (hpos : 1 ≤ polls.length) (hbound : polls.length ≤ cfg.modeReadyTimeout)
    (hnotYet : ∀ a ∈ polls.dropLast, flagSet cfg .modeReady a = false)
    (hlast : ∀ a, polls.getLast? = some a → flagSet cfg .modeReady a = ready)
    (htimeout : ready = false → polls.length = cfg.modeReadyTimeout) : ModePolls cfg (answerBytes polls) ready := by
  have hlen : (answerBytes polls).length = polls.length := List.length_map _
  refine ⟨?_, ?_, ?_, by omega, fun h => by have := htimeout h; omega⟩
  · exact List.length_pos_iff.mp (by omega)
  · intro b hb
    rw [answerBytes, ← List.map_dropLast] at hb
    obtain ⟨a, ha, rfl⟩ := List.mem_map.mp hb
    exact hnotYet a ha
  · intro b hb
    rw [answerBytes, List.getLast?_map] at hb
    obtain ⟨a, ha, rfl⟩ := Option.map_eq_some_iff.mp hb
    exact hlast a ha

/-- Settles O25: the wait on recorded polls is `setMode_recorded`. -/
theorem setModePollsModeReady : Obligations.SetModePollsModeReady := by
  refine ⟨fun m s polls rest ready hin hpos hbound hnotYet hlast htimeout => ?_, fun m cfg => by cases m <;> rfl⟩
  have hmode := setMode_recorded m s polls rest ready hin (modePolls_answerBytes hpos hbound hnotYet hlast htimeout)
  change execSetMode m s = _
  rw [execSetMode, hmode]
  simp [respond, setModeWire, answerBytes, List.flatMap_map]

/-- Settles O26: SET_MODE is chip traffic in the new mode, and its one write is the mode register's. -/
theorem setModeAlwaysCompletes : Obligations.SetModeAlwaysCompletes := fun m s =>
  ⟨(setMode m s).1, _, rfl, (setMode_traffic m s).respond _, setMode_regsKept m s, setMode_writes m s⟩

/-! ### What chip traffic keeps, and in which mode -/

theorem ChipTraffic.initialized {s t : State} (h : ChipTraffic s t) : t.initialized = s.initialized := by rw [h.frame]
theorem ChipTraffic.rxState {s t : State} (h : ChipTraffic s t) : t.rxState = s.rxState := by rw [h.frame]
theorem ChipTraffic.chipMode {s t : State} (h : ChipTraffic s t) : t.chipMode = s.chipMode := by rw [h.frame]

theorem ChipTraffic.withChipMode {s t : State} (h : ChipTraffic s t) (m : Mode) :
    ChipTraffic { s with chipMode := m } { t with chipMode := m } := by
  obtain ⟨hframe, hkept, hset, hregs⟩ := h
  refine ⟨?_, hkept, hset, hregs⟩
  rw [hframe]

/-! ### INIT, outcome by outcome -/

theorem runInit_probeFailed {s : State} (h : (probe s.cfg.probeVals s).1 = false) :
    runInit s = raise .initFailure (probe s.cfg.probeVals s).2 := by
  simp [runInit, h]

theorem runInit_notReady {s : State} (hprobe : (probe s.cfg.probeVals s).1 = true)
    (hmode : (setMode .standby (probe s.cfg.probeVals s).2).1 = false) :
    runInit s = raise .initFailure (setMode .standby (probe s.cfg.probeVals s).2).2 := by
  simp [runInit, hprobe, hmode]

theorem runInit_ready {s : State} (hprobe : (probe s.cfg.probeVals s).1 = true)
    (hmode : (setMode .standby (probe s.cfg.probeVals s).2).1 = true) :
    runInit s = respond (.bool true) (armReceive (programChip (setMode .standby (probe s.cfg.probeVals s).2).2)) := by
  simp [runInit, hprobe, hmode]

/-! ### The chip registers INIT writes -/

/-- The registers R129 writes: probe, mode, framing, and those of the table. -/
def initWrites (cfg : Config.Params) : List ChipAddr :=
  cfg.aProbe :: cfg.aMode :: cfg.aLen :: cfg.radioConfig.map (fun e => e.1)

theorem programChip_regsKept (s : State) : RegsKeptOutside (initWrites s.cfg) s (programChip s) := by
  have htable : RegsKeptOutside (initWrites s.cfg) s (regWrAll s.cfg.radioConfig s) :=
    (regWrAll_regsKept s.cfg.radioConfig s).mono fun a ha => by simp [initWrites, List.mem_map.mp ha]
  exact htable.trans (regWr_regsKept (by simp [initWrites]) _ _)

/-- INIT's last write is LEN_DEFAULT at A_LEN, behind those of the table (log entry 19). -/
theorem programChip_state (s : State) : ∃ regs fifo,
    programChip s = { s with
      bus := s.bus ++ s.cfg.radioConfig.flatMap (fun e => regWrWire s.cfg e.1 e.2) ++
        regWrWire s.cfg s.cfg.aLen s.cfg.lenDefault
      chipRegs := regs
      fifoOut := fifo } ∧
    (s.cfg.aLen ≠ s.cfg.aFifo → regs.read s.cfg.aLen.toNat = some s.cfg.lenDefault) := by
  obtain ⟨regs, fifo, htable⟩ := regWrAll_state s.cfg.radioConfig s
  have hcfg : (regWrAll s.cfg.radioConfig s).cfg = s.cfg := (regWrAll_traffic _ s).cfg
  refine ⟨(programChip s).chipRegs, (programChip s).fifoOut, ?_,
    fun h => regWr_read s.cfg.aLen s.cfg.lenDefault _ (by rw [hcfg]; exact h)⟩
  rw [programChip, regWr_state, htable]

/-! ### INIT -/

/-- INIT's two ends, with the chip traffic before each (R129, R261). -/
theorem runInit_cases (s : State) :
    (∃ m u, runInit s = raise .initFailure u ∧ ChipTraffic { s with chipMode := m } u ∧
      RegsKeptOutside (initWrites s.cfg) s u) ∨
    ∃ u, runInit s = respond (.bool true) (armReceive u) ∧ ChipTraffic { s with chipMode := .standby } u ∧
      RegsKeptOutside (initWrites s.cfg) s u := by
  have tprobe := probe_traffic s.cfg.probeVals s
  have rprobe : RegsKeptOutside (initWrites s.cfg) s (probe s.cfg.probeVals s).2 :=
    (probe_regsKept _ s).mono (by simp [initWrites])
  cases hprobe : (probe s.cfg.probeVals s).1 with
  | false => exact Or.inl ⟨s.chipMode, _, runInit_probeFailed hprobe, tprobe, rprobe⟩
  | true =>
    have hready := runInit_ready hprobe
    have hnot := runInit_notReady hprobe
    generalize (probe s.cfg.probeVals s).2 = p at *
    have tmode : ChipTraffic { s with chipMode := .standby } (setMode .standby p).2 :=
      (tprobe.withChipMode .standby).trans (setMode_traffic .standby p)
    have rmode : RegsKeptOutside (initWrites s.cfg) s (setMode .standby p).2 :=
      rprobe.trans ((setMode_regsKept .standby p).mono (by simp [initWrites, tprobe.cfg]))
    cases hmode : (setMode .standby p).1 with
    | false => exact Or.inl ⟨.standby, _, hnot hmode, tmode, rmode⟩
    | true =>
      have rprogram := programChip_regsKept (setMode .standby p).2
      rw [tmode.cfg] at rprogram
      exact Or.inr ⟨_, hready hmode, tmode.trans (programChip_traffic _), rmode.trans rprogram⟩

/-- Settles O28: INIT's frame is `runInit_frame`, its two ends are `runInit_cases`. -/
theorem initAlwaysAnswers : Obligations.InitAlwaysAnswers := by
  intro s
  refine ⟨runInit s, rfl, runInit_frame s, ?_⟩
  rcases runInit_cases s with ⟨m, u, hend, htraffic, hregs⟩ | ⟨u, hend, htraffic, hregs⟩
  · rw [hend]
    exact ⟨hregs, Or.inr ⟨rfl, rfl, htraffic.initialized, htraffic.irqArmed, htraffic.rxState⟩⟩
  · rw [hend]
    exact ⟨hregs, Or.inl ⟨rfl, rfl, rfl, rfl, rfl, rfl, htraffic.chipMode⟩⟩

/-- Settles O27: the probe and the mode wait on recorded answers, then the chip's programming. -/
theorem initSucceedsWithAResponsiveChip : Obligations.InitSucceedsWithAResponsiveChip := by
  intro s echo polls rest hin hecho hpolls
  obtain ⟨_, _, hprobe⟩ := probe_echo echo [] s (polls ++ rest) hin
  rw [List.append_nil, hecho, probe] at hprobe
  have hmode := setMode_recorded .standby (probe s.cfg.probeVals s).2 polls rest true (by rw [hprobe])
    (by rw [hprobe]; exact hpolls)
  obtain ⟨regs, fifo, hprogram, hlen⟩ := programChip_state (setMode .standby (probe s.cfg.probeVals s).2).2
  rw [hmode, hprobe] at hlen
  refine ⟨regs, fifo, ?_, hlen⟩
  have hend := runInit_ready (by rw [hprobe]) (by rw [hmode])
  rw [hprogram, hmode, hprobe] at hend
  exact congrArg Host.Outcome.next hend

end Sys2Proof.Machine
end

section
/-! PROOFS. The bit stuffer and destuffer (spec/41_bitstuff.md R142 to R151), and the SEND_PKT that STUFF refuses (R149). -/

namespace Sys2Proof.Machine

/-! ### What STUFF and DESTUFF answer -/

theorem execStuff_next_iff {B out : List Byte} {ins : Nat} {s : State} :
    exec (.stuff B) s = .next { s with ret := .stuffed out ins, cond := none } ↔
      (1 ≤ B.length ∧ B.length ≤ 10) ∧ stuff B = some (out, ins) := by
  change execStuff B s = _ ↔ _
  rw [← stuffInRange_iff, execStuff]
  cases hr : stuffInRange B with
  | false => simp
  | true =>
    cases hs : stuff B with
    | none => simp
    | some r =>
      obtain ⟨out', ins'⟩ := r
      simp [respond]

theorem execDestuff_next_iff {B out : List Byte} {drop : Nat} {s : State} :
    exec (.destuff B) s = .next { s with ret := .stuffed out drop, cond := none } ↔
      (1 ≤ B.length ∧ B.length ≤ 11) ∧ destuff B = (out, drop) := by
  change execDestuff B s = _ ↔ _
  rw [← destuffInRange_iff, execDestuff]
  cases hr : destuffInRange B with
  | false => simp
  | true => simp [respond, Prod.ext_iff]

/-- STUFF has no result exactly where R147's loop refuses (R149). -/
theorem stuff_eq_none_iff (B : List Byte) : stuff B = none ↔ stuffLoop (bits B) = none := by
  rw [stuffLoop_refuses, stuff, ite_eq_right_iff]
  simp

/-! ### Insertions in a front part of a stream -/

theorem stuffBits_append_count (front back : List Bool) (run : Nat) :
    (stuffBits run front).2 ≤ (stuffBits run (front ++ back)).2 := by
  induction front generalizing run with
  | nil => exact Nat.zero_le _
  | cons b front ih =>
    cases b with
    | false => exact ih 0
    | true =>
      simp only [List.cons_append, stuffBits]
      split
      · exact Nat.succ_le_succ (ih 0)
      · exact ih (run + 1)

theorem stuffBits_count_mono {front bs : List Bool} (h : front <+: bs) (run : Nat) :
    (stuffBits run front).2 ≤ (stuffBits run bs).2 := by
  obtain ⟨back, rfl⟩ := h
  exact stuffBits_append_count front back run

/-- A stream that needs no insertion goes out as it came in. -/
theorem stuffBits_of_count_zero {bs : List Bool} {run : Nat} (h : (stuffBits run bs).2 = 0) :
    (stuffBits run bs).1 = bs := by
  induction bs generalizing run with
  | nil => rfl
  | cons b bs ih =>
    cases b with
    | false => exact congrArg (false :: ·) (ih h)
    | true =>
      simp only [stuffBits] at h ⊢
      split
      · next h5 => simp [h5] at h
      · next h5 =>
        rw [if_neg h5] at h
        exact congrArg (true :: ·) (ih h)

/-! ### The round trip (R150) -/

/-- DESTUFF's bytes, where the scan fills them all. -/
theorem destuff_of_destuffBits {input out : List Byte} {drop : Nat} (hlen : input.length = out.length + 1)
    (h : destuffBits (bits out).length 0 (bits input) = (bits out, drop)) : destuff input = (out, drop) := by
  have hcap : 8 * (input.length - 1) = (bits out).length := by rw [length_bits]; omega
  rw [destuff, hcap, h, padBits, Nat.sub_self, List.replicate_zero, List.append_nil, packBits_bits]

/-- DESTUFF of STUFF's output gives the input back, whichever way its last insertion fell (R144 c). -/
theorem destuff_stuff {B S : List Byte} {ins : Nat} (h : stuff B = some (S, ins)) :
    destuff S = (B, if (stuffBits 0 (bits B).dropLast).2 < ins then ins - 1 else ins) := by
  obtain ⟨rfl, _, hlen, hbits⟩ := stuff_result h
  apply destuff_of_destuffBits hlen
  rw [hbits]
  exact destuffBits_stuffBits (bits B) _ 0 (by decide)

/-- With no insertion STUFF's output is its input and a byte of 0 (R148 a). -/
theorem stuff_no_insertion {B S : List Byte} (h : stuff B = some (S, 0)) : S = B ++ [0] := by
  obtain ⟨hins, _, _, hbits⟩ := stuff_result h
  apply bits_injective
  rw [hbits, stuffBits_of_count_zero hins.symm, bits_append]
  rfl

/-- DESTUFF of an input in which STUFF would insert nothing loses the last byte to the length rule. -/
theorem destuff_unstuffed {B : List Byte} (hne : B ≠ []) (h : (stuffBits 0 (bits B)).2 = 0) :
    destuff B = (B.dropLast, 0) := by
  have hsplit : bits B = bits B.dropLast ++ bits [B.getLast hne] := by
    rw [← bits_append, List.dropLast_concat_getLast]
  have hfront : (stuffBits 0 (bits B.dropLast)).2 = 0 := by
    have hle := stuffBits_append_count (bits B.dropLast) (bits [B.getLast hne]) 0
    rw [← hsplit, h] at hle
    exact Nat.le_zero.mp hle
  have hscan := destuffBits_stuffBits (bits B.dropLast) (bits [B.getLast hne]) 0 (by decide)
  rw [stuffBits_of_count_zero hfront, ← hsplit, hfront] at hscan
  refine destuff_of_destuffBits ?_ (by simpa using hscan)
  have hpos := List.length_pos_iff.mpr hne
  rw [List.length_dropLast]
  omega

/-- Settles O16: `destuff_stuff`, and with no insertion `destuff_unstuffed`. -/
theorem destuffInvertsStuff : Obligations.DestuffInvertsStuff := by
  intro B S ins s h1 h10 hexec
  obtain ⟨_, hstuff⟩ := execStuff_next_iff.mp hexec
  obtain ⟨hins, h8, hlen, _⟩ := stuff_result hstuff
  constructor
  · have hfront := stuffBits_count_mono (List.dropLast_prefix (bits B)) 0
    obtain ⟨run, hloop⟩ := stuffLoop_completes (bits B).dropLast (by omega)
    exact ⟨_, hloop, execDestuff_next_iff.mpr ⟨by omega, destuff_stuff hstuff⟩⟩
  · rintro rfl
    have hback : S.take B.length = B := by rw [stuff_no_insertion hstuff, List.take_left]
    rw [hback]
    exact ⟨0, execDestuff_next_iff.mpr ⟨by omega, destuff_unstuffed (List.length_pos_iff.mp h1) hins.symm⟩⟩

/-! ### STUFF (R147 to R149) -/

/-- Settles O14: R147's loop is STUFF's scan, with the same bits, count and refusal; the examples by evaluation. -/
theorem stuffCompletesUpToEightInsertions : Obligations.StuffCompletesUpToEightInsertions := by
  refine ⟨fun B s p h1 h10 hloop => ?_, fun B s h1 h10 hloop => ?_, fun s => ?_⟩
  · obtain ⟨hout, hins, h8⟩ := stuffLoop_result hloop
    obtain ⟨out, hstuff, hlen, hbits⟩ := stuff_completes B h8
    rw [hout, hins]
    exact ⟨h8, by rw [length_stuffBits, length_bits], out, execStuff_next_iff.mpr ⟨⟨h1, h10⟩, hstuff⟩, hlen, hbits⟩
  · change execStuff B s = _
    rw [execStuff, if_pos (stuffInRange_iff.mpr ⟨h1, h10⟩), (stuff_eq_none_iff B).mpr hloop]
  · simp only [execStuff_next_iff]
    decide

/-- Settles O15: each insertion takes five of at most forty bits. -/
theorem shortInputsAlwaysStuff : Obligations.ShortInputsAlwaysStuff := by
  intro B s h1 h5
  have hcount := stuffBits_count (bits B) 0 (by decide)
  rw [length_bits] at hcount
  have h8 : (stuffBits 0 (bits B)).2 ≤ 8 := by omega
  obtain ⟨out, hstuff, _⟩ := stuff_completes B h8
  exact ⟨out, _, h8, execStuff_next_iff.mpr ⟨⟨h1, by omega⟩, hstuff⟩⟩

/-! ### No six ones (R151) -/

/-- No six bits in a row are all 1. -/
def NoSixOnes (bs : List Bool) : Prop := ¬ List.replicate 6 true <:+: bs

theorem NoSixOnes.of_infix {l m : List Bool} (h : NoSixOnes m) (hl : l <:+: m) : NoSixOnes l :=
  fun h6 => h (h6.trans hl)

theorem noSixOnes_of_length {bs : List Bool} (h : bs.length < 6) : NoSixOnes bs := fun h6 => by
  have hle := h6.length_le
  rw [List.length_replicate] at hle
  omega

theorem sixOnes_not_prefix (bs : List Bool) {run : Nat} (hrun : run ≤ 5) :
    ¬ List.replicate 6 true <+: List.replicate run true ++ false :: bs := by
  obtain ⟨k, hk⟩ : ∃ k, 6 = run + (k + 1) := ⟨5 - run, by omega⟩
  rw [hk, ← List.replicate_append_replicate, List.prefix_append_right_inj, List.replicate_succ]
  simp

/-- A 0 ends the run before it. -/
theorem NoSixOnes.after_run {bs : List Bool} (h : NoSixOnes bs) {run : Nat} (hrun : run ≤ 5) :
    NoSixOnes (List.replicate run true ++ false :: bs) := by
  induction run with
  | zero =>
    intro hsix
    exact (List.infix_cons_iff.mp hsix).elim (sixOnes_not_prefix bs hrun) h
  | succ run ih =>
    intro hsix
    change _ <:+: true :: (List.replicate run true ++ false :: bs) at hsix
    exact (List.infix_cons_iff.mp hsix).elim (sixOnes_not_prefix bs hrun) (ih (by omega))

/-- After a run of fewer than five ones, the stuffed stream and whatever follows it behind a 0 have no six. -/
theorem noSixOnes_stuffBits {rest : List Bool} (hrest : NoSixOnes rest) (bs : List Bool) {run : Nat} (hrun : run < 5) :
    NoSixOnes (List.replicate run true ++ ((stuffBits run bs).1 ++ false :: rest)) := by
  induction bs generalizing run with
  | nil => exact hrest.after_run (by omega)
  | cons b bs ih =>
    have hzero := ih (run := 0) (by omega)
    cases b with
    | false => exact hzero.after_run (by omega)
    | true =>
      have hone : ∀ l : List Bool, List.replicate run true ++ true :: l = List.replicate (run + 1) true ++ l := by
        intro l
        rw [List.replicate_succ', List.append_assoc, List.singleton_append]
      simp only [stuffBits]
      split
      · rw [List.cons_append, hone]
        exact hzero.after_run hrun
      · next h5 =>
        rw [List.cons_append, hone]
        exact ih (Nat.lt_of_le_of_ne hrun h5)

/-- Settles O17: the sync byte's first bit is the 0 that `noSixOnes_stuffBits` asks for behind the stream. -/
theorem stuffedStreamHasNoSixOnes : Obligations.StuffedStreamHasNoSixOnes := by
  intro B S ins s hexec
  obtain ⟨_, hstuff⟩ := execStuff_next_iff.mp hexec
  obtain ⟨hins, _, _, hbits⟩ := stuff_result hstuff
  have hlen : (stuffBits 0 (bits B)).1.length = 8 * B.length + ins := by rw [length_stuffBits, length_bits, hins]
  have htake : (byteBits 0x7E).take 6 = false :: List.replicate 5 true := by decide
  have hsync : NoSixOnes ((stuffBits 0 (bits B)).1 ++ (byteBits 0x7E).take 6) := by
    rw [htake]
    exact noSixOnes_stuffBits (run := 0) (noSixOnes_of_length (by decide)) (bits B) (by decide)
  rw [hbits, ← hlen, List.take_left, List.drop_left]
  exact ⟨hsync.of_infix (List.prefix_append _ _).isInfix, rfl, hsync⟩

/-! ### DESTUFF (R142 to R145) -/

theorem destuffLoop_out (cap : Nat) (bs : List Bool) : (destuffLoop cap bs).out = (destuffBits cap 0 bs).1 :=
  congrArg Prod.fst (destuffLoop_eq cap bs)

theorem destuffLoop_drop (cap : Nat) (bs : List Bool) : (destuffLoop cap bs).drop = (destuffBits cap 0 bs).2 :=
  congrArg Prod.snd (destuffLoop_eq cap bs)

/-- Settles O18: R142's loop is DESTUFF's scan, whose bits `padBits` fills up with 0; the examples by evaluation. -/
theorem destuffShortensByOneByte : Obligations.DestuffShortensByOneByte := by
  refine ⟨fun B s h1 h11 => ?_, fun s => ?_, fun s => ?_⟩
  · dsimp only
    rw [destuffLoop_out, destuffLoop_drop]
    exact ⟨(destuff B).1, execDestuff_next_iff.mpr ⟨⟨h1, h11⟩, rfl⟩, length_destuff B, length_destuffBits _ _ _,
      bits_destuff B⟩
  · rw [execDestuff_next_iff]
    decide
  · rw [execDestuff_next_iff]
    decide +kernel

/-- What R142's loop has written after the first `m` bits stands at the start of DESTUFF's output. -/
theorem destuffLoop_prefix_destuff (B : List Byte) (m : Nat) :
    (destuffLoop (8 * (B.length - 1)) ((bits B).take m)).out <+: bits (destuff B).1 := by
  have hscan := destuffBits_prefix ((bits B).take m) ((bits B).drop m) (8 * (B.length - 1)) 0
  rw [List.take_append_drop] at hscan
  rw [destuffLoop_out, bits_destuff]
  exact hscan.trans (List.prefix_append _ _)

/-- Settles O19: both outputs begin with what R142's loop writes for the bits the inputs share. -/
theorem destuffIsPrefixDetermined : Obligations.DestuffIsPrefixDetermined := by
  intro B B' out out' drop drop' m s hlen hshared hexec hexec'
  obtain ⟨_, hout⟩ := execDestuff_next_iff.mp hexec
  obtain ⟨_, hout'⟩ := execDestuff_next_iff.mp hexec'
  have hfirst := destuffLoop_prefix_destuff B m
  have hsecond := destuffLoop_prefix_destuff B' m
  rw [hout] at hfirst
  rw [hout', ← hlen, ← hshared] at hsecond
  exact ⟨(List.prefix_iff_eq_take.mp hfirst).symm, (List.prefix_iff_eq_take.mp hsecond).symm⟩

/-! ### SEND_PKT of a packet that STUFF refuses (R149, R246) -/

theorem execSendPkt_recognised {s : State} (hi : s.initialized = true) (type : PktType) (a : DevAddr) (command : Byte)
    (extra : List Byte) : exec (.sendPkt (deviceOf type) a command extra) s = sendPacket type a command extra s := by
  change execSendPkt (deviceOf type) a command extra s = _
  rw [execSendPkt, pktTypeOfDevice_deviceOf]
  exact if_pos hi

theorem sendPacket_overflow {s : State} {type : PktType} {a : DevAddr} {command : Byte} {extra : List Byte}
    (h : stuffLoop (bits (revBuf (assemble s.cfg type s.counter a command extra))) = none) :
    sendPacket type a command extra s = .refused .stuffOverflow := by
  rw [sendPacket, packetPayload, (stuff_eq_none_iff _).mpr h]

/-- The packet that R149 names (V27), whatever the parameters. -/
theorem assemble_nineInsertions (cfg : Config.Params) : assemble cfg .windowSensor 0x3E 0xFFFFFF 0xF9 [] =
    [0x3E, 0x20, 0xFF, 0xFF, 0xFF, 0xF9, 0xC3, 0xFF] := by
  have hfields : fields cfg .windowSensor 0x3E 0xFFFFFF 0xF9 [] = [0x3E, 0x20, 0xFF, 0xFF, 0xFF, 0xF9] := rfl
  rw [assemble, hfields]
  decide +kernel

/-- Settles O43: SEND_PKT is refused with STUFF, and the packet that R149 names is one such. -/
theorem sendPktOverflowRefused : Obligations.SendPktOverflowRefused := by
  have hrefused : ∀ (s : State) (type : PktType) (a : DevAddr) (command : Byte) (extra : List Byte),
      s.initialized = true → stuffLoop (bits (revBuf (assemble s.cfg type s.counter a command extra))) = none →
      exec (.sendPkt (deviceOf type) a command extra) s = .refused .stuffOverflow :=
    fun s type a command extra hi h => (execSendPkt_recognised hi type a command extra).trans (sendPacket_overflow h)
  refine ⟨hrefused, fun s hi hctr => hrefused s .windowSensor 0xFFFFFF 0xF9 [] hi ?_⟩
  rw [hctr, assemble_nineInsertions]
  decide +kernel

end Sys2Proof.Machine
end

section
/-! PROOFS. The CRC engine (spec/42_crc.md R161 to R164, R168). -/

namespace Sys2Proof.Machine

/-! ### What CRC_STEP and PKT_CRC answer -/

theorem exec_crcStep (crc : Half) (c : Byte) (s : State) :
    exec (.crcStep crc c) s = .next { s with ret := .half (crcStep crc c), cond := none } := rfl

theorem exec_pktCrc (data : List Byte) (type : PktType) (s : State) :
    exec (.pktCrc data type) s = .next { s with ret := .half (pktCrc data type), cond := none } := rfl

theorem exec_pktCrc_inj {data data' : List Byte} {type : PktType} {s : State}
    (h : exec (.pktCrc data type) s = exec (.pktCrc data' type) s) : pktCrc data type = pktCrc data' type := by
  rw [exec_pktCrc, exec_pktCrc, Host.Outcome.next.injEq] at h
  exact Ret.half.inj (congrArg State.ret h)

/-! ### One iteration, bit by bit -/

theorem getLsbD_zeroExtend_byte (c : Byte) (i : Nat) : (c.zeroExtend 16).getLsbD i = c.getLsbD i := by
  rw [BitVec.getLsbD_setWidth]
  by_cases hi : i < 16
  · rw [decide_eq_true hi, Bool.true_and]
  · rw [BitVec.getLsbD_of_ge c i (by omega), Bool.and_false]

theorem and_one_eq_one_iff (x : Half) : x &&& 1 = 1 ↔ x.getLsbD 0 = true := by
  rw [show (1 : Half) = 1#16 from rfl, BitVec.and_one_eq_setWidth_ofBool_getLsbD]
  cases x.getLsbD 0 <;> decide

/-- The register moves right by one bit, and the mask joins in when the low bits of the register and the byte differ. -/
theorem crcIter_getLsbD (crc : Half) (c : Byte) (i : Nat) : (crcIter crc c).getLsbD i =
    (crc.getLsbD (i + 1) ^^ ((crc.getLsbD 0 ^^ c.getLsbD 0) && Config.crcMask.getLsbD i)) := by
  have hlow : (crc ^^^ c.zeroExtend 16).getLsbD 0 = (crc.getLsbD 0 ^^ c.getLsbD 0) := by
    rw [BitVec.getLsbD_xor, getLsbD_zeroExtend_byte]
  rw [crcIter]
  split
  · next hfed =>
    rw [and_one_eq_one_iff, hlow] at hfed
    rw [hfed, Bool.true_and, BitVec.getLsbD_xor, BitVec.getLsbD_ushiftRight, Nat.add_comm]
  · next hnot =>
    rw [and_one_eq_one_iff, hlow, Bool.not_eq_true] at hnot
    rw [hnot, Bool.false_and, Bool.xor_false, BitVec.getLsbD_ushiftRight, Nat.add_comm]

/-- The top bit of the result is the mask's alone, so it tells whether the mask joined in. -/
theorem crcIter_topBit (crc : Half) (c : Byte) :
    (crcIter crc c).getLsbD 15 = (crc.getLsbD 0 ^^ c.getLsbD 0) := by
  rw [crcIter_getLsbD, BitVec.getLsbD_of_ge crc 16 (Nat.le_refl 16),
    show Config.crcMask.getLsbD 15 = true from rfl, Bool.false_xor, Bool.and_true]

/-- For a fixed byte an iteration loses nothing of the register (R168). -/
theorem crcIter_injective (c : Byte) : Function.Injective fun crc => crcIter crc c := by
  intro x y (h : crcIter x c = crcIter y c)
  have hlow : x.getLsbD 0 = y.getLsbD 0 := by
    have htop := congrArg (BitVec.getLsbD · 15) h
    simpa only [crcIter_topBit, Bool.xor_left_inj] using htop
  refine BitVec.eq_of_getLsbD_eq fun i hi => ?_
  cases i with
  | zero => exact hlow
  | succ i =>
    have hbit := congrArg (BitVec.getLsbD · i) h
    simpa only [crcIter_getLsbD, hlow, Bool.xor_left_inj] using hbit

/-- With the byte joined into the register beforehand, an iteration decides the same and leaves the byte's other bits
in the register, moved right with it (R162). -/
theorem crcIter_xor_zero (crc : Half) (c : Byte) :
    crcIter (crc ^^^ c.zeroExtend 16) 0 = crcIter crc c ^^^ (c >>> 1).zeroExtend 16 := by
  refine BitVec.eq_of_getLsbD_eq fun i _ => ?_
  simp only [crcIter_getLsbD, BitVec.getLsbD_xor, getLsbD_zeroExtend_byte, BitVec.getLsbD_ushiftRight,
    BitVec.ofNat_eq_ofNat, BitVec.getLsbD_zero, Bool.xor_false, Nat.add_comm 1 i, Bool.xor_right_comm]

/-! ### The iterations of CRC_STEP -/

/-- The model's count of iterations is the iterate of the pair of register and byte. -/
theorem crcIters_eq_iterate (n : Nat) (crc : Half) (c : Byte) :
    crcIters n crc c = ((fun p : Half × Byte => (crcIter p.1 p.2, p.2 >>> 1))^[n] (crc, c)).1 := by
  induction n generalizing crc c with
  | zero => rfl
  | succ n ih => rw [crcIters, ih, Function.iterate_succ_apply]

theorem crcIters_xor_zero (n : Nat) (crc : Half) (c : Byte) :
    crcIters n (crc ^^^ c.zeroExtend 16) 0 = crcIters n crc c ^^^ (c >>> n).zeroExtend 16 := by
  induction n generalizing crc c with
  | zero => simp [crcIters]
  | succ n ih =>
    calc crcIters (n + 1) (crc ^^^ c.zeroExtend 16) 0
        = crcIters n (crcIter crc c ^^^ (c >>> 1).zeroExtend 16) 0 := by
          rw [crcIters, crcIter_xor_zero, show (0 : Byte) >>> 1 = 0 from rfl]
      _ = crcIters (n + 1) crc c ^^^ (c >>> (n + 1)).zeroExtend 16 := by
          rw [ih, crcIters, ← BitVec.shiftRight_add, Nat.add_comm 1 n]

/-- Only `crc XOR c` matters (R162): after eight iterations no bit of the byte is left. -/
theorem crcStep_xor_zero (crc : Half) (c : Byte) : crcStep (crc ^^^ c.zeroExtend 16) 0 = crcStep crc c := by
  have hgone : c >>> 8 = 0 := BitVec.ushiftRight_eq_zero (Nat.le_refl 8)
  rw [crcStep, crcIters_xor_zero, hgone]
  exact BitVec.xor_zero

/-- For a fixed byte the iterations lose nothing of the register (R168). -/
theorem crcIters_injective (n : Nat) (c : Byte) : Function.Injective fun crc => crcIters n crc c := by
  induction n generalizing c with
  | zero => exact fun _ _ h => h
  | succ n ih => exact (ih (c >>> 1)).comp (crcIter_injective c)

theorem crcStep_register_injective (c : Byte) : Function.Injective fun crc => crcStep crc c :=
  crcIters_injective 8 c

/-- For a fixed register, different bytes give different results. -/
theorem crcStep_byte_injective (crc : Half) : Function.Injective (crcStep crc) := by
  intro b b' h
  rw [← crcStep_xor_zero crc b, ← crcStep_xor_zero crc b'] at h
  have hwide : b.zeroExtend 16 = b'.zeroExtend 16 := (BitVec.xor_right_inj _).mp (crcStep_register_injective 0 h)
  simpa using congrArg (BitVec.setWidth 8) hwide

/-! ### PKT_CRC -/

theorem foldl_crcStep_injective (data : List Byte) : Function.Injective fun crc => data.foldl crcStep crc := by
  induction data with
  | nil => exact fun _ _ h => h
  | cons c data ih => exact ih.comp (crcStep_register_injective c)

/-- R164: the returned value's high byte is the register's low byte. -/
theorem hiByte_swapBytes (crc : Half) : hiByte (swapBytes crc) = loByte crc := by
  refine BitVec.eq_of_getLsbD_eq fun i hi => ?_
  have hmask : (0x00FF : Half).getLsbD i = true := by
    rw [show (0x00FF : Half) = (BitVec.allOnes 8).zeroExtend 16 from rfl, getLsbD_zeroExtend_byte,
      BitVec.getLsbD_allOnes, decide_eq_true hi]
  have hhigh : crc.getLsbD (8 + (8 + i)) = false := BitVec.getLsbD_of_ge crc _ (by omega)
  have hlow : ((crc &&& 0x00FF) <<< 8).getLsbD (8 + i) = crc.getLsbD i := by
    rw [BitVec.getLsbD_shiftLeft, Nat.add_sub_cancel_left, BitVec.getLsbD_and, hmask]
    simp [show 8 + i < 16 by omega]
  rw [hiByte, loByte, swapBytes, BitVec.getLsbD_extractLsb', BitVec.getLsbD_or, BitVec.getLsbD_ushiftRight, hlow, hhigh,
    Bool.or_false, BitVec.getLsbD_extractLsb', Nat.zero_add]

/-- R164: the returned value's low byte is the register's high byte. -/
theorem loByte_swapBytes (crc : Half) : loByte (swapBytes crc) = hiByte crc := by
  refine BitVec.eq_of_getLsbD_eq fun i hi => ?_
  simp [hiByte, loByte, swapBytes, hi, show i < 16 by omega]

theorem swapBytes_injective : Function.Injective swapBytes := by
  intro x y h
  have hlo : loByte x = loByte y := by rw [← hiByte_swapBytes x, h, hiByte_swapBytes]
  have hhi : hiByte x = hiByte y := by rw [← loByte_swapBytes x, h, loByte_swapBytes]
  rw [← hiByte_append_loByte x, hhi, hlo, hiByte_append_loByte]

/-- One byte of the data, singled out of the fold over SYNC and the data (R163). -/
theorem pktCrc_append_cons (before after : List Byte) (b : Byte) (type : PktType) :
    pktCrc (before ++ b :: after) type =
      swapBytes (after.foldl crcStep (crcStep (before.foldl crcStep (crcStep (typeSeed type) Config.sync)) b)) := by
  rw [pktCrc, List.foldl_append, List.foldl_cons]

/-- Every step after a changed byte keeps two different registers different, and so does the swap (R168). -/
theorem pktCrc_byte_injective (before after : List Byte) (type : PktType) :
    Function.Injective fun b => pktCrc (before ++ b :: after) type := by
  intro b b' h
  simp only [pktCrc_append_cons] at h
  exact crcStep_byte_injective _ (foldl_crcStep_injective after (swapBytes_injective h))

/-! ### The statements -/

/-- Settles O7: the iterates of `crcIter`, whose body is the rule's bit step. -/
theorem crcStepIsEightBitSteps : Obligations.CrcStepIsEightBitSteps := by
  intro crc c s
  rw [exec_crcStep, crcStep, crcIters_eq_iterate]
  rfl

/-- Settles O8: `crcStep_xor_zero`, and the corner values computed. -/
theorem crcStepCornerCases : Obligations.CrcStepCornerCases := by
  intro s
  have hcorner : ∀ {crc : Half} {c : Byte} {r : Half}, crcStep crc c = r →
      exec (.crcStep crc c) s = .next { s with ret := .half r, cond := none } := by
    rintro crc c _ rfl
    exact exec_crcStep crc c s
  refine ⟨fun crc c => ?_, hcorner (by decide), hcorner (by decide), hcorner (by decide), hcorner (by decide),
    hcorner (by decide), hcorner (by decide)⟩
  rw [exec_crcStep, exec_crcStep, crcStep_xor_zero]

/-- Settles O9: the fold is `pktCrc`'s before its swap, whose bytes are said above. -/
theorem pktCrcFoldsAndSwaps : Obligations.PktCrcFoldsAndSwaps := by
  intro data type s
  refine ⟨pktCrc data type, exec_pktCrc data type s, ?_⟩
  cases type with
  | windowSensor => exact ⟨hiByte_swapBytes _, loByte_swapBytes _⟩
  | remoteControl => exact ⟨hiByte_swapBytes _, loByte_swapBytes _⟩

/-- Settles O10: the result does not read the state, and it is injective in each byte of the data. -/
theorem crcDetectsAnyByteChange : Obligations.CrcDetectsAnyByteChange := by
  refine ⟨fun data type => ⟨pktCrc data type, exec_pktCrc data type⟩, fun before after b b' type s hne h => ?_,
    fun s => ?_⟩
  · exact hne (pktCrc_byte_injective before after type (exec_pktCrc_inj h))
  · have hexample : pktCrc [0xA1, 0x20, 0x01, 0x4F, 0x5E, 0x41] .windowSensor = 0x9759 := by decide +kernel
    rw [exec_pktCrc, hexample]

end Sys2Proof.Machine
end

section
/-! PROOFS. The byte-reversal unit (spec/43_bitrev.md R176 to R178). -/

namespace Sys2Proof.Machine

/-! ### What REV8 and REVBUF answer -/

theorem exec_rev8 (b : Byte) (s : State) :
    exec (.rev8 b) s = .next { s with ret := .byte (rev8 b), cond := none } := rfl

theorem exec_revBuf (bytes : List Byte) (s : State) :
    exec (.revBuf bytes) s = .next { s with ret := .bytes (revBuf bytes), cond := none } := rfl

/-! ### One byte -/

/-- R11: bit 7 comes first. -/
theorem getElem?_byteBits (b : Byte) : ∀ {k : Nat}, k < 8 → (byteBits b)[k]? = some (b.getLsbD (7 - k))
  | 0, _ | 1, _ | 2, _ | 3, _ | 4, _ | 5, _ | 6, _ | 7, _ => rfl

/-- REV8 is a reversal of the byte's bit list; the laws of R176 and R177 are those of `List.reverse`. -/
theorem byteBits_rev8 (b : Byte) : byteBits (rev8 b) = (byteBits b).reverse := byteBits_byteOfBits _ _ _ _ _ _ _ _

/-- R176: bit `i` of the result stands at place `7 - i` of its list, which is place `i` of the operand's. -/
theorem getLsbD_rev8 (b : Byte) {i : Nat} (h : i < 8) : (rev8 b).getLsbD i = b.getLsbD (7 - i) := by
  have hplace : 7 - (7 - i) = i := Nat.sub_sub_self (Nat.le_of_lt_succ h)
  have hlt : 7 - i < 8 := Nat.lt_succ_of_le (Nat.sub_le 7 i)
  refine Option.some.inj ?_
  calc some ((rev8 b).getLsbD i)
      = (byteBits (rev8 b))[7 - i]? := by rw [getElem?_byteBits _ hlt, hplace]
    _ = (byteBits b)[i]? := by
        rw [byteBits_rev8, List.getElem?_reverse hlt, length_byteBits, Nat.succ_sub_one, hplace]
    _ = some (b.getLsbD (7 - i)) := getElem?_byteBits b h

/-- R177: one helper serves both paths. -/
theorem rev8_involutive : Function.Involutive rev8 := fun b =>
  byteBits_injective (by rw [byteBits_rev8, byteBits_rev8, List.reverse_reverse])

/-! ### Every byte of a buffer -/

theorem revBuf_involutive : Function.Involutive revBuf := rev8_involutive.list_map

theorem length_revBuf (bytes : List Byte) : (revBuf bytes).length = bytes.length := List.length_map ..

/-- R178: the order of the bytes is kept; past the end both sides read 0, which REV8 keeps. -/
theorem byteAt_revBuf (bytes : List Byte) (k : Nat) : byteAt (revBuf bytes) k = rev8 (byteAt bytes k) := by
  have hzero : rev8 0 = 0 := by decide
  calc byteAt (revBuf bytes) k
      = (bytes.map rev8).getD k (rev8 0) := by rw [hzero, byteAt, revBuf]
    _ = rev8 (byteAt bytes k) := List.getD_map bytes 0 rev8

/-! ### The statements -/

/-- Settles O6: `revBuf` is an involution that maps `rev8`, whose bits are said above, over the bytes. -/
theorem revBufMirrorsEachByte : Obligations.RevBufMirrorsEachByte := by
  intro bytes s
  refine ⟨revBuf bytes, exec_revBuf bytes s, ?_, length_revBuf bytes, fun k _ i hi => ?_⟩
  · rw [exec_revBuf, revBuf_involutive]
  · rw [byteAt_revBuf, getLsbD_rev8 _ hi]

/-- Settles O5: the result's bits, read off its list of bits. -/
theorem rev8MirrorsBits : Obligations.Rev8MirrorsBits :=
  fun b s => ⟨rev8 b, exec_rev8 b s, fun _ => getLsbD_rev8 b⟩

end Sys2Proof.Machine
end

section
/-! PROOFS. RX_POLL and RX_GET (spec/44_receive.md R181 to R195): which way a poll goes, and a handled window as the
exchange with the chip that its parts add up to. -/

namespace Sys2Proof.Machine

/-! ### Which way a poll goes (R182, R184) -/

theorem poll_notReceiving {s : State} (hmode : s.chipMode ≠ .receive) : poll s = (.nothing, (setMode .receive s).2) :=
  if_neg hmode

theorem poll_noFlag {s : State} (hmode : s.chipMode = .receive) (hflag : s.rxFlag = false) :
    poll s = (.nothing, s) := by
  rw [poll, if_pos hmode, observe, hflag]
  rfl

theorem poll_notReady {s : State} (hmode : s.chipMode = .receive) (hflag : s.rxFlag = true)
    (hready : flagSet s.cfg .payloadReady (nextAnswer s) = false) :
    poll s = (.nothing, (flagRd .payloadReady s).2) := by
  rw [poll, if_pos hmode, observe, if_pos hflag, flagRd_value, hready]
  rfl

theorem poll_ready {s : State} (hmode : s.chipMode = .receive) (hflag : s.rxFlag = true)
    (hready : flagSet s.cfg .payloadReady (nextAnswer s) = true) :
    poll s = handle (startHandling (flagRd .payloadReady s).2) := by
  rw [poll, if_pos hmode, observe, if_pos hflag, flagRd_value, if_pos hready]

/-- The three ways a poll handles nothing (R193), each no more than chip traffic in the mode it leaves. -/
theorem poll_nothing {s : State}
    (h : s.chipMode ≠ .receive ∨ s.rxFlag = false ∨ flagSet s.cfg .payloadReady (nextAnswer s) = false) :
    (poll s).1 = .nothing ∧ ∃ m, ChipTraffic { s with chipMode := m } (poll s).2 := by
  by_cases hmode : s.chipMode = .receive
  · rcases Bool.eq_false_or_eq_true s.rxFlag with hflag | hflag
    · have hready := (h.resolve_left (not_not_intro hmode)).resolve_left (by simp [hflag])
      rw [poll_notReady hmode hflag hready]
      exact ⟨rfl, s.chipMode, flagRd_traffic .payloadReady s⟩
    · rw [poll_noFlag hmode hflag]
      exact ⟨rfl, s.chipMode, .refl s⟩
  · rw [poll_notReceiving hmode]
    exact ⟨rfl, .receive, setMode_traffic .receive s⟩

/-! ### Polls that handle nothing, and RX_GET -/

/-- Settles O36: by evaluation. -/
theorem rxGetReturnsTheDecodedPacket : Obligations.RxGetReturnsTheDecodedPacket := fun _ => rfl

/-- Settles O32: no flag, no read; else the one read of PayloadReady, whose edge finds the flag already set. -/
theorem rxPollWithNothingReady : Obligations.RxPollWithNothingReady := by
  intro s hinit hmode
  refine ⟨fun hflag => ?_, fun hflag hready => ?_⟩
  · rw [rxPoll_of_initialized s hinit, poll_noFlag hmode hflag]
    rfl
  · rw [rxPoll_of_initialized s hinit, poll_notReady hmode hflag hready, flagRd_update, hflag, Bool.true_or, ← hflag]
    rfl

/-- Settles O33: chip traffic moves none of the packet's fields. -/
theorem rxPollHandlingNothingKeepsThePacket : Obligations.RxPollHandlingNothingKeepsThePacket := by
  intro s hinit h
  obtain ⟨hend, m, htraffic⟩ := poll_nothing h
  refine ⟨respond (.bool false) (poll s).2, ?_, rfl, ?_⟩
  · rw [rxPoll_of_initialized s hinit, hend]
    rfl
  · rw [htraffic.frame]
    exact ⟨rfl, rfl, rfl, rfl, rfl, rfl⟩

/-- Settles O31: the poll is SET_MODE(Receive), its result discarded (D19). -/
theorem rxPollRearmsTheChip : Obligations.RxPollRearmsTheChip := by
  intro s hinit hmode
  obtain ⟨polls, hreads, hpolls, hbus⟩ := setMode_polls .receive s
  obtain ⟨⟨hnext, hchipIn, hdrawn⟩, hflag, _⟩ := hreads
  refine ⟨respond (.bool false) (setMode .receive s).2, polls, _, ?_, (setMode_traffic .receive s).respond _, hpolls,
    ⟨hnext, hchipIn, hdrawn⟩, hflag, hbus, setMode_regsKept .receive s, setMode_writes .receive s⟩
  rw [rxPoll_of_initialized s hinit, poll_notReceiving hmode]
  rfl

/-! ### Exchanges with the chip -/

/-- From `s` to `t` exactly these answers were drawn and these bytes crossed the bus; of the chip's side at most the
mode register was written. Says nothing of the block's other fields, so that parts of an operation add up. -/
structure Exchange (answers : List Config.ChipAnswer) (wires : List Wire) (s t : State) : Prop where
  reads : Reads answers s t
  bus : t.bus = s.bus ++ wires
  cfg : t.cfg = s.cfg
  regs : RegsKeptOutside [s.cfg.aMode] s t
  fifo : s.cfg.aMode ≠ s.cfg.aFifo → t.fifoOut = s.fifoOut

theorem Exchange.trans {l m : List Config.ChipAnswer} {v w : List Wire} {s t u : State} (h : Exchange l v s t)
    (k : Exchange m w t u) : Exchange (l ++ m) (v ++ w) s u where
  reads := h.reads.trans k.reads
  bus := by rw [k.bus, h.bus, List.append_assoc]
  cfg := k.cfg.trans h.cfg
  regs := h.regs.trans (h.cfg ▸ k.regs)
  fifo hne := (k.fifo (h.cfg ▸ hne)).trans (h.fifo hne)

/-- The freeze, the read and the destuffing of a window (R183 steps 1 to 3, R185). -/
theorem readWindow_exchange (s : State) : ∃ standby window ready,
    ModePolls s.cfg (answerBytes standby) ready ∧
    Exchange (standby ++ window)
      (setModeWire s.cfg s.cfg.modeStandby (answerBytes standby) ++
        .out (busAddrByte s.cfg.rwWrite false s.cfg.aFifo) :: (readWindow s).raw.bytes.map .inp)
      s (readWindow s) ∧
    (readWindow s).raw.bytes = answerBytes window ∧
    (readWindow s).ds.bytes = revBuf (destuff (readWindow s).raw.bytes).1 := by
  obtain ⟨_, _, _, _, _, _, _, _, hstate, hds, ⟨standby, window, ready, hpolls, hreads, hraw, hbus⟩, hregs, hfifo⟩ :=
    readWindow_state s
  refine ⟨standby, window, ready, hpolls, ⟨hreads, ?_, ?_, hregs, fun hne => ?_⟩, ?_, ?_⟩
  · rw [hstate, ← List.append_assoc]
    exact hbus
  · rw [hstate]
  · rw [hstate]
    exact hfifo hne
  · rw [hstate]
    exact hraw
  · rw [hstate]
    exact hds

/-- Publishing reads the signal strength once, rejecting reads nothing (R183 steps 6 and 7). -/
theorem judged_exchange (verdict : Option (PktType × Nat)) (s : State) : ∃ published,
    Exchange published (published.flatMap fun a => regRdWire s.cfg s.cfg.aRssi a.byte) s (judged verdict s) ∧
    published.length = if verdict.isSome then 1 else 0 := by
  cases verdict with
  | none => exact ⟨[], ⟨.none rfl rfl rfl rfl, (List.append_nil _).symm, rfl, .of_eq rfl, fun _ => rfl⟩, rfl⟩
  | some p =>
    refine ⟨[nextAnswer s], ?_, rfl⟩
    rw [show judged (some p) s = publish p.1 p.2 s from rfl, publish, recordRssi_state, List.flatMap_singleton]
    exact ⟨.one rfl rfl rfl rfl, rfl, rfl, .of_eq rfl, fun _ => rfl⟩

/-- Reception restarts and the signal strength is refreshed (R183 step 8). -/
theorem endHandling_exchange (s : State) : ∃ receive last ready,
    ModePolls s.cfg (answerBytes receive) ready ∧
    Exchange (receive ++ [last])
      (setModeWire s.cfg s.cfg.modeReceive (answerBytes receive) ++ regRdWire s.cfg s.cfg.aRssi (endHandling s).rssi)
      s (endHandling s) ∧
    (endHandling s).rssi = last.byte := by
  obtain ⟨_, _, _, _, _, _, _, hstate, ⟨receive, last, ready, hpolls, hreads, hrssi, hbus⟩, hregs, hfifo⟩ :=
    endHandling_state s
  refine ⟨receive, last, ready, hpolls, ⟨hreads, ?_, ?_, hregs, fun hne => ?_⟩, ?_⟩
  · rw [hstate, ← List.append_assoc]
    exact hbus
  · rw [hstate]
  · rw [hstate]
    exact hfifo hne
  · rw [hstate]
    exact hrssi

/-! ### A handled window -/

theorem endHandling_window (s : State) : (endHandling s).raw = s.raw ∧ (endHandling s).ds = s.ds := by
  obtain ⟨_, _, _, _, _, _, _, hstate, _⟩ := endHandling_state s
  rw [hstate]
  exact ⟨rfl, rfl⟩

theorem judged_window (verdict : Option (PktType × Nat)) (s : State) :
    (judged verdict s).raw = s.raw ∧ (judged verdict s).ds = s.ds := by
  cases verdict <;> exact ⟨rfl, rfl⟩

/-- What is read and destuffed stays in `raw` and `ds` to the end of handling. -/
theorem handle_window (s : State) : (handle s).2.raw = (readWindow s).raw ∧ (handle s).2.ds = (readWindow s).ds := by
  rw [handle_eq]
  obtain ⟨hraw, hds⟩ := endHandling_window (judged (judge s.cfg (readWindow s).ds.bytes) (readWindow s))
  obtain ⟨kraw, kds⟩ := judged_window (judge s.cfg (readWindow s).ds.bytes) (readWindow s)
  exact ⟨hraw.trans kraw, hds.trans kds⟩

/-- Handling ends Idle, with the chip in Receive (R183). -/
theorem handle_end (s : State) : (handle s).2.rxState = .idle ∧ (handle s).2.chipMode = .receive := by
  obtain ⟨_, _, _, _, _, _, _, hstate, _⟩ :=
    endHandling_state (judged (judge s.cfg (readWindow s).ds.bytes) (readWindow s))
  rw [handle_eq, hstate]
  exact ⟨rfl, rfl⟩

/-- The bus bytes of handling (R183): the freeze, the window, the signal strengths read at its publication, the restart
of reception, the signal strength that stays. -/
def windowWire (cfg : Config.Params) (standby window : List Byte) (published : List Config.ChipAnswer)
    (receive : List Byte) (rssi : Byte) : List Wire :=
  setModeWire cfg cfg.modeStandby standby ++ (.out (busAddrByte cfg.rwWrite false cfg.aFifo) :: window.map .inp) ++
    published.flatMap (fun a => regRdWire cfg cfg.aRssi a.byte) ++ setModeWire cfg cfg.modeReceive receive ++
    regRdWire cfg cfg.aRssi rssi

/-- Handling from its first byte on the bus to its last. -/
theorem handle_exchange (s : State) : ∃ standby window published receive last inStandby inReceive,
    ModePolls s.cfg (answerBytes standby) inStandby ∧ ModePolls s.cfg (answerBytes receive) inReceive ∧
    Exchange (standby ++ window ++ published ++ receive ++ [last])
      (windowWire s.cfg (answerBytes standby) (handle s).2.raw.bytes published (answerBytes receive)
        (handle s).2.rssi)
      s (handle s).2 ∧
    (handle s).2.raw.bytes = answerBytes window ∧ (handle s).2.rssi = last.byte ∧
    (handle s).2.ds.bytes = revBuf (destuff (handle s).2.raw.bytes).1 ∧
    published.length = if (judge s.cfg (handle s).2.ds.bytes).isSome then 1 else 0 := by
  obtain ⟨hraw, hds⟩ := handle_window s
  rw [hraw, hds, handle_eq]
  obtain ⟨standby, window, inStandby, hstandby, hread, hwindow, hdestuffed⟩ := readWindow_exchange s
  obtain ⟨published, hpublish, hcount⟩ := judged_exchange (judge s.cfg (readWindow s).ds.bytes) (readWindow s)
  obtain ⟨receive, last, inReceive, hreceive, hend, hrssi⟩ :=
    endHandling_exchange (judged (judge s.cfg (readWindow s).ds.bytes) (readWindow s))
  have hall := (hread.trans hpublish).trans hend
  rw [hpublish.cfg, hread.cfg] at hreceive hall
  refine ⟨standby, window, published, receive, last, inStandby, inReceive, hstandby, hreceive, ?_, hwindow, hrssi,
    hdestuffed, hcount⟩
  simpa only [windowWire, List.append_assoc] using hall

/-- The type of these bytes is known (R186), and their CRC is the frame's last two bytes (R189). -/
def Accepts (cfg : Config.Params) (ds : List Byte) (type : PktType) : Prop :=
  classify cfg (byteAt ds 1) = (deviceOf type, typeLen type) ∧
  pktCrc (ds.take (typeLen type - 2)) type = halfOf (byteAt ds (typeLen type - 2)) (byteAt ds (typeLen type - 1))

theorem judge_accepts {cfg : Config.Params} {ds : List Byte} {type : PktType} (h : Accepts cfg ds type) :
    judge cfg ds = some (type, typeLen type) := by
  rw [judge_known cfg ds type h.1, if_pos h.2]

theorem judge_rejects {cfg : Config.Params} {ds : List Byte} (h : ∀ type, ¬ Accepts cfg ds type) :
    judge cfg ds = none := by
  rcases classify_cases cfg (byteAt ds 1) with ⟨type, hknown⟩ | hunknown
  · rw [judge_known cfg ds type hknown, if_neg fun hcrc => h type ⟨hknown, hcrc⟩]
  · exact judge_unknown cfg ds hunknown

/-- A rejected frame leaves the decoded packet (R190). -/
theorem handle_rejected {s : State} (h : judge s.cfg (handle s).2.ds.bytes = none) :
    (handle s).1 = .rejected ∧ SamePacket s (handle s).2 := by
  rw [(handle_window s).2] at h
  rw [handle_eq, h]
  exact ⟨rfl, ((readWindow_samePacket s).trans (judged_none_samePacket _)).trans (endHandling_samePacket _)⟩

/-- An accepted frame is published over the front of `dec` (R188). -/
theorem handle_accepted {s : State} {type : PktType} {len : Nat}
    (h : judge s.cfg (handle s).2.ds.bytes = some (type, len)) :
    (handle s).1 = .accepted ∧ (handle s).2.dec = overlay s.dec ((handle s).2.ds.bytes.take len) ∧
      (handle s).2.decLen = len ∧ (handle s).2.decType = deviceOf type := by
  have hds := (handle_window s).2
  rw [hds] at h ⊢
  obtain ⟨hdec, hlen, htype⟩ := endHandling_samePacket (publish type len (readWindow s))
  rw [handle_eq, h]
  refine ⟨rfl, hdec.trans ?_, hlen, htype⟩
  rw [← (readWindow_samePacket s).1]
  rfl

/-- The published bytes and, past them, the ones that stood there. -/
theorem overlay_take_bytes {n len : Nat} (buf : Buf n) (bytes : List Byte) (hlen : len ≤ n) (h : len ≤ bytes.length) :
    (overlay buf (bytes.take len)).bytes = bytes.take len ++ buf.bytes.drop len := by
  have htake : (bytes.take len).length = len := List.length_take_of_le h
  rw [overlay_bytes buf _ (by omega), htake]

/-! ### A poll that handles a window -/

/-- The one read before handling, and what R184 then writes (D5: the flag is cleared behind that read). -/
theorem startHandling_flagRd (s : State) : startHandling (flagRd .payloadReady s).2 = { s with
    chipIn := s.chipIn.tail, drawn := s.drawn + 1,
    bus := s.bus ++ regRdWire s.cfg s.cfg.payloadReady.addr (nextAnswer s).byte,
    rxFlag := false, rxState := .receiving } := by
  rw [flagRd_update]
  rfl

/-- A poll that handles a window, from the read of PayloadReady to its end. An edge at that read is cleared with the
flag, every later one is kept (R271, D5). -/
theorem poll_exchange {s : State} (hmode : s.chipMode = .receive) (hflag : s.rxFlag = true)
    (hready : flagSet s.cfg .payloadReady (nextAnswer s) = true) :
    ∃ standby window published receive last inStandby inReceive,
      ModePolls s.cfg (answerBytes standby) inStandby ∧ ModePolls s.cfg (answerBytes receive) inReceive ∧
      Drew (nextAnswer s :: (standby ++ window ++ published ++ receive ++ [last])) s (poll s).2 ∧
      (poll s).2.rxFlag = (anyEdge (standby ++ window ++ published ++ receive ++ [last]) && s.irqArmed) ∧
      (poll s).2.raw.bytes = answerBytes window ∧ (poll s).2.rssi = last.byte ∧
      (poll s).2.bus = s.bus ++ regRdWire s.cfg s.cfg.payloadReady.addr (nextAnswer s).byte ++
        windowWire s.cfg (answerBytes standby) (poll s).2.raw.bytes published (answerBytes receive) (poll s).2.rssi ∧
      RegsKeptOutside [s.cfg.aMode] s (poll s).2 ∧ (s.cfg.aMode ≠ s.cfg.aFifo → (poll s).2.fifoOut = s.fifoOut) ∧
      (poll s).2.ds.bytes = revBuf (destuff (poll s).2.raw.bytes).1 ∧
      published.length = if (judge s.cfg (poll s).2.ds.bytes).isSome then 1 else 0 := by
  have hread := (flagRd_reads .payloadReady s).drew
  have hstart := startHandling_flagRd s
  rw [poll_ready hmode hflag hready]
  generalize hs1 : startHandling (flagRd .payloadReady s).2 = s1 at *
  replace hread : Drew [nextAnswer s] s s1 := hs1 ▸ ⟨hread.next, hread.chipIn, hread.drawn⟩
  have hcfg : s1.cfg = s.cfg := by rw [hstart]
  have hcleared : s1.rxFlag = false := by rw [hstart]
  have harmed : s1.irqArmed = s.irqArmed := by rw [hstart]
  have hbus1 : s1.bus = s.bus ++ regRdWire s.cfg s.cfg.payloadReady.addr (nextAnswer s).byte := by rw [hstart]
  have hregs1 : RegsKeptOutside [s.cfg.aMode] s s1 := .of_eq (by rw [hstart])
  have hfifo1 : s1.fifoOut = s.fifoOut := by rw [hstart]
  obtain ⟨standby, window, published, receive, last, inStandby, inReceive, hstandby, hreceive, hexchange, hrest⟩ :=
    handle_exchange s1
  obtain ⟨⟨hdrew, hedges, _⟩, hbus, _, hregs, hfifo⟩ := hexchange
  obtain ⟨hraw, hrssi, hds, hcount⟩ := hrest
  rw [hcleared, harmed, Bool.false_or] at hedges
  rw [hbus1, hcfg] at hbus
  rw [hcfg] at hstandby hreceive hregs hfifo hcount
  exact ⟨standby, window, published, receive, last, inStandby, inReceive, hstandby, hreceive, hread.trans hdrew,
    hedges, hraw, hrssi, hbus, hregs1.trans hregs, fun hne => (hfifo hne).trans hfifo1, hds, hcount⟩

/-- What a poll that handles a window ends with, by the verdict on what it destuffed (R188 to R190). -/
theorem poll_verdict {s : State} (hmode : s.chipMode = .receive) (hflag : s.rxFlag = true)
    (hready : flagSet s.cfg .payloadReady (nextAnswer s) = true) :
    (judge s.cfg (poll s).2.ds.bytes = none → (poll s).1 = .rejected ∧ SamePacket s (poll s).2) ∧
    ∀ type len, judge s.cfg (poll s).2.ds.bytes = some (type, len) →
      (poll s).1 = .accepted ∧ (poll s).2.dec = overlay s.dec ((poll s).2.ds.bytes.take len) ∧
        (poll s).2.decLen = len ∧ (poll s).2.decType = deviceOf type := by
  have hstart := startHandling_flagRd s
  rw [poll_ready hmode hflag hready]
  generalize startHandling (flagRd .payloadReady s).2 = s1 at *
  have hcfg : s1.cfg = s.cfg := by rw [hstart]
  have hsame : SamePacket s s1 := hstart ▸ .refl s
  rw [← hcfg, ← hsame.1]
  exact ⟨fun h => (handle_rejected h).imp_right hsame.trans, fun _ _ => handle_accepted⟩

/-- What moves in a poll that handles a window: nothing of the block but the receive side and the chip's. -/
theorem poll_handled_frame {s : State} (hmode : s.chipMode = .receive) (hflag : s.rxFlag = true)
    (hready : flagSet s.cfg .payloadReady (nextAnswer s) = true) :
    (poll s).2 = { s with
      raw := (poll s).2.raw, ds := (poll s).2.ds, dec := (poll s).2.dec, decLen := (poll s).2.decLen,
      decType := (poll s).2.decType, rssi := (poll s).2.rssi, rxState := .idle, chipMode := .receive,
      rxFlag := (poll s).2.rxFlag, chipIn := (poll s).2.chipIn, drawn := (poll s).2.drawn, bus := (poll s).2.bus,
      chipRegs := (poll s).2.chipRegs, fifoOut := (poll s).2.fifoOut } := by
  obtain ⟨hidle, hreceiving⟩ := handle_end (startHandling (flagRd .payloadReady s).2)
  rw [← poll_ready hmode hflag hready] at hidle hreceiving
  have hframe := poll_frame s
  rwa [hidle, hreceiving] at hframe

/-- Settles O34: `poll_exchange` and `poll_handled_frame`; the result and the packet by `poll_verdict`. -/
theorem rxPollHandlesAWindow : Obligations.RxPollHandlesAWindow := by
  intro s hinit hmode hflag hready
  have hrun := rxPoll_of_initialized s hinit
  have hframe := poll_handled_frame hmode hflag hready
  obtain ⟨hrejected, haccepted⟩ := poll_verdict hmode hflag hready
  obtain ⟨standby, window, published, receive, last, inStandby, inReceive, hstandby, hreceive, hdrew, hedges, hraw,
    hrssi, hbus, hregs, hfifo, hds, hcount⟩ := poll_exchange hmode hflag hready
  generalize (poll s).1 = e at *
  generalize (poll s).2 = u at *
  rw [respondPoll_frame] at hrun
  refine ⟨{ u with ret := (respondPoll e u).ret, cond := (respondPoll e u).cond }, standby, window, published, receive,
    last, inStandby, inReceive, hrun,
    congrArg (fun t : State => { t with ret := (respondPoll e u).ret, cond := (respondPoll e u).cond }) hframe,
    hstandby, hreceive, ⟨hdrew.next, hdrew.chipIn, hdrew.drawn⟩, hedges, hraw, hrssi, ?_, hregs, hfifo, hds, ?_, ?_⟩
  · rw [hbus]
    simp only [windowWire, List.append_assoc]
  · intro type haccepts
    have hv : judge s.cfg u.ds.bytes = some (type, typeLen type) := judge_accepts haccepts
    obtain ⟨rfl, hdec, hlen, htype⟩ := haccepted type _ hv
    have hrange := (typeLen_range type).2
    refine ⟨rfl, rfl, hlen, htype, ?_, ?_⟩
    · rw [hdec, overlay_take_bytes _ _ hrange (hrange.trans_eq u.ds.size.symm)]
    · rw [hcount, hv]
      rfl
  · intro hrejects
    have hv : judge s.cfg u.ds.bytes = none := judge_rejects hrejects
    obtain ⟨rfl, hdec, hlen, htype⟩ := hrejected hv
    refine ⟨rfl, rfl, hdec, hlen, htype, List.length_eq_zero_iff.mp ?_⟩
    rw [hcount, hv]
    rfl

end Sys2Proof.Machine
end

section
/-! PROOFS. The transmit pipeline (spec/45_transmit.md R211 to R221): one pass, one iteration of the clear-channel wait,
what a SEND leaves of the receive side, a SEND that completes, and a SEND that is never switched to Transmit. -/

namespace Sys2Proof.Machine

/-! ### One pass (R215) -/

theorem length_frameBits {s : State} (h : s.total.toNat ≤ 88) : (frameBits s).length = s.total.toNat := by
  rw [frameBits, List.length_take, length_bits, s.frame.size]
  omega

/-- Settles O39: TX_PASS writes what the packer completes, and the packer keeps every bit (`packFrom_stream`). -/
theorem txPassContinuesTheStream : Obligations.TxPassContinuesTheStream := by
  intro s haccN htotal
  obtain ⟨hstream, hcount, hheld⟩ := packFrom_stream (frameBits s) s.acc s.accN haccN
  rw [length_frameBits htotal] at hcount hheld
  rw [hheld] at hstream
  refine ⟨passBytes s, (packFrom s.acc s.accN (frameBits s)).2.1, ?_, hcount, hstream⟩
  change Host.Outcome.next (respond (.bytes (passBytes s)) (txPass s)) = _
  rw [txPass_state, hheld]
  rfl

/-! ### The clear-channel wait, one iteration at a time (R213) -/

theorem fetch_congr {s t : State} (hmoves : t.moves = s.moves) (hcfg : t.cfg = s.cfg) : fetch t = fetch s := by
  rw [fetch, fetch, hmoves, hcfg]

/-- Settles O45: each iteration of the wait, said by `ccaTick_limit`, `ccaTick_clear` and `ccaTick_busy`, leaves the
SEND in progress, so the step ends there or goes on as the next step does. -/
theorem clearChannelIterationIsAPoll : Obligations.ClearChannelIterationIsAPoll := by
  intro s hp hi hedge
  have hbusy : s.txPhase ≠ .off := by simp [hp]
  have hkept := (txTick_effect s).kept
  have hfetch : fetch (txTick s) = fetch s := fetch_congr hkept.moves hkept.cfg
  have hstep : ∀ t : State, ccaTick s = t → t.txPhase ≠ .off →
      step s = if t.chipIn = [] then Host.Outcome.next t else step t := by
    intro t ht hgoes
    rw [← txTick_cca s hp] at ht
    subst ht
    exact step_iteration s hbusy hedge hgoes hfetch
  refine ⟨fun hlimit => ?_, fun hleft hclear => ?_, fun n v hleft hclear hpoll => ?_⟩
  · exact hstep _ (ccaTick_limit s hlimit) nofun
  · exact hstep _ (ccaTick_clear s (by omega) hclear) nofun
  · have htick := ccaTick_busy s v (by omega) hclear hpoll
    rw [hleft, Nat.add_sub_cancel] at htick
    refine hstep _ htick ?_
    obtain ⟨_, rfl⟩ := rxPoll_next hpoll
    rw [respondPoll_frame, poll_frame]
    exact hbusy

/-! ### A SEND without a clear-channel wait leaves the receive side alone (R220, D11) -/

/-- `t` has the receive state of `s`. -/
def SameReception (s t : State) : Prop :=
  t.raw = s.raw ∧ t.ds = s.ds ∧ t.dec = s.dec ∧ t.decLen = s.decLen ∧ t.decType = s.decType ∧ t.rssi = s.rssi ∧
    t.rxState = s.rxState

theorem SameReception.refl (s : State) : SameReception s s := ⟨rfl, rfl, rfl, rfl, rfl, rfl, rfl⟩

theorem SameReception.trans {s t u : State} (h : SameReception s t) (k : SameReception t u) : SameReception s u := by
  obtain ⟨hraw, hds, hdec, hlen, htype, hrssi, hstate⟩ := h
  obtain ⟨kraw, kds, kdec, klen, ktype, krssi, kstate⟩ := k
  exact ⟨kraw.trans hraw, kds.trans hds, kdec.trans hdec, klen.trans hlen, ktype.trans htype, krssi.trans hrssi,
    kstate.trans hstate⟩

/-- The SEND in `s` makes no iteration of the clear-channel wait any more. -/
def PastWait (s : State) : Prop := s.txPhase ≠ .cca ∨ s.job.ccaLeft = 0

/-- Outside the wait no phase reads a window or writes a packet, and none goes back to the wait. -/
theorem txTick_sameReception {s : State} (h : PastWait s) : SameReception s (txTick s) ∧ PastWait (txTick s) := by
  cases hp : s.txPhase with
  | off =>
    rw [txTick_off s hp]
    exact ⟨.refl s, h⟩
  | cca =>
    rw [txTick_cca s hp, ccaTick_limit s (h.resolve_left (not_not_intro hp))]
    exact ⟨.refl s, Or.inl nofun⟩
  | setup =>
    obtain ⟨_, _, _, _, _, _, _, _, e, _⟩ := setupTick_frame s
    rw [txTick_setup s hp, e]
    exact ⟨.refl s, Or.inl nofun⟩
  | fill =>
    obtain ⟨_, _, _, _, _, _, _, _, _, _, _, _, e, hphase⟩ := fillTick_frame s hp
    rw [txTick_fill s hp, e]
    refine ⟨.refl s, Or.inl ?_⟩
    rcases hphase with ⟨rfl, _⟩ | ⟨rfl, _⟩ <;> nofun
  | waitSent =>
    obtain ⟨_, _, _, _, _, e, hphase, _⟩ := waitTick_frame s hp
    rw [txTick_waitSent s hp, e]
    refine ⟨.refl s, Or.inl ?_⟩
    rcases hphase with rfl | rfl <;> nofun
  | restore =>
    obtain ⟨_, _, _, _, _, _, _, _, _, _, e⟩ := restoreTick_frame s
    rw [txTick_restore s hp, e]
    exact ⟨.refl s, Or.inl nofun⟩

theorem resume_sameReception {s : State} (h : PastWait s) : SameReception s (resume s) :=
  resume_induction (R := fun s t => PastWait s → SameReception s t) (fun _ hs => (txTick_sameReception hs).1)
    (fun _ _ _ ht hs => (txTick_sameReception hs).1.trans (ht (txTick_sameReception hs).2)) s h

/-- An operation that starts a SEND with no iteration of the wait to make leaves the receive side alone. -/
theorem Ran.sameReception {i : Instr} {s t : State} (h : Ran i s t) (hi : StartsSend i) (hlimit : s.cfg.ccaLimit = 0) :
    SameReception s t := by
  cases h with
  | init e => subst e; simp [StartsSend] at hi
  | rxPoll e => subst e; simp [StartsSend] at hi
  | send fromPkt pl st => exact resume_sameReception (s := startSend _ _ fromPkt _) (Or.inr hlimit)
  | other h =>
    rw [h.frame]
    exact .refl s

/-- Settles O44: the commands by `Ran.sameReception`, a step by what a step does while a SEND is in progress. -/
theorem noClearChannelWaitNoReception : Obligations.NoClearChannelWaitNoReception := by
  refine ⟨fun i s t hi hlimit h => (exec_ran h).sameReception hi hlimit, fun s t hbusy hpast h => ?_⟩
  rcases step_busy hbusy h with ⟨rest, rfl⟩ | rfl
  · exact SameReception.refl s
  · exact resume_sameReception hpast

/-! ### A SEND that completes (R212 to R214, R221) -/

/-- `u` as the SEND of these operands is about to set up in it, `left` iterations of its wait not made. -/
def setupOf (payload : List Byte) (v left : Nat) (fromPkt : Bool) (u : State) : State :=
  { u with txPhase := .setup, job := ⟨payload, v, left, fromPkt⟩, ret := .none, cond := none }

/-- A SEND from its start, with whatever SEND_PKT put into `pl` and `st` before it: past its clear-channel wait it has
moved nothing of `u` but those, its own phase, its operands and its result. -/
theorem startSend_setupOf {s u : State} (payload : List Byte) (v : Nat) (fromPkt : Bool) (pl : Buf 9) (st : Buf 10)
    (hw : ChannelWait s.cfg.ccaLimit s u) (hu : u.chipIn ≠ []) :
    ∃ left, resume (startSend payload v fromPkt { s with pl := pl, st := st }) =
      resume (setupOf payload v left fromPkt { u with pl := pl, st := st }) :=
  waiting_ends hw (startSend payload v fromPkt { s with pl := pl, st := st }) hu

theorem send_setsUp {s u : State} {payload : List Byte} {v : Nat} (hi : s.initialized = true)
    (hr : sendInRange payload v = true) (hw : ChannelWait s.cfg.ccaLimit s u) (hu : u.chipIn ≠ []) :
    ∃ left, exec (.send payload v) s = .next (resume (setupOf payload v left false u)) := by
  obtain ⟨_, _, _, _, hpl, hst⟩ := channelWait_frame hw
  obtain ⟨left, hsets⟩ := startSend_setupOf payload v false s.pl s.st hw hu
  have hsame : ({ u with pl := s.pl, st := s.st } : State) = u := by rw [← hpl, ← hst]
  rw [hsame] at hsets
  exact ⟨left, (execSend_inRange hi hr).trans (congrArg _ hsets)⟩

/-- Settles O40: past its wait the SEND is the one of `send_course`. -/
theorem sendCompletes : Obligations.SendCompletes := by
  intro s u payload v c rest hi h1 h10 hv hw hok hc
  obtain ⟨hcfg, _, hframe, hlast, _, _⟩ := channelWait_frame hw
  obtain ⟨left, hsets⟩ := send_setsUp hi (sendInRange_iff.mpr ⟨h1, h10, hv⟩) hw (by simp [hc, c.answers_ne_nil])
  rw [← hcfg] at hok ⊢
  rw [← hframe, ← hlast]
  obtain ⟨acc, regs, fifo, hend, hregs, hlen, hfifo⟩ :=
    send_course c (setupOf payload v left false u) rest hok rfl h1 h10 hv hc
  have htotal : (BitVec.ofNat 8 (totalBits payload.length v)).toNat = totalBits payload.length v := by
    have hbits := totalBits_le h1 hv
    rw [BitVec.toNat_ofNat]
    omega
  have hoverlay : ∀ buf : Buf 11, (overlay buf (Config.sync :: payload)).bytes =
      0x7E :: payload ++ buf.bytes.drop (1 + payload.length) := by
    intro buf
    rw [overlay_bytes _ _ (by rw [List.length_cons]; omega), List.length_cons, Nat.add_comm 1]
    rfl
  exact ⟨_, hsets.trans (congrArg _ hend), rfl, hoverlay _, htotal, hoverlay _,
    fun n hn => hregs n (hn u.cfg.aLen (by simp)) (hn u.cfg.aMode (by simp)), hlen, hfifo⟩

/-! ### A SEND that is never switched to Transmit (R219, R305 c, D23) -/

/-- What the chip answers a SEND after its clear-channel wait where FifoLevel is clear at every check: the polls of
ModeReady as Standby is commanded, the checks, and the tests of PacketSent, whatever they read. -/
structure NeverSwitched (cfg : Config.Params) (standby checks later : List Config.ChipAnswer) : Prop where
  /-- Standby's wait ends. -/
  standby : ∃ ready, ModePolls cfg (answerBytes standby) ready
  /-- FifoLevel is never seen set. -/
  clear : ∀ a ∈ checks, flagSet cfg .fifoLevel a = false
  /-- All the checks the fill loop makes. -/
  count : checks.length = Config.repeatCount
  /-- PacketSent is tested. -/
  later : later ≠ []

/-- A SEND about to set up whose chip is never switched: every repetition is packed, and all answers left over are read
by the completion wait. -/
theorem send_neverSwitched {s : State} {standby checks later : List Config.ChipAnswer}
    (h : NeverSwitched s.cfg standby checks later) (hp : s.txPhase = .setup)
    (hr : sendInRange s.job.payload s.job.v = true) (hc : s.chipIn = standby ++ (checks ++ later)) :
    ∃ acc accN flag regs fifo, resume s = { s with
      frame := overlay s.frame (Config.sync :: s.job.payload)
      total := BitVec.ofNat 8 (totalBits s.job.payload.length s.job.v), acc := acc, accN := accN
      txPhase := .waitSent, rep := 330, txActive := false, chipMode := .standby, rxFlag := flag
      chipIn := [], drawn := s.drawn + standby.length + checks.length + later.length
      bus := s.bus ++ setupWire s.cfg standby ++
        fillWire s.cfg (passChunk (sendStream s.job.payload s.job.v) (totalBits s.job.payload.length s.job.v)) 0 checks ++
        sentWire s.cfg later
      chipRegs := regs, fifoOut := fifo } := by
  obtain ⟨⟨ready, hm⟩, hclear, h330, hne⟩ := h
  obtain ⟨hpos, hlen, hv⟩ := sendInRange_iff.mp hr
  -- setup
  obtain ⟨regs, fifo, hsetup, _, _⟩ := setupTick_recorded s standby _ ready hc hm
  have hgo := resume_goes s
  rw [txTick_setup s hp] at hgo
  rw [hgo (by rw [hsetup]; nofun) (by rw [hsetup]; simp [hne])]
  -- fill
  have hcfg : (setupTick s).cfg = s.cfg := by rw [hsetup]
  have hbits : frameBits (setupTick s) = repetitionBits s.job.payload s.job.v := by
    rw [hsetup]
    exact loaded_frameBits s.frame s.job.payload hpos hlen hv
  rw [fill_unswitched _ (setupTick s) checks later hbits (by rw [hsetup]) (by rw [hsetup]) (by rw [hsetup])
    (by rw [hsetup]) (by rw [hsetup]) hne h330 (by rw [hcfg]; exact hclear)]
  -- completion wait
  rw [wait_stuck later _ rfl rfl hne (by rw [hsetup])]
  have hchunk : fillWire s.cfg (completed (repetitionBits s.job.payload s.job.v)) 0 checks =
      fillWire s.cfg (passChunk (sendStream s.job.payload s.job.v) (totalBits s.job.payload.length s.job.v)) 0 checks := by
    refine fillWire_congr checks 0 (fun k hk => ?_)
    rw [passCount_of_clear _ _ hclear] at hk
    rw [← length_repetitionBits s.job.payload hpos hv]
    exact completed_eq_passChunk _ k _ (by omega)
  rw [hsetup]
  simp only [hchunk, setupWire, List.append_assoc]
  exact ⟨_, _, _, _, _, rfl⟩

/-- SEND_PKT of a recognised type whose payload STUFF takes, from its start: past the clear-channel wait it is the SEND
of the stuffed payload about to set up in `u`, the packet in `pl` and STUFF's result in `st` (R246). -/
theorem sendPkt_setsUp {s u : State} {type : PktType} {a : DevAddr} {command : Byte} {extra out : List Byte} {ins : Nat}
    (hi : s.initialized = true)
    (hs : stuff (revBuf (assemble s.cfg type s.counter a command extra)) = some (out, ins))
    (hw : ChannelWait s.cfg.ccaLimit s u) (hu : u.chipIn ≠ []) :
    ∃ left, exec (.sendPkt (deviceOf type) a command extra) s = .next (resume (setupOf
      (out.take (stuffedSize (typeLen type) ins).1) (stuffedSize (typeLen type) ins).2 left true
      { u with pl := overlay s.pl (assemble s.cfg type s.counter a command extra), st := overlay s.st out })) := by
  have hlen := length_assemble s.cfg type s.counter a command extra
  have hstart := execSendPkt_recognised hi type a command extra
  rw [sendPacket, packetPayload, hs] at hstart
  generalize assemble s.cfg type s.counter a command extra = packet at hlen hstart
  rw [← hlen]
  obtain ⟨left, hends⟩ := startSend_setupOf (out.take (stuffedSize packet.length ins).1)
    (stuffedSize packet.length ins).2 true (overlay s.pl packet) (overlay s.st out) hw hu
  exact ⟨left, hstart.trans (congrArg _ hends)⟩

/-- Any step from the completion wait of such a SEND only reads, or takes an edge. -/
theorem step_neverSwitched {s : State} (hp : s.txPhase = .waitSent) (ha : s.txActive = false) :
    ∃ t : State, step s = .next t ∧ ChipTraffic { s with moves := t.moves } t ∧ t.chipRegs = s.chipRegs ∧
      t.fifoOut = s.fifoOut := by
  by_cases hedge : ∃ rest, fetch s = .run .irqEdge rest
  · obtain ⟨rest, hf⟩ := hedge
    exact ⟨_, step_edge s rest hf, takeEdgeIf_traffic true (withMoves rest s), rfl, rfl⟩
  · obtain ⟨htraffic, hregs, hfifo⟩ := txRun_stuck (s.chipIn.length + s.job.ccaLeft + 3) s hp ha
    refine ⟨resume s, step_sending s (by simp [hp]) (fun rest hf => hedge ⟨rest, hf⟩), ?_, hregs, hfifo⟩
    rw [(resume_kept s).moves]
    exact htraffic

/-- Settles O58: SEND and the SEND of a SEND_PKT by `send_neverSwitched`, each further step by `step_neverSwitched`. -/
theorem sendNeverSwitchedNeverEnds : Obligations.SendNeverSwitchedNeverEnds := by
  refine ⟨?_, ?_, fun s => step_neverSwitched⟩
  · intro s u payload v standby checks later ready hi h1 h10 hv hw hm h330 hclear hc hne
    obtain ⟨hcfg, hcounter, _, hlast, _, _⟩ := channelWait_frame hw
    have hr : sendInRange payload v = true := sendInRange_iff.mpr ⟨h1, h10, hv⟩
    obtain ⟨left, hsets⟩ := send_setsUp hi hr hw (by simp [hc, hne])
    rw [← hcfg] at hm hclear ⊢
    obtain ⟨_, _, _, _, _, hend⟩ := send_neverSwitched (s := setupOf payload v left false u)
      ⟨⟨ready, hm⟩, hclear, h330, hne⟩ rfl hr hc
    exact ⟨_, hsets.trans (congrArg _ hend), rfl, rfl, rfl, rfl, rfl, hlast, hcounter, rfl, rfl⟩
  · intro s u type a command extra out ins standby checks later ready hi hs hw hm h330 hclear hc hne
    obtain ⟨hcfg, hcounter, _, hlast, _, _⟩ := channelWait_frame hw
    have hr := sendInRange_stuffed (length_assemble s.cfg type s.counter a command extra) hs
    rw [length_assemble] at hr
    obtain ⟨left, hsets⟩ := sendPkt_setsUp hi hs hw (by simp [hc, hne])
    rw [← hcfg] at hm hclear
    obtain ⟨_, _, _, _, _, hend⟩ := send_neverSwitched (s := setupOf _ _ left true { u with pl := _, st := _ })
      ⟨⟨ready, hm⟩, hclear, h330, hne⟩ rfl hr hc
    exact ⟨_, hsets.trans (congrArg _ hend), rfl, rfl, rfl, rfl, rfl, hlast, hcounter, rfl⟩

end Sys2Proof.Machine
end

section
/-! PROOFS. CLASSIFY, ASSEMBLE and LAST_GET, the packet SEND_PKT sends, and its way back through RX_POLL
(spec/46_assembly.md R241 to R250). -/

namespace Sys2Proof.Machine

/-! ### CLASSIFY and LAST_GET -/

theorem exec_classify (code : Byte) (s : State) : exec (.classify code) s =
    .next { s with ret := .kind (classify s.cfg code).1 (classify s.cfg code).2, cond := none } := rfl

/-- R241's table inverts R242's, the two codes being different (R9). -/
theorem classify_typeCode {cfg : Config.Params} (hcodes : cfg.dtRc ≠ Config.dtWs) (type : PktType) :
    classify cfg (typeCode cfg type) = (deviceOf type, typeLen type) := by
  cases type with
  | windowSensor => exact if_pos rfl
  | remoteControl => exact (if_neg hcodes).trans (if_pos rfl)

theorem classify_of_noTypeCode {cfg : Config.Params} {code : Byte} (h : ∀ type, code ≠ typeCode cfg type) :
    classify cfg code = (.unknown, 0) := by
  rw [classify, if_neg (h .windowSensor), if_neg (h .remoteControl)]

/-- Settles O11: the two codes by `classify_typeCode`, of which WindowSensor's does not need the codes to differ. -/
theorem classifyTable : Obligations.ClassifyTable := by
  refine fun s => ⟨rfl, fun hcodes => ?_, fun code hws hrc => ?_⟩
  · rw [exec_classify, show s.cfg.dtRc = typeCode s.cfg .remoteControl from rfl, classify_typeCode hcodes]
    rfl
  · have hnone : ∀ type, code ≠ typeCode s.cfg type
      | .windowSensor => hws
      | .remoteControl => hrc
    rw [exec_classify, classify_of_noTypeCode hnone]

/-- Settles O47: by evaluation. -/
theorem lastGetReturnsTheSnapshot : Obligations.LastGetReturnsTheSnapshot := fun _ => rfl

/-! ### ASSEMBLE (R243) -/

theorem exec_assemble (type : PktType) (ctr : Byte) (a : DevAddr) (command : Byte) (extra : List Byte) (s : State) :
    exec (.assemble type ctr a command extra) s = .next { s with
      pl := overlay s.pl (assemble s.cfg type ctr a command extra)
      ret := .bytes (assemble s.cfg type ctr a command extra), cond := none } := rfl

/-- A packet is its fields and their CRC, high byte first. -/
theorem assemble_eq (cfg : Config.Params) (type : PktType) (ctr : Byte) (a : DevAddr) (command : Byte)
    (extra : List Byte) : assemble cfg type ctr a command extra = fields cfg type ctr a command extra ++
      [hiByte (pktCrc (fields cfg type ctr a command extra) type),
        loByte (pktCrc (fields cfg type ctr a command extra) type)] := rfl

theorem length_fields (cfg : Config.Params) (type : PktType) (ctr : Byte) (a : DevAddr) (command : Byte)
    (extra : List Byte) : (fields cfg type ctr a command extra).length + 2 = typeLen type := by
  cases type <;> rfl

/-- A packet fits `pl`, which keeps its bytes past it (log entry 18). -/
theorem overlay_pl_assemble (pl : Buf 9) (cfg : Config.Params) (type : PktType) (ctr : Byte) (a : DevAddr)
    (command : Byte) (extra : List Byte) : (overlay pl (assemble cfg type ctr a command extra)).bytes =
      assemble cfg type ctr a command extra ++ pl.bytes.drop (typeLen type) := by
  have hlen := length_assemble cfg type ctr a command extra
  rw [overlay_bytes pl _ (hlen.trans_le (typeLen_range type).2), hlen]

/-- Settles O12: the fields of either type, their CRC, and `pl` by `overlay_pl_assemble`. -/
theorem assembleLaysOutThePacket : Obligations.AssembleLaysOutThePacket := by
  intro type ctr a command extra s
  refine ⟨fields s.cfg type ctr a command extra, pktCrc (fields s.cfg type ctr a command extra) type, _,
    exec_assemble type ctr a command extra s, ?_, rfl, ?_⟩
  · cases type <;> rfl
  · rw [length_fields, overlay_pl_assemble, assemble_eq]

/-! ### A SEND_PKT that completes (R246, R247) -/

theorem overlay_sync_bytes (buf : Buf 11) {payload : List Byte} (h : payload.length ≤ 10) :
    (overlay buf (Config.sync :: payload)).bytes = 0x7E :: payload ++ buf.bytes.drop (1 + payload.length) := by
  rw [overlay_bytes _ _ (by rw [List.length_cons]; omega), List.length_cons, Nat.add_comm 1]
  rfl

/-- The frame's bit count fits `total` (R10). -/
theorem toNat_ofNat_totalBits {len v : Nat} (h1 : 1 ≤ len) (h10 : len ≤ 10) (hv : v ≤ 8) :
    (BitVec.ofNat 8 (totalBits len v)).toNat = totalBits len v := by
  have hbits := totalBits_le h1 hv
  rw [BitVec.toNat_ofNat]
  omega

/-- STUFF's result on a packet fits `st`, which keeps its bytes past it (log entry 18). -/
theorem overlay_st_stuff (st : Buf 10) {type : PktType} {packet out : List Byte} {ins : Nat}
    (hlen : packet.length = typeLen type) (h : stuff (revBuf packet) = some (out, ins)) :
    (overlay st out).bytes = out ++ st.bytes.drop (typeLen type + 1) := by
  obtain ⟨_, _, hout, _⟩ := stuff_result h
  obtain ⟨_, h9⟩ := typeLen_range type
  rw [length_revBuf, hlen] at hout
  rw [overlay_bytes st out (by omega), hout]

/-- Settles O42: past its wait the SEND_PKT is the SEND of the stuffed packet, which `send_course` runs to its end. -/
theorem sendPktCompletes : Obligations.SendPktCompletes := by
  intro s u type a command extra out ins c rest hi hs hw hok hc sent v
  obtain ⟨hcfg, hcounter, hframe, hlast, _, _⟩ := channelWait_frame hw
  have hlen := length_assemble s.cfg type s.counter a command extra
  have hr := sendInRange_stuffed hlen hs
  rw [hlen] at hr
  obtain ⟨h1, h10, hv⟩ : 1 ≤ sent.length ∧ sent.length ≤ 10 ∧ v ≤ 8 := sendInRange_iff.mp hr
  obtain ⟨left, hsets⟩ := sendPkt_setsUp hi hs hw (by simp [hc, c.answers_ne_nil])
  have hpl := overlay_pl_assemble s.pl s.cfg type s.counter a command extra
  have hst := overlay_st_stuff s.st hlen hs
  generalize overlay s.pl _ = pl at hsets hpl
  generalize overlay s.st _ = st at hsets hst
  rw [← hcounter, ← hcfg] at hpl ⊢
  rw [← hcfg] at hok
  rw [← hframe, ← hlast]
  obtain ⟨acc, regs, fifo, hend, hregs, hdefault, hfifo⟩ :=
    send_course c (setupOf sent v left true { u with pl := pl, st := st }) rest hok rfl h1 h10 hv hc
  exact ⟨_, hsets.trans (congrArg _ hend), rfl, hpl, hst, overlay_sync_bytes _ h10, toNat_ofNat_totalBits h1 h10 hv,
    overlay_sync_bytes _ h10, fun n hn => hregs n (hn u.cfg.aLen (by simp)) (hn u.cfg.aMode (by simp)), hdefault, hfifo⟩

/-! ### The way back (R248) -/

/-- More room in the output only adds bits behind. -/
theorem destuffBits_cap_mono (bs : List Bool) {cap cap' : Nat} (run : Nat) (h : cap ≤ cap') :
    (destuffBits cap run bs).1 <+: (destuffBits cap' run bs).1 := by
  induction bs generalizing cap cap' run with
  | nil => exact List.prefix_refl _
  | cons b bs ih =>
    by_cases hfull : cap = 0
    · rw [hfull, destuffBits_full]
      exact List.nil_prefix
    · have hroom : cap' ≠ 0 := by omega
      simp only [destuffBits, if_neg hfull, if_neg hroom]
      split
      · exact ih 0 h
      · exact (List.prefix_cons_inj b).mpr (ih _ (by omega))

/-- DESTUFF undoes STUFF on streams with room to spare, whatever follows. -/
theorem prefix_destuffBits_stuffBits (bs rest : List Bool) {cap : Nat} (h : bs.length ≤ cap) :
    bs <+: (destuffBits cap 0 ((stuffBits 0 bs).1 ++ rest)).1 := by
  have hmono := destuffBits_cap_mono ((stuffBits 0 bs).1 ++ rest) 0 h
  rwa [destuffBits_stuffBits bs rest 0 (by decide)] at hmono

theorem prefix_of_bits_prefix {l m : List Byte} (h : bits l <+: bits m) : l <+: m := by
  obtain ⟨tail, htail⟩ := h
  exact ⟨packBits tail, by rw [← packBits_bits_append, htail, packBits_bits]⟩

/-- The bits that SEND transmits of STUFF's result are the stuffer's stream (R95). -/
theorem take_bits_of_stuff {input out : List Byte} {ins : Nat} (h : stuff input = some (out, ins)) :
    (bits out).take (8 * input.length + ins) = (stuffBits 0 (bits input)).1 := by
  obtain ⟨hins, _, _, hbits⟩ := stuff_result h
  have hlen : (stuffBits 0 (bits input)).1.length = 8 * input.length + ins := by
    rw [length_stuffBits, length_bits, hins]
  rw [hbits, ← hlen, List.take_left]

/-- A window that begins with a stuffed stream, and is longer than what was stuffed, destuffs to that and more. -/
theorem prefix_destuff_of_stuff {input out window : List Byte} {ins : Nat} (h : stuff input = some (out, ins))
    (hroom : input.length + 1 ≤ window.length)
    (hwindow : (bits out).take (8 * input.length + ins) <+: bits window) : input <+: (destuff window).1 := by
  rw [take_bits_of_stuff h] at hwindow
  obtain ⟨rest, hrest⟩ := hwindow
  have hscan : bits input <+: (destuffBits (8 * (window.length - 1)) 0 (bits window)).1 := by
    rw [← hrest]
    exact prefix_destuffBits_stuffBits _ _ (by rw [length_bits]; omega)
  apply prefix_of_bits_prefix
  rw [bits_destuff]
  exact hscan.trans (List.prefix_append _ _)

/-- RX_POLL accepts the bytes of a packet, whatever follows (R186, R189). -/
theorem accepts_of_assemble_prefix {cfg : Config.Params} (hcodes : cfg.dtRc ≠ Config.dtWs) {type : PktType} {ctr : Byte}
    {a : DevAddr} {command : Byte} {extra ds : List Byte} (h : assemble cfg type ctr a command extra <+: ds) :
    Accepts cfg ds type := by
  obtain ⟨rest, rfl⟩ := h
  have hcode : byteAt (assemble cfg type ctr a command extra ++ rest) 1 = typeCode cfg type := rfl
  refine ⟨by rw [hcode, classify_typeCode hcodes], ?_⟩
  have hlen := length_fields cfg type ctr a command extra
  rw [assemble_eq]
  generalize fields cfg type ctr a command extra = front at hlen
  have hlast : typeLen type - 1 = front.length + 1 := by omega
  rw [hlast, ← hlen, List.append_assoc, Nat.add_sub_cancel, List.take_left]
  simp [byteAt, halfOf, List.getD_eq_getElem?_getD]

/-- An RX_POLL that handles a window destuffs and reverses it, and publishes an accepted frame (R183, R188). -/
theorem rxPoll_publishes {s t : State} (hinit : s.initialized = true) (hmode : s.chipMode = .receive)
    (hflag : s.rxFlag = true) (hready : flagSet s.cfg .payloadReady (nextAnswer s) = true)
    (hexec : exec .rxPoll s = .next t) :
    t.ds.bytes = revBuf (destuff t.raw.bytes).1 ∧
      ∀ type, Accepts s.cfg t.ds.bytes type →
        t.ret = .bool true ∧ t.dec.bytes.take (typeLen type) = t.ds.bytes.take (typeLen type) ∧
        t.decLen = typeLen type ∧ t.decType = deviceOf type := by
  obtain ⟨t', _, _, _, _, _, _, _, hexec', _, _, _, _, _, _, _, _, _, _, hds, haccepted, _⟩ :=
    rxPollHandlesAWindow s hinit hmode hflag hready
  obtain rfl : t = t' := Host.Outcome.next.inj (hexec.symm.trans hexec')
  refine ⟨hds, fun type haccepts => ?_⟩
  obtain ⟨hret, _, hlen, htype, hdec, _⟩ := haccepted type haccepts
  have htake : (t.ds.bytes.take (typeLen type)).length = typeLen type :=
    List.length_take_of_le ((typeLen_range type).2.trans_eq t.ds.size.symm)
  exact ⟨hret, by rw [hdec, List.take_append_of_le_length htake.ge, List.take_of_length_le htake.le], hlen, htype⟩

/-- Settles O35: what the poll destuffs and reverses begins with the packet, so it accepts and publishes it. -/
theorem sentPacketIsReceived : Obligations.SentPacketIsReceived := by
  intro s t type ctr a command extra out ins hcodes hinit hmode hflag hready hexec hstuff hwindow
  obtain ⟨hds, hpublishes⟩ := rxPoll_publishes hinit hmode hflag hready hexec
  have hlen := length_assemble s.cfg type ctr a command extra
  have hroom := (typeLen_range type).2
  have hpacket : assemble s.cfg type ctr a command extra <+: t.ds.bytes := by
    rw [← revBuf_involutive (assemble s.cfg type ctr a command extra), hds]
    refine (prefix_destuff_of_stuff hstuff ?_ ?_).map rev8
    · rw [length_revBuf, hlen, t.raw.size]
      omega
    · rwa [length_revBuf, hlen]
  have htake : t.ds.bytes.take (typeLen type) = assemble s.cfg type ctr a command extra := by
    rw [← hlen]
    exact (List.prefix_iff_eq_take.mp hpacket).symm
  rw [← htake]
  exact hpublishes type (accepts_of_assemble_prefix hcodes hpacket)

end Sys2Proof.Machine
end

section
/-! PROOFS. The two causes of INIT's failure (spec/60_exceptions.md R261) and the receive interrupt (R268, R269). -/

namespace Sys2Proof.Machine

/-! ### The causes of InitFailure -/

/-- The round-trip check on recorded answers, one of which is not the value written: it ends right behind that answer. -/
theorem probe_notEchoed {echo rest : List Config.ChipAnswer} {bad : Config.ChipAnswer} {p : Byte} (ps : List Byte)
    {s : State} (hin : s.chipIn = echo ++ bad :: rest) (hbad : bad.byte ≠ p) :
    ∃ u, probe (echo.map (fun a => a.byte) ++ p :: ps) s = (false, u) ∧ u.chipIn = rest ∧ u.chipMode = s.chipMode ∧
      u.bus = s.bus ++
        echo.flatMap (fun a => regWrWire s.cfg s.cfg.aProbe a.byte ++ regRdWire s.cfg s.cfg.aProbe a.byte) ++
        regWrWire s.cfg s.cfg.aProbe p ++ regRdWire s.cfg s.cfg.aProbe bad.byte := by
  obtain ⟨regs, fifo, hecho⟩ := probe_echo echo (p :: ps) s (bad :: rest) hin
  refine ⟨_, hecho.trans (probe_fails p ps _ hbad), ?_⟩
  rw [regRd_state, regWr_state]
  exact ⟨rfl, rfl, rfl⟩

/-- SET_MODE's polls when ModeReady stays 0 up to the bound (D19). -/
theorem modePolls_neverReady {cfg : Config.Params} {polls : List Config.ChipAnswer} (hpos : 1 ≤ polls.length)
    (hlen : polls.length = cfg.modeReadyTimeout) (hnever : ∀ a ∈ polls, flagSet cfg .modeReady a = false) :
    ModePolls cfg (answerBytes polls) false :=
  modePolls_answerBytes hpos hlen.le (fun a ha => hnever a (List.mem_of_mem_dropLast ha))
    (fun a ha => hnever a (List.mem_of_getLast? ha)) fun _ => hlen

/-- Settles O29: INIT ends where the round-trip check ends, or where the mode wait gives up. -/
theorem initFailsForTwoCauses : Obligations.InitFailsForTwoCauses := by
  constructor
  · intro s echo rest bad p ps hin hvals hbad
    obtain ⟨u, hprobe, hrest, hmode, hbus⟩ := probe_notEchoed ps hin hbad
    rw [← hvals] at hprobe
    have hend := runInit_probeFailed (congrArg Prod.fst hprobe)
    rw [hprobe] at hend
    exact ⟨raise .initFailure u, congrArg Host.Outcome.next hend, rfl, rfl, hrest, hmode, hbus⟩
  · intro s echo polls rest hin hvals hlen hpos hnever
    obtain ⟨_, _, hprobe⟩ := probe_echo echo [] s (polls ++ rest) (by rw [hin, List.append_assoc])
    rw [List.append_nil, hvals, probe] at hprobe
    have hmode := setMode_recorded .standby (probe s.cfg.probeVals s).2 polls rest false (by rw [hprobe])
      (by rw [hprobe]; exact modePolls_neverReady hpos hlen hnever)
    have hend := runInit_notReady (by rw [hprobe]) (by rw [hmode])
    rw [hmode] at hend
    exact ⟨_, congrArg Host.Outcome.next hend, rfl, rfl, rfl, rfl⟩

/-! ### The handler -/

theorem exec_irqEdge (s : State) : exec .irqEdge s = .next (takeEdge s) := rfl

theorem takeEdge_armed {s : State} (h : s.irqArmed = true) : takeEdge s = { s with rxFlag := true } := by
  simp only [takeEdge, takeEdgeIf, h, Bool.and_self, Bool.or_true]

theorem takeEdge_disarmed {s : State} (h : s.irqArmed = false) : takeEdge s = s := by
  have hflag : (s.rxFlag || (true && s.irqArmed)) = s.rxFlag := by simp [h]
  rw [takeEdge, takeEdgeIf, hflag]

theorem takeEdge_takeEdge (s : State) : takeEdge (takeEdge s) = takeEdge s := by
  simp only [takeEdge, takeEdgeIf, Bool.or_assoc, Bool.or_self]

/-- Settles O37: the handler armed, not armed, and run twice; IRQ_EDGE is no host command. -/
theorem edgeSetsOnlyTheFlag : Obligations.EdgeSetsOnlyTheFlag := by
  refine ⟨fun s h => ?_, fun s h => ?_, fun s t h => ?_, rfl⟩
  · rw [exec_irqEdge, takeEdge_armed h]
  · rw [exec_irqEdge, takeEdge_disarmed h]
  · obtain rfl : takeEdge s = t := Host.Outcome.next.inj h
    rw [exec_irqEdge, takeEdge_takeEdge]

end Sys2Proof.Machine
end

section
/-! PROOFS. Commands before INIT and a block nobody asks anything (spec/70_reset_and_hazards.md R292, R298), and the waits
of SEND that have no bound (R305). -/

namespace Sys2Proof.Machine

/-! ### Commands before INIT (R298, D28) -/

theorem execRxPoll_beforeInit {s : State} (h : s.initialized = false) : execRxPoll s = .refused .beforeInit := by
  rw [execRxPoll, h]
  rfl

theorem execSend_beforeInit {s : State} (h : s.initialized = false) (payload : List Byte) (v : Nat) :
    execSend payload v s = .refused .beforeInit := by
  rw [execSend, h]
  rfl

theorem execSendPkt_beforeInit {s : State} (h : s.initialized = false) (type : PktType) (a : DevAddr) (command : Byte)
    (extra : List Byte) : execSendPkt (deviceOf type) a command extra s = .refused .beforeInit := by
  rw [execSendPkt, pktTypeOfDevice_deviceOf, h]
  rfl

/-- Settles O30: RX_POLL, SEND, and SEND_PKT of a recognised type test `initialized`; the other arms do not and answer a
next state. -/
theorem commandsBeforeInit : Obligations.CommandsBeforeInit :=
  ⟨fun _ h => ⟨execRxPoll_beforeInit h, execSend_beforeInit h, execSendPkt_beforeInit h⟩,
    fun _ => ⟨⟨_, rfl⟩, ⟨_, rfl⟩, ⟨_, rfl⟩, fun _ _ _ => ⟨_, rfl⟩⟩⟩

/-! ### Nothing asked (R292) -/

theorem fetch_idle {s : State} (h : s.moves = []) : fetch s = .idle := by
  rw [fetch, h]

theorem step_idle {s : State} (hoff : s.txPhase = .off) (h : s.moves = []) : step s = .next s := by
  rw [step_atRest s hoff, fetch_idle h]

/-- Settles O50: reset is a state at rest with nothing asked, and its signal is not armed. -/
theorem nothingRunsUnasked : Obligations.NothingRunsUnasked :=
  ⟨fun _ => step_idle, step_idle rfl rfl, rfl, fun s h => by rw [exec_irqEdge, takeEdge_disarmed h]⟩

/-! ### The waits of SEND (R305) -/

theorem fetch_unasked {s : State} (h : s.moves = []) (rest : List Move) : fetch s ≠ .run .irqEdge rest := by
  rw [fetch_idle h]
  nofun

/-- From `s` to `t` every recorded answer was read, the bytes `wires` crossed the bus, and no other traffic happened. -/
structure OnlyRead (wires : List Wire) (s t : State) : Prop where
  /-- Nothing of the block moved. -/
  traffic : ChipTraffic s t
  /-- No recorded answer is left. -/
  used : t.chipIn = []
  /-- Nothing was written, to the FIFO or to a register. -/
  fifoOut : t.fifoOut = s.fifoOut
  /-- See `fifoOut`. -/
  chipRegs : t.chipRegs = s.chipRegs
  /-- The reads, on the bus. -/
  bus : t.bus = s.bus ++ wires

theorem ChipTraffic.of_reads (s : State) (answers : List Config.ChipAnswer) (draws : Nat) (log : List Wire)
    (edge : Bool) :
    ChipTraffic s { s with
      chipIn := answers, drawn := draws, bus := log, rxFlag := s.rxFlag || (edge && s.irqArmed) } :=
  (takeEdgeIf_traffic edge s).trans ⟨rfl, id, Or.inl, id⟩

/-- A step with a SEND whose iterations are reads of one flag, as long as the recorded answers last. -/
theorem step_reads (f : ChipFlag) {s : State} (hmoves : s.moves = []) (hbusy : s.txPhase ≠ .off) (hne : s.chipIn ≠ [])
    (htick : ∀ t, ChipTraffic s t → nextAnswer t ∈ s.chipIn → txTick t = (flagRd f t).2) :
    ∃ t, step s = .next t ∧ OnlyRead (s.chipIn.flatMap fun a => regRdWire s.cfg (flagLoc s.cfg f).addr a.byte) s t := by
  refine ⟨resume s, step_sending s hbusy (fetch_unasked hmoves), ?_⟩
  rw [resume_reads f s.chipIn s rfl hne hbusy htick]
  exact ⟨.of_reads s _ _ _ _, rfl, rfl, rfl, rfl⟩

/-- R305 a, the chip in Transmit: FifoLevel set at every check keeps SEND in the fill loop. -/
theorem step_noHeadroom {s : State} (hmoves : s.moves = []) (hp : s.txPhase = .fill) (hrep : s.rep.toNat < 330)
    (hactive : s.txActive = true) (hne : s.chipIn ≠ []) (hset : ∀ a ∈ s.chipIn, flagSet s.cfg .fifoLevel a = true) :
    ∃ t, step s = .next t ∧ OnlyRead (headroomWire s.cfg s.chipIn) s t := by
  refine step_reads .fifoLevel hmoves (by rw [hp]; nofun) hne fun t ht hnext => ?_
  rw [txTick_fill t (by rw [ht.frame]; exact hp)]
  exact fillTick_wait t (by rw [ht.frame]; exact hrep) (by rw [ht.cfg]; exact hset _ hnext)
    (by rw [ht.frame]; exact hactive)

/-- R305 b: PacketSent clear at every test keeps SEND in the completion wait. -/
theorem step_unsent {s : State} (hmoves : s.moves = []) (hp : s.txPhase = .waitSent) (hne : s.chipIn ≠ [])
    (hclear : ∀ a ∈ s.chipIn, flagSet s.cfg .packetSent a = false) :
    ∃ t, step s = .next t ∧ OnlyRead (sentWire s.cfg s.chipIn) s t := by
  refine step_reads .packetSent hmoves (by rw [hp]; nofun) hne fun t ht hnext => ?_
  have hunsent : (flagRd .packetSent t).1 = false := by
    rw [flagRd_value, ht.cfg]
    exact hclear _ hnext
  rw [txTick_waitSent t (by rw [ht.frame]; exact hp), waitTick, hunsent]
  rfl

theorem ChipTraffic.withTxActive {s t : State} (h : ChipTraffic s t) (active : Bool) :
    ChipTraffic { s with txActive := active } { t with txActive := active } := by
  obtain ⟨hframe, hkept, hset, hregs⟩ := h
  exact ⟨by rw [hframe], hkept, hset, hregs⟩

/-- The switch to Transmit moves no more than the block's record of it and what SET_MODE writes (R214). -/
theorem fillTick_switch_effect {s : State} (hrep : s.rep.toNat < Config.repeatCount)
    (hset : flagSet s.cfg .fifoLevel (nextAnswer s) = true) (hactive : s.txActive = false) :
    ChipTraffic { s with txActive := true, chipMode := .transmit } (fillTick s) ∧
      RegsKeptOutside [s.cfg.aMode] s (fillTick s) ∧ (s.cfg.aMode ≠ s.cfg.aFifo → (fillTick s).fifoOut = s.fifoOut) := by
  obtain ⟨hregs, hfifo⟩ := flagRd_chipSide .fifoLevel s
  have htraffic := ((flagRd_traffic .fifoLevel s).withChipMode .transmit).trans (setMode_traffic .transmit _)
  rw [fillTick_switch s hrep hset hactive]
  exact ⟨htraffic.withTxActive true,
    (RegsKeptOutside.of_eq hregs).trans (setMode_regsKept .transmit (flagRd .fifoLevel s).2),
    fun h => ((setMode_writes .transmit (flagRd .fifoLevel s).2 h).1).trans hfifo⟩

/-- R305 a, the chip not in Transmit yet: the first check switches it, and the checks after it keep SEND in the fill
loop. -/
theorem step_switches_noHeadroom {s : State} {full : Config.ChipAnswer} {polls later : List Config.ChipAnswer}
    {ready : Bool} (hmoves : s.moves = []) (hp : s.txPhase = .fill) (hrep : s.rep.toNat < 330)
    (hactive : s.txActive = false) (hc : s.chipIn = full :: (polls ++ later))
    (hfull : flagSet s.cfg .fifoLevel full = true) (hpolls : ModePolls s.cfg (answerBytes polls) ready)
    (hset : ∀ a ∈ later, flagSet s.cfg .fifoLevel a = true) :
    ∃ t, step s = .next t ∧ OnlyRead (headroomWire s.cfg later) (fillTick s) t := by
  have htick := fillTick_switched s full polls later ready hrep hactive hc hfull hpolls
  have hstep := step_iteration s (by rw [hp]; nofun) (fetch_unasked hmoves)
  rw [txTick_fill s hp] at hstep
  have hmoves' : (fillTick s).moves = [] := by rw [htick]; exact hmoves
  have hp' : (fillTick s).txPhase = .fill := by rw [htick]; exact hp
  have hlater : (fillTick s).chipIn = later := by rw [htick]
  have hcfg : (fillTick s).cfg = s.cfg := by rw [htick]
  rw [hstep (by rw [hp']; nofun) (by rw [fetch_idle hmoves', fetch_idle hmoves])]
  split
  · next hnone =>
    obtain rfl : later = [] := hlater.symm.trans hnone
    exact ⟨_, rfl, .refl _, hnone, rfl, rfl, (List.append_nil _).symm⟩
  · next hsome =>
    have hstays := step_noHeadroom hmoves' hp' (by rw [htick]; exact hrep) (by rw [htick]) hsome
      (by rw [hlater, hcfg]; exact hset)
    rwa [hlater, hcfg] at hstays

/-- The fill loop with FifoLevel clear at every one of some checks: a pass each, and nothing is switched. -/
theorem fill_clearChecks {checks rest : List Config.ChipAnswer} {s : State} (hp : s.txPhase = .fill)
    (hc : s.chipIn = checks ++ rest) (hne : rest ≠ []) (hclear : ∀ a ∈ checks, flagSet s.cfg .fifoLevel a = false)
    (hrep : s.rep.toNat + checks.length ≤ 330) :
    ∃ u, resume s = resume u ∧ u.txPhase = .fill ∧ u.rep.toNat = s.rep.toNat + checks.length ∧
      u.txActive = s.txActive ∧ u.chipMode = s.chipMode ∧ u.chipIn = rest := by
  induction checks generalizing s with
  | nil => exact ⟨s, rfl, hp, rfl, rfl, rfl, hc⟩
  | cons a checks ih =>
    have hnext : nextAnswer s = a := by rw [nextAnswer, hc]; rfl
    rw [List.length_cons] at hrep ⊢
    have hpass := fillTick_pass s (by simp only [Config.repeatCount]; omega)
      (by rw [hnext]; exact hclear a List.mem_cons_self)
    have hgo := resume_goes s
    rw [txTick_fill s hp] at hgo
    have hp' : (fillTick s).txPhase = .fill := by rw [hpass]; exact hp
    have hc' : (fillTick s).chipIn = checks ++ rest := by rw [hpass, hc]; rfl
    have hcount : (fillTick s).rep.toNat = s.rep.toNat + 1 := by
      rw [hpass]
      bv_omega
    obtain ⟨u, hresume, hphase, hrepu, hactive, hmode, hrest⟩ := ih hp' hc'
      (by rw [hpass]; exact fun b hb => hclear b (List.mem_cons_of_mem a hb)) (by omega)
    rw [hpass] at hactive hmode
    exact ⟨u, (hgo (by rw [hp']; nofun) (by rw [hc']; simp [hne])).trans hresume, hphase, by omega, hactive, hmode, hrest⟩

/-- R305 c: with FifoLevel clear at all 330 checks SEND reaches the completion wait, the chip never switched, and stays. -/
theorem step_neverSet {s : State} {checks later : List Config.ChipAnswer} (hmoves : s.moves = []) (hp : s.txPhase = .fill)
    (hrep : s.rep = 0) (hactive : s.txActive = false) (hc : s.chipIn = checks ++ later) (h330 : checks.length = 330)
    (hne : later ≠ []) (hclear : ∀ a ∈ checks, flagSet s.cfg .fifoLevel a = false) :
    ∃ t, step s = .next t ∧ t.txPhase = .waitSent ∧ t.rep = 330 ∧ t.txActive = false ∧ t.chipMode = s.chipMode ∧
      t.chipIn = [] := by
  have hzero : s.rep.toNat = 0 := by rw [hrep]; rfl
  obtain ⟨u, hfill, hphase, hrepu, hactiveu, hmode, hrest⟩ := fill_clearChecks hp hc hne hclear (by omega)
  have h330u : u.rep.toNat = 330 := by omega
  have hactive' : u.txActive = false := hactiveu.trans hactive
  rw [step_sending s (by rw [hp]; nofun) (fetch_unasked hmoves), hfill, fill_ends u hphase h330u (by rw [hrest]; exact hne),
    wait_stuck later { u with txPhase := .waitSent } rfl hrest hne hactive']
  exact ⟨_, rfl, rfl, BitVec.eq_of_toNat_eq h330u, hactive', hmode, rfl⟩

/-- Settles O46: R305 a by `step_noHeadroom` and, from the switch on, by `step_switches_noHeadroom`; b by `step_unsent`;
c by `step_neverSet`. -/
theorem unboundedWaitsStayWaits : Obligations.UnboundedWaitsStayWaits := by
  refine ⟨fun s hmoves hp hrep hactive hne hset => ?_, ?_, fun s hmoves hp hne hclear => ?_,
    fun s checks later => step_neverSet⟩
  · obtain ⟨t, hstep, h⟩ := step_noHeadroom hmoves hp hrep hactive hne hset
    exact ⟨t, hstep, h.traffic, h.used, h.fifoOut, h.chipRegs, h.bus⟩
  · intro s full polls later ready hmoves hp hrep hactive hc hfull hpolls hset
    obtain ⟨t, hstep, h⟩ := step_switches_noHeadroom hmoves hp hrep hactive hc hfull hpolls hset
    have hnext : nextAnswer s = full := by rw [nextAnswer, hc]; rfl
    obtain ⟨htraffic, hregs, hfifo⟩ := fillTick_switch_effect hrep (by rw [hnext]; exact hfull) hactive
    refine ⟨t, hstep, htraffic.trans h.traffic, h.used, hregs.trans (.of_eq h.chipRegs),
      fun haddr => h.fifoOut.trans (hfifo haddr), ?_⟩
    rw [h.bus, fillTick_switched s full polls later ready hrep hactive hc hfull hpolls]
    simp [headroomWire]
  · obtain ⟨t, hstep, h⟩ := step_unsent hmoves hp hne hclear
    exact ⟨t, hstep, h.traffic, h.used, h.fifoOut, h.chipRegs, h.bus⟩

end Sys2Proof.Machine
end
